-- ==== Sys2Proof/Word.lean ====
section
/-!
DEFINITION. The words the hardware holds: binary32 words, storage arrays of whole slots, and the value `UNSPEC`
that the spec gives an element no rule has written (00_scope.md R11, 10_state.md R47).
-/

namespace Sys2Proof

/-- A binary32 word: sign in bit 31, biased exponent in bits 30 to 23, fraction in bits 22 to 0 (R63, R140). -/
abbrev F32 := BitVec 32

/-- What a state element holds: the spec's own value `UNSPEC`, or a value some rule has written (R11). -/
inductive Elem (α : Type) where
  | unspec
  | val (a : α)
  deriving DecidableEq, Repr

/-- A storage array of `w`-bit slots: (slot, value) pairs with strictly rising slot numbers.
A slot that is not listed holds `UNSPEC` (R22, R35, R36). -/
abbrev Memory (w : Nat) := List (Nat × BitVec w)

end Sys2Proof
end

