-- ==== Sys2Proof/Config.lean ====
section
/-!
DEFINITION. The elaboration-time parameters of 00_scope.md R6, the reference instantiation, and the one free value
of the spec (the sign and payload of a NaN, R150).
-/

namespace Sys2Proof

/-- Who drives the FIFO's write port: the parameter `CFG` of R6 (decision D41). -/
inductive WriteDriver where
  | integrated
  | fifoUnit
  deriving DecidableEq, Repr

/-- The parameters of R6 that a rule reads. `N` and `KLW` are derived from them (log entry 16). -/
structure Params where
  addrW : Nat
  dataW : Nat
  lMax : Nat
  syncStages : Nat
  cfg : WriteDriver
  deriving DecidableEq, Repr

/-- FIFO storage capacity in slots, `N = 2^ADDR_W` (R6). -/
def Params.n (p : Params) : Nat := 2 ^ p.addrW

/-- Width of the kernel-length operand: `ceil(log2(L_MAX + 1))`, which for `L_MAX >= 1` is the bit length of
`L_MAX` (R6; log entry 16). -/
def Params.klw (p : Params) : Nat := Nat.log2 p.lMax + 1

/-- The parameter sets of R6; any other is `REFUSE_CONFIG` (R204). -/
def Params.legal (p : Params) : Bool :=
  decide (1 ≤ p.addrW) && decide (1 ≤ p.dataW) && decide (p.dataW ≤ 24) && decide (1 ≤ p.lMax)
    && decide (p.syncStages = 2)

/-- The reference instantiation (R6, D33). -/
def Config.reference : Params :=
  { addrW := 3, dataW := 16, lMax := 32, syncStages := 2, cfg := .integrated }

/-- FREE VALUE (R150, I-6): sign (bit 22) and payload (bits 21 to 0) of the NaN produced by the n-th draw.
It has no body, so no proof can rest on what it is (log entry 8). -/
opaque Config.freeNan : Nat → BitVec 23

end Sys2Proof
end

