-- ==== Sys2Proof/Syntax.lean ====
section
/-!
DEFINITION. The operations of the hardware: one constructor per row of spec/opcode_table.json
(30_encoding.md R83 for the rows with a control vector, R85 for the two internal steps).
-/

namespace Sys2Proof

/-- One operation. An operand is the unsigned integer that stands on its port (R82); whether it fits its field is
`Instr.wf`. `taps` are the words of `coef_i`, tap 0 first (R63). -/
inductive Instr where
  | sysNop
  | rst
  | fifoInit
  | wNop
  | put (wdata : Nat)
  | rNop
  | get
  | fNop
  | firUpdate (fsample : Nat)
  | firInit (klenI : Nat) (taps : List F32)
  | sNop
  | tick
  | adcDone (adcData : Nat)
  | adcDoneTick (adcData : Nat)
  | rsync
  | wsync
  deriving DecidableEq, Repr

end Sys2Proof
end

