-- ==== Sys2Proof/WellFormed.lean ====
section
/-!
DEFINITION. When an operation's operands fit their fields (30_encoding.md R82, R92).
-/

namespace Sys2Proof

/-- `x` fits a field of `w` bits. -/
def fits (w x : Nat) : Bool := decide (x < 2 ^ w)

/-- Every operand fits its field, and `coef_i` carries exactly `L_MAX` words (R82). -/
def Instr.wf (p : Params) : Instr → Bool
  | .sysNop => true
  | .rst => true
  | .fifoInit => true
  | .wNop => true
  | .put wdata => fits p.dataW wdata
  | .rNop => true
  | .get => true
  | .fNop => true
  | .firUpdate fsample => fits p.dataW fsample
  | .firInit klenI taps => fits p.klw klenI && decide (taps.length = p.lMax)
  | .sNop => true
  | .tick => true
  | .adcDone adcData => fits p.dataW adcData
  | .adcDoneTick adcData => fits p.dataW adcData
  | .rsync => true
  | .wsync => true

end Sys2Proof
end

