-- ==== Sys2Proof/Decode.lean ====
section
/-!
DEFINITION. From what stands on the ports to an operation, and back: the operation map of 30_encoding.md R83, the
decoder, the encoder, the program lines of R91 to R97, and the one-number form of a port group's inputs that
`decodeTableWord` reads (log entry 2).
-/

namespace Sys2Proof

/-! ## The operation map -/

/-- The five port groups (R80). -/
inductive Group where
  | sys
  | wport
  | rport
  | fport
  | sport
  deriving DecidableEq, Repr

/-- A row of R83. A one-bit vector stands zero-extended in two bits. -/
structure Row where
  group : Group
  pattern : BitVec 2
  mask : BitVec 2
  deriving DecidableEq, Repr

/-- `(v & mask) == match` (R83). -/
def Row.selects (r : Row) (v : BitVec 2) : Bool := v &&& r.mask == r.pattern

def rowSysNop : Row := ⟨.sys, 0b00, 0b11⟩
def rowRst : Row := ⟨.sys, 0b01, 0b01⟩
def rowFifoInit : Row := ⟨.sys, 0b10, 0b11⟩
def rowWNop : Row := ⟨.wport, 0b0, 0b1⟩
def rowPut : Row := ⟨.wport, 0b1, 0b1⟩
def rowRNop : Row := ⟨.rport, 0b0, 0b1⟩
def rowGet : Row := ⟨.rport, 0b1, 0b1⟩
def rowFNop : Row := ⟨.fport, 0b00, 0b11⟩
def rowFirUpdate : Row := ⟨.fport, 0b01, 0b11⟩
def rowFirInit : Row := ⟨.fport, 0b10, 0b10⟩
def rowSNop : Row := ⟨.sport, 0b00, 0b11⟩
def rowTick : Row := ⟨.sport, 0b01, 0b11⟩
def rowAdcDone : Row := ⟨.sport, 0b10, 0b11⟩
def rowAdcDoneTick : Row := ⟨.sport, 0b11, 0b11⟩

/-- The map of R83, row by row. -/
def opcodeRows : List Row :=
  [rowSysNop, rowRst, rowFifoInit, rowWNop, rowPut, rowRNop, rowGet, rowFNop, rowFirUpdate, rowFirInit, rowSNop,
    rowTick, rowAdcDone, rowAdcDoneTick]

/-- The row of an operation; the two internal steps have none (R85). -/
def Instr.row : Instr → Option Row
  | .sysNop => some rowSysNop
  | .rst => some rowRst
  | .fifoInit => some rowFifoInit
  | .wNop => some rowWNop
  | .put _ => some rowPut
  | .rNop => some rowRNop
  | .get => some rowGet
  | .fNop => some rowFNop
  | .firUpdate _ => some rowFirUpdate
  | .firInit _ _ => some rowFirInit
  | .sNop => some rowSNop
  | .tick => some rowTick
  | .adcDone _ => some rowAdcDone
  | .adcDoneTick _ => some rowAdcDoneTick
  | .rsync => none
  | .wsync => none

/-! ## Decoder and encoder -/

/-- What one port group presents at one sampling edge (R80), or an edge of a synchroniser's clock (R85). `SYS` is a
level: its stimulus is a change of what stands on the port, which stays until the next one (R80, R81).
Operands are the integers written for them; `coef` is the whole `coef_i` bus. -/
inductive Stimulus where
  | sys (v : BitVec 2)
  | wport (v : BitVec 1) (wdata : Nat)
  | rport (v : BitVec 1)
  | fport (v : BitVec 2) (klenI coef fsample : Nat)
  | sport (v : BitVec 2) (adcData : Nat)
  | rsyncEdge
  | wsyncEdge
  deriving DecidableEq, Repr

/-- The port group a stimulus arrives on and its control vector (R80); an edge of a synchroniser's clock has none
(R85). -/
def Stimulus.vector : Stimulus → Option (Group × BitVec 2)
  | .sys v => some (.sys, v)
  | .wport v _ => some (.wport, v.setWidth 2)
  | .rport v => some (.rport, v.setWidth 2)
  | .fport v _ _ _ => some (.fport, v)
  | .sport v _ => some (.sport, v)
  | .rsyncEdge => none
  | .wsyncEdge => none

/-- What stands on `SYS` after a stimulus, from what stood there before: only a `SYS` stimulus changes it (R80, R81). -/
def Stimulus.sysAfter : Stimulus → BitVec 2 → BitVec 2
  | .sys v, _ => v
  | .wport _ _, lvl => lvl
  | .rport _, lvl => lvl
  | .fport _ _ _ _, lvl => lvl
  | .sport _ _, lvl => lvl
  | .rsyncEdge, lvl => lvl
  | .wsyncEdge, lvl => lvl

/-- The operand fields of R80. -/
inductive Field where
  | wdata
  | klenI
  | coefI
  | fsample
  | adcData
  deriving DecidableEq, Repr

/-- What the decoder reads: an operation, or the field whose operand does not fit it (`REFUSE_OPERAND_RANGE`). -/
inductive Decoded where
  | ok (i : Instr)
  | reject (f : Field)
  deriving DecidableEq, Repr

/-- The words of `coef_i`, word `i` at bits `[32*i+31 : 32*i]` (R63, R82). -/
def unpackTaps : Nat → Nat → List F32
  | 0, _ => []
  | k + 1, bus => BitVec.ofNat 32 bus :: unpackTaps k (bus / 2 ^ 32)

/-- The `coef_i` bus that carries the given words, tap 0 in the least significant 32 bits (R63). -/
def packTaps : List F32 → Nat
  | [] => 0
  | t :: ts => t.toNat + 2 ^ 32 * packTaps ts

/-- The operation, provided the operand it uses fits. -/
def checked (w x : Nat) (f : Field) (i : Instr) : Decoded :=
  if fits w x then .ok i else .reject f

/-- The decoder: R83 for the row, R92 for the range of the operands the row uses (an unused operand is ignored,
R82). -/
def decode (p : Params) : Stimulus → Decoded
  | .sys v =>
    if rowRst.selects v then .ok .rst
    else if rowFifoInit.selects v then .ok .fifoInit
    else .ok .sysNop
  | .wport v wdata =>
    if rowPut.selects (v.setWidth 2) then checked p.dataW wdata .wdata (.put wdata)
    else .ok .wNop
  | .rport v =>
    if rowGet.selects (v.setWidth 2) then .ok .get
    else .ok .rNop
  | .fport v klenI coef fsample =>
    if rowFirInit.selects v then
      if fits p.klw klenI then checked (32 * p.lMax) coef .coefI (.firInit klenI (unpackTaps p.lMax coef))
      else .reject .klenI
    else if rowFirUpdate.selects v then checked p.dataW fsample .fsample (.firUpdate fsample)
    else .ok .fNop
  | .sport v adcData =>
    if rowAdcDoneTick.selects v then checked p.dataW adcData .adcData (.adcDoneTick adcData)
    else if rowAdcDone.selects v then checked p.dataW adcData .adcData (.adcDone adcData)
    else if rowTick.selects v then .ok .tick
    else .ok .sNop
  | .rsyncEdge => .ok .rsync
  | .wsyncEdge => .ok .wsync

/-- The encoder: the vector of R92 and the operand on its port; a `x` bit of a pattern is 0, an unused operand 0. -/
def encode : Instr → Stimulus
  | .sysNop => .sys 0b00
  | .rst => .sys 0b01
  | .fifoInit => .sys 0b10
  | .wNop => .wport 0b0 0
  | .put wdata => .wport 0b1 wdata
  | .rNop => .rport 0b0
  | .get => .rport 0b1
  | .fNop => .fport 0b00 0 0 0
  | .firUpdate fsample => .fport 0b01 0 0 fsample
  | .firInit klenI taps => .fport 0b10 klenI (packTaps taps) 0
  | .sNop => .sport 0b00 0
  | .tick => .sport 0b01 0
  | .adcDone adcData => .sport 0b10 adcData
  | .adcDoneTick adcData => .sport 0b11 adcData
  | .rsync => .rsyncEdge
  | .wsync => .wsyncEdge

/-! ## Program lines -/

/-- A line that is one step: a stimulus; the consumer's use of `rdata` as FIR_UPDATE's sample (R97, R203); the GET
of `R.DRAIN`, after whose SUCCESS that use follows (R97). -/
inductive BasicLine where
  | stimulus (st : Stimulus)
  | feedRdata
  | drain
  deriving DecidableEq, Repr

/-- A program line (R91), with the pseudo-operations of R94 to R96. A `SYS.RST` or `SYS.FIFO_INIT` line of R92 is
`sysPulse`: the vector is asserted and released before the next line runs (DESIGN CHOICE, log entry 11). -/
inductive Line where
  | basic (b : BasicLine)
  | sysPulse (v : BitVec 2)
  | settleW
  | settleR
  | settle
  | acquire (v : Nat)
  deriving DecidableEq, Repr

/-- The line that presents one stimulus. A `SYS` vector presented so stays on the port. -/
def Line.present (st : Stimulus) : Line := .basic (.stimulus st)

/-- The line that presents one stimulus and leaves nothing asserted on `SYS`. -/
def Line.pulse : Stimulus → Line
  | .sys v => .sysPulse v
  | .wport v wdata => .present (.wport v wdata)
  | .rport v => .present (.rport v)
  | .fport v klenI coef fsample => .present (.fport v klenI coef fsample)
  | .sport v adcData => .present (.sport v adcData)
  | .rsyncEdge => .present .rsyncEdge
  | .wsyncEdge => .present .wsyncEdge

/-- The first step a line stands for and the lines that follow it (R94, R95, R96). DESIGN CHOICE: `S.ACQUIRE v` is
expanded before its operand is looked at, so with `v >= 2^DATA_W` the TICK runs and only the ADC_DONE line is refused;
R96, R92 and R204 do not say whether the line is refused whole (log entry 21). -/
def Line.expand : Line → BasicLine × List Line
  | .basic b => (b, [])
  | .sysPulse v => (.stimulus (.sys v), [Line.present (.sys 0b00)])
  | .settleW => (.stimulus .wsyncEdge, [Line.present .wsyncEdge])
  | .settleR => (.stimulus .rsyncEdge, [Line.present .rsyncEdge])
  | .settle => (.stimulus .wsyncEdge, [Line.present .wsyncEdge, .settleR])
  | .acquire v => (.stimulus (.sport 0b01 0), [Line.present (.sport 0b10 v)])

/-- The line of an operation in the syntax of R92. The words of `coef_i` that a FIR_INIT line does not list are
`0x00000000`. -/
def Line.ofInstr (i : Instr) : Line := Line.pulse (encode i)

/-! ## A port group's inputs as one number -/

/-- What a number stands for: bits 1 to 0 the control vector as R80 numbers it, bits 4 to 2 the port group
(0 SPORT, 1 SYS, 2 WPORT, 3 RPORT, 4 FPORT, 5 a synchroniser edge), bits 7 to 5 zero, operands from bit 8
(`fsample`, `klen_i` in 32 bits each, then `coef_i`). The layout is the model's: the opcode table numbers the
vector's bits only, and the same vector stands in several groups (DESIGN CHOICE, log entry 2). -/
def stimulusOfWord (nbits word : Nat) : Option Stimulus :=
  let w := word % 2 ^ nbits
  let v := BitVec.ofNat 2 w
  let one := BitVec.ofNat 1 w
  let operand := w / 2 ^ 8
  match w / 2 ^ 2 % 2 ^ 6 with
  | 0 => some (.sport v operand)
  | 1 => some (.sys v)
  | 2 => if w % 4 < 2 then some (.wport one operand) else none
  | 3 => if w % 4 < 2 then some (.rport one) else none
  | 4 => some (.fport v (operand / 2 ^ 32 % 2 ^ 32) (operand / 2 ^ 64) (operand % 2 ^ 32))
  | 5 => if w % 4 = 0 then some .rsyncEdge else if w % 4 = 1 then some .wsyncEdge else none
  | _ => none

/-- The number of a stimulus, in the layout of `stimulusOfWord`. -/
def wordOfStimulus : Stimulus → Nat
  | .sport v adcData => v.toNat + 2 ^ 8 * adcData
  | .sys v => v.toNat + 2 ^ 2 * 1
  | .wport v wdata => v.toNat + 2 ^ 2 * 2 + 2 ^ 8 * wdata
  | .rport v => v.toNat + 2 ^ 2 * 3
  | .fport v klenI coef fsample =>
    v.toNat + 2 ^ 2 * 4 + 2 ^ 8 * (fsample % 2 ^ 32 + 2 ^ 32 * (klenI % 2 ^ 32) + 2 ^ 64 * coef)
  | .rsyncEdge => 2 ^ 2 * 5
  | .wsyncEdge => 1 + 2 ^ 2 * 5

/-- The operation the decoder reads from a word of the opcode table, at the reference parameters. -/
def decodeTableWord (nbits w : Nat) : Option Instr :=
  match stimulusOfWord nbits w with
  | none => none
  | some st =>
    match decode Config.reference st with
    | .ok i => some i
    | .reject _ => none

end Sys2Proof
end

