-- ==== Sys2Proof/Machine/State.lean ====
section
/-!
DEFINITION. The machine's state as plain data: every element of 10_state.md, the model-only state of R44, and the
fields the model needs of its own (schedule, names of refusals, counter of NaN draws). The state after reset.
-/

namespace Sys2Proof.Machine

/-- The 2-bit status codes of R86. -/
inductive Status where
  | success
  | overflow
  | underflow
  | allocError
  deriving DecidableEq, Repr

/-- The scheduler's state (R40). -/
inductive SchedState where
  | idle
  | conv
  deriving DecidableEq, Repr

/-- The agents of R210. -/
inductive Agent where
  | host
  | producer
  | consumer
  | timer
  | adc
  | rsync
  | wsync
  deriving DecidableEq, Repr

/-- The model faults of R202. They are recorded in the state, and the run goes on (R11, program P4). -/
inductive ModelFault where
  | firUnbound
  | readUnspec
  deriving DecidableEq, Repr

/-- The set `faults` of R44 (a). -/
structure FaultSet where
  firUnbound : Bool
  readUnspec : Bool
  deriving DecidableEq, Repr

/-- The refusals of R204. They set the mark `refused` and change nothing else. -/
inductive RefusalName where
  | nonfiniteTap
  | secondProducer
  | operandRange
  | config
  deriving DecidableEq, Repr

/-- Which refusals have set the mark `refused` (the model's own record; log entry 7). -/
structure RefusalSet where
  nonfiniteTap : Bool
  secondProducer : Bool
  operandRange : Bool
  config : Bool
  deriving DecidableEq, Repr

/-- An entry of the event history (R44 (c), R46): the output pulses with their arguments, the dropped timer event
(R172), and the result of a FIR_INIT, which has no pulse (log entry 9). `w` is the sample width. -/
inductive Event (w : Nat) where
  | wstValid (st : Status)
  | gstValid (st : Status) (rdata : Option (BitVec w))
  | firInitResult (st : Status)
  | yValid (acc : F32)
  | adcStart
  | tickDropped
  deriving DecidableEq, Repr

/-- How many operations each agent has presented: its place in its sequence (R21, R210). -/
structure AgentIndex where
  host : Nat
  producer : Nat
  consumer : Nat
  timer : Nat
  adc : Nat
  rsync : Nat
  wsync : Nat
  deriving DecidableEq, Repr

/-- The async_fifo (R22 to R31). -/
structure Fifo (p : Params) where
  mem : Memory p.dataW
  wbin : BitVec p.addrW
  wgray : BitVec p.addrW
  wq1Rgray : BitVec p.addrW
  wq2Rgray : BitVec p.addrW
  wstQ : Status
  rbin : BitVec p.addrW
  rgray : BitVec p.addrW
  rq1Wgray : BitVec p.addrW
  rq2Wgray : BitVec p.addrW
  rdataQ : Elem (BitVec p.dataW)
  gstQ : Status
  deriving DecidableEq, Repr

/-- The fir_filter_engine (R33 to R39). -/
structure Fir (p : Params) where
  bound : Bool
  klen : BitVec p.klw
  coef : Memory 32
  hist : Memory 32
  wcur : BitVec p.klw
  y : Elem F32
  fstQ : Status
  deriving DecidableEq, Repr

/-- The sample_scheduler_interface (R40 to R42). -/
structure Sched where
  sstate : SchedState
  overrun : Bool
  protoErr : Bool
  deriving DecidableEq, Repr

/-- The model-only state: `faults`, `refused`, `events` of R44 and the index of R21; what stands on the `SYS` input,
which holds the block while it is not `00` (R80, R81; log entry 11); and the model's own fields `refusals` (log
entry 7), `nanDraws` (log entry 8) and `schedule` (log entry 1). -/
structure ModelOnly (p : Params) where
  faults : FaultSet
  refused : Bool
  refusals : RefusalSet
  events : List (Event p.dataW)
  index : AgentIndex
  nanDraws : Nat
  schedule : List Line
  sysLevel : BitVec 2
  deriving DecidableEq, Repr

/-- The three blocks and the model-only state, at given parameters. -/
structure Hw (p : Params) where
  fifo : Fifo p
  fir : Fir p
  sched : Sched
  model : ModelOnly p
  deriving DecidableEq, Repr

/-- The machine: its parameters, which no step changes, and what it holds. -/
structure State where
  params : Params
  hw : Hw params
  deriving DecidableEq, Repr

/-- Why a step can stop. Both are raised by FIR_UPDATE only, in states no run from RST reaches; both are safe. -/
inductive Fault where
  /-- Raised by FIR_UPDATE while a kernel of length 0 is bound: "`mod 0` is undefined" (92_eei_decisions.md D16). Safe. -/
  | firModulusZero
  /-- Raised by FIR_UPDATE when an index would fall outside `coef` or `hist`, which R62 excludes. Safe. -/
  | firIndexRange
  deriving DecidableEq, Repr

/-- Why a step can be refused by the model's interface. -/
inductive Refusal where
  /-- Raised by an arm of `exec` whose operation has no meaning yet; no arm is in that case. Safe. -/
  | notModelled (mnemonic : String)
  deriving DecidableEq, Repr

/-! ## The state after reset (R47) -/

/-- FIFO state that RST produces from power-on (R22 to R31, R47). -/
def Fifo.reset (p : Params) : Fifo p :=
  { mem := [], wbin := 0, wgray := 0, wq1Rgray := 0, wq2Rgray := 0, wstQ := .success,
    rbin := 0, rgray := 0, rq1Wgray := 0, rq2Wgray := 0, rdataQ := .unspec, gstQ := .success }

/-- FIR state that RST produces from power-on (R33 to R39, R47). -/
def Fir.reset (p : Params) : Fir p :=
  { bound := false, klen := 0, coef := [], hist := [], wcur := 0, y := .unspec, fstQ := .success }

/-- Scheduler state after RST (R40 to R42). -/
def Sched.reset : Sched := { sstate := .idle, overrun := false, protoErr := false }

/-- Model-only state at the start of a run (R44); the model's own fields at the values of log entries 1, 7, 8, 10, 11. -/
def ModelOnly.reset (p : Params) : ModelOnly p :=
  { faults := { firUnbound := false, readUnspec := false }, refused := false,
    refusals := { nonfiniteTap := false, secondProducer := false, operandRange := false, config := false },
    events := [],
    index := { host := 0, producer := 0, consumer := 0, timer := 0, adc := 0, rsync := 0, wsync := 0 },
    nanDraws := 0, schedule := [], sysLevel := 0#2 }

/-- What the hardware holds after RST at power-on, at given parameters (R231). -/
def Hw.reset (p : Params) : Hw p :=
  { fifo := Fifo.reset p, fir := Fir.reset p, sched := Sched.reset, model := ModelOnly.reset p }

/-- The machine right after reset, at the reference parameters (log entry 3). -/
def State.reset : State := { params := Config.reference, hw := Hw.reset Config.reference }

end Sys2Proof.Machine
end

