-- ==== Sys2Proof/Machine/Gray.lean ====
section
/-!
DEFINITION. The pointer functions of 40_async_fifo.md: R100 to R102, and the forward distance `d(a, b)` of its
section 3.
-/

namespace Sys2Proof.Machine

/-- `gray(b) = b ^ (b >> 1)` (R100). -/
def gray {w : Nat} (b : BitVec w) : BitVec w := b ^^^ (b >>> 1)

/-- Exclusive or of the right shifts of `g` by 0 to `k - 1`. -/
def xorShifts {w : Nat} (g : BitVec w) : Nat → BitVec w
  | 0 => 0
  | k + 1 => xorShifts g k ^^^ (g >>> k)

/-- `bin(g)` (R101): bit `i` is the exclusive or of bits `i` to `w - 1` of `g`, which is what unfolding
`b[i] = b[i+1] ^ g[i]` from the top bit gives. -/
def bin {w : Nat} (g : BitVec w) : BitVec w := xorShifts g w

/-- `inc(b) = (b + 1) mod N` (R102). -/
def inc {w : Nat} (b : BitVec w) : BitVec w := b + 1

/-- `d(a, b) = (b - a) mod N`, the distance from `a` forward to `b`. -/
def ptrDist {w : Nat} (a b : BitVec w) : Nat := (b - a).toNat

end Sys2Proof.Machine
end

