-- ==== Sys2Proof/Machine/Flags.lean ====
section
/-!
DEFINITION. Derived flags and output ports: functions of the state, not state (10_state.md R32, R43, R45).
-/

namespace Sys2Proof.Machine

/-- The code of a status on its port (R86). -/
def Status.code : Status → BitVec 2
  | .success => 0b00
  | .overflow => 0b01
  | .underflow => 0b10
  | .allocError => 0b11

/-- `wfull = (gray(inc(wbin)) == wq2_rgray)` (R104). -/
def Fifo.wfull {p : Params} (f : Fifo p) : Bool := gray (inc f.wbin) == f.wq2Rgray

/-- `rempty = (rgray == rq2_wgray)` (R105). -/
def Fifo.rempty {p : Params} (f : Fifo p) : Bool := f.rgray == f.rq2Wgray

/-- The level outputs of R45. Pulse outputs are events (R46). -/
structure Outputs (p : Params) where
  wfull : Bool
  wst : BitVec 2
  rdata : Elem (BitVec p.dataW)
  rempty : Bool
  gst : BitVec 2
  fReady : Bool
  y : Elem F32
  fst : BitVec 2
  fBound : Bool
  sBusy : Bool
  sOverrun : Bool
  sProtoErr : Bool
  deriving DecidableEq, Repr

/-- What the output ports show; `f_ready` is 1 at every edge at transaction level (R89). -/
def Hw.outputs {p : Params} (h : Hw p) : Outputs p :=
  { wfull := h.fifo.wfull, wst := h.fifo.wstQ.code, rdata := h.fifo.rdataQ, rempty := h.fifo.rempty,
    gst := h.fifo.gstQ.code, fReady := true, y := h.fir.y, fst := h.fir.fstQ.code, fBound := h.fir.bound,
    sBusy := decide (h.sched.sstate = .conv), sOverrun := h.sched.overrun, sProtoErr := h.sched.protoErr }

end Sys2Proof.Machine
end

