-- ==== Sys2Proof/Machine/Binary32.lean ====
section
/-!
DEFINITION. Binary32 arithmetic of 41_fir_filter_engine.md (R140 to R143, R150), computed exactly on integers and
rounded once. A finite word's magnitude is a whole number of units of `2^-149` (log entry 17).
-/

namespace Sys2Proof.Machine

/-- Sign bit, set for a negative word (R140). -/
def fSign (w : F32) : Bool := w.msb

/-- Biased exponent, bits 30 to 23 (R140). -/
def fExp (w : F32) : Nat := w.toNat / 2 ^ 23 % 2 ^ 8

/-- Fraction, bits 22 to 0 (R140). -/
def fFrac (w : F32) : Nat := w.toNat % 2 ^ 23

/-- NaN: exponent 255, fraction not 0 (R140). -/
def fIsNan (w : F32) : Bool := fExp w == 255 && fFrac w != 0

/-- Infinity: exponent 255, fraction 0 (R140). -/
def fIsInf (w : F32) : Bool := fExp w == 255 && fFrac w == 0

/-- Neither an infinity nor a NaN. -/
def fIsFinite (w : F32) : Bool := fExp w != 255

/-- Significand of a finite word: the fraction, with the hidden bit of a normal word (R140). -/
def fSig (w : F32) : Nat := if fExp w = 0 then fFrac w else 2 ^ 23 + fFrac w

/-- Exponent of a finite word counted from the subnormal exponent: its magnitude is
`fSig w * 2^(fScale w) * 2^-149` (R140). -/
def fScale (w : F32) : Nat := fExp w - 1

/-- Magnitude of a finite word in units of `2^-149`. -/
def fMag (w : F32) : Nat := fSig w * 2 ^ fScale w

/-- Value of a finite word in units of `2^-149`. -/
def fUnits (w : F32) : Int := if fSign w then -(fMag w : Int) else (fMag w : Int)

/-- A word from its sign and its low 31 bits. -/
def signWord (neg : Bool) (low : Nat) : F32 := BitVec.ofNat 32 ((if neg then 2 ^ 31 else 0) + low)

/-- The quiet NaN with the given sign (bit 22) and payload (bits 21 to 0) (R140, R150). -/
def quietNan (free : BitVec 23) : F32 := (free.extractLsb 22 22 ++ (0x1FF#9) ++ free.extractLsb 21 0 : BitVec 32)

/-- `m / 2^s` rounded to the nearest integer, ties to even. -/
def roundShift (m s : Nat) : Nat :=
  if m % 2 ^ s * 2 > 2 ^ s ∨ (m % 2 ^ s * 2 = 2 ^ s ∧ m / 2 ^ s % 2 = 1) then m / 2 ^ s + 1 else m / 2 ^ s

/-- How many low bits of `m`, in units of `2^-(149+d)`, lie below the last place of its binary32 rounding: 24
significant bits are kept, and none below `2^-149`. -/
def dropBits (m d : Nat) : Nat := max d (Nat.log2 m + 1 - 24)

/-- The word for `m * 2^-(149+d)` with the given sign, rounded once to nearest, ties to even: gradual underflow, and
an infinity when the rounded magnitude exceeds the largest finite value (R142, R143). -/
def roundPack (neg : Bool) (m d : Nat) : F32 :=
  signWord neg (min ((dropBits m d - d) * 2 ^ 23 + roundShift m (dropBits m d)) 0x7F800000)

/-- `u2f(x)`: the word whose value is the unsigned integer `x` (R141). -/
def u2f {w : Nat} (x : BitVec w) : F32 := roundPack false (x.toNat * 2 ^ 149) 0

/-- `fmul32(a, b)` (R142); `free` is the sign and payload of a NaN result. -/
def fmul32 (free : BitVec 23) (a b : F32) : F32 :=
  if fIsNan a || fIsNan b then quietNan free
  else if fIsInf a || fIsInf b then
    if (fIsFinite a && fMag a == 0) || (fIsFinite b && fMag b == 0) then quietNan free
    else signWord (fSign a ^^ fSign b) 0x7F800000
  else roundPack (fSign a ^^ fSign b) (fMag a * fMag b) 149

/-- `fadd32(a, b)` (R143); `free` is the sign and payload of a NaN result. -/
def fadd32 (free : BitVec 23) (a b : F32) : F32 :=
  if fIsNan a || fIsNan b then quietNan free
  else if fIsInf a then
    if fIsInf b && (fSign a != fSign b) then quietNan free else a
  else if fIsInf b then b
  else if fUnits a + fUnits b = 0 then signWord (fSign a && fSign b) 0
  else roundPack (decide (fUnits a + fUnits b < 0)) (fUnits a + fUnits b).natAbs 0

end Sys2Proof.Machine
end

