-- ==== Sys2Proof/Machine/Operands.lean ====
section
/-!
DEFINITION. Operands as they stand on the ports (30_encoding.md R82): samples, kernel length, taps.
-/

namespace Sys2Proof.Machine

/-- A sample operand on its `DATA_W` wires (R82; log entry 15). -/
def sampleIn (p : Params) (x : Nat) : BitVec p.dataW := BitVec.ofNat p.dataW x

/-- The kernel length operand on its `KLW` wires (R82; log entry 15). -/
def klenIn (p : Params) (x : Nat) : BitVec p.klw := BitVec.ofNat p.klw x

/-- `klen_i == 0 or klen_i > L_MAX` (R144). -/
def badLength (p : Params) (klenI : BitVec p.klw) : Bool :=
  decide (klenI.toNat = 0) || decide (p.lMax < klenI.toNat)

/-- Words `0 .. klen_i - 1` of `coef_i` (R82). -/
def boundTaps (k : Nat) (taps : List F32) : List F32 := taps.take k

/-- Some tap is an infinity or a NaN (R144). -/
def anyNonfinite (taps : List F32) : Bool := taps.any fun t => !fIsFinite t

end Sys2Proof.Machine
end

