-- ==== Sys2Proof/Machine/Ops.lean ====
section
/-!
DEFINITION. Named operations over the storage arrays and the blocks, shared by the operations' meanings.
The hardware has no trap entry and no return (60_exceptions.md R207, R208); what stands in their place, recording a
model fault and marking a refusal, is `Hw.recordFault` and `Hw.refuse`.
-/

namespace Sys2Proof.Machine

/-! ## Storage arrays (R60) -/

/-- `MemRead(i)`: what slot `i` holds; a slot not listed holds `UNSPEC`. -/
def Memory.read {w : Nat} : Memory w → Nat → Elem (BitVec w)
  | [], _ => .unspec
  | (j, v) :: rest, i => if i = j then .val v else Memory.read rest i

/-- `MemWrite(i, v)`, keeping the slots in rising order. -/
def Memory.write {w : Nat} : Memory w → Nat → BitVec w → Memory w
  | [], i, v => [(i, v)]
  | (j, u) :: rest, i, v =>
    if i < j then (i, v) :: (j, u) :: rest
    else if i = j then (i, v) :: rest
    else (j, u) :: Memory.write rest i v

/-- Slots `i`, `i + 1`, … written with the listed values. -/
def Memory.writeFrom {w : Nat} : Memory w → Nat → List (BitVec w) → Memory w
  | m, _, [] => m
  | m, i, v :: vs => Memory.writeFrom (Memory.write m i v) (i + 1) vs

/-- Every listed slot number is at least `lo`, rises strictly, and is below `size`. -/
def Memory.wfFrom {w : Nat} (size : Nat) : Nat → Memory w → Bool
  | _, [] => true
  | lo, (j, _) :: rest => decide (lo ≤ j) && decide (j < size) && Memory.wfFrom size (j + 1) rest

/-- The canonical form of an array of `size` slots: listed slots rise strictly and exist. -/
def Memory.wf {w : Nat} (size : Nat) (m : Memory w) : Bool := Memory.wfFrom size 0 m

/-! ## Model-only state (R44) -/

def FaultSet.insert (fs : FaultSet) : ModelFault → FaultSet
  | .firUnbound => { fs with firUnbound := true }
  | .readUnspec => { fs with readUnspec := true }

def RefusalSet.insert (rs : RefusalSet) : RefusalName → RefusalSet
  | .nonfiniteTap => { rs with nonfiniteTap := true }
  | .secondProducer => { rs with secondProducer := true }
  | .operandRange => { rs with operandRange := true }
  | .config => { rs with config := true }

/-- Some refusal has been recorded. -/
def RefusalSet.any (rs : RefusalSet) : Bool :=
  rs.nonfiniteTap || rs.secondProducer || rs.operandRange || rs.config

/-- `fault <name>`: the name enters `faults`, and the step makes no other change (R11, R202). -/
def Hw.recordFault {p : Params} (h : Hw p) (f : ModelFault) : Hw p :=
  { h with model := { h.model with faults := h.model.faults.insert f } }

/-- `refuse <name>`: the mark `refused` is set, and nothing else changes (R204), but for the model's own record of
the name (log entry 7). -/
def Hw.refuse {p : Params} (h : Hw p) (r : RefusalName) : Hw p :=
  { h with model := { h.model with refused := true, refusals := h.model.refusals.insert r } }

/-- `event <name>(args)`: the event joins the end of the history (R11, R44). -/
def Hw.emit {p : Params} (h : Hw p) (e : Event p.dataW) : Hw p :=
  { h with model := { h.model with events := h.model.events ++ [e] } }

/-! ## async_fifo (R106 to R110) -/

/-- FIFO_INIT's writes (R106). -/
def Fifo.init {p : Params} (f : Fifo p) : Fifo p :=
  { f with
    wbin := 0, wgray := 0, wq1Rgray := 0, wq2Rgray := 0, wstQ := .success
    rbin := 0, rgray := 0, rq1Wgray := 0, rq2Wgray := 0, gstQ := .success }

/-- PUT (R107), also the PUT that ADC_DONE issues (R173). -/
def Hw.put {p : Params} (h : Hw p) (wdata : BitVec p.dataW) : Hw p :=
  if h.fifo.wfull then
    { h with fifo := { h.fifo with wstQ := .overflow } }.emit (.wstValid .overflow)
  else
    { h with fifo := { h.fifo with
        mem := Memory.write h.fifo.mem h.fifo.wbin.toNat wdata
        wbin := inc h.fifo.wbin
        wgray := gray (inc h.fifo.wbin)
        wstQ := .success } }.emit (.wstValid .success)

/-- GET (R108); a slot that is `UNSPEC` records `F_READ_UNSPEC` and nothing else changes (R60, R203). -/
def Hw.get {p : Params} (h : Hw p) : Hw p :=
  if h.fifo.rempty then
    { h with fifo := { h.fifo with gstQ := .underflow } }.emit (.gstValid .underflow none)
  else
    match Memory.read h.fifo.mem h.fifo.rbin.toNat with
    | .unspec => h.recordFault .readUnspec
    | .val d =>
      { h with fifo := { h.fifo with
          rdataQ := .val d
          rbin := inc h.fifo.rbin
          rgray := gray (inc h.fifo.rbin)
          gstQ := .success } }.emit (.gstValid .success (some d))

/-- Whether GET returns SUCCESS from here (R108). -/
def Hw.getSucceeds {p : Params} (h : Hw p) : Bool :=
  !h.fifo.rempty && decide (Memory.read h.fifo.mem h.fifo.rbin.toNat ≠ .unspec)

/-- RSYNC's writes (R109). -/
def Fifo.rsync {p : Params} (f : Fifo p) : Fifo p :=
  { f with wq2Rgray := f.wq1Rgray, wq1Rgray := f.rgray }

/-- WSYNC's writes (R110). -/
def Fifo.wsync {p : Params} (f : Fifo p) : Fifo p :=
  { f with rq2Wgray := f.rq1Wgray, rq1Wgray := f.wgray }

/-! ## fir_filter_engine (R144, R145) -/

/-- Taps paired with the history words they multiply, tap 0 first: tap `i` with slot `(cur - i) mod klen` (R145).
`UNSPEC` when a slot read holds it. -/
def firPairs (coef hist : Memory 32) (klen cur : Nat) : List Nat → Elem (List (F32 × F32))
  | [] => .val []
  | i :: is =>
    match Memory.read coef i, Memory.read hist ((cur + klen - i) % klen), firPairs coef hist klen cur is with
    | .val c, .val x, .val rest => .val ((c, x) :: rest)
    | _, _, _ => .unspec

/-- `acc = fadd32(acc, fmul32(coef, hist))` over the pairs in order, each operation with a fresh draw for a NaN
(R145, R150). -/
def macLoop : List (F32 × F32) → F32 → Nat → F32
  | [], acc, _ => acc
  | (c, x) :: rest, acc, draw =>
    macLoop rest (fadd32 (Config.freeNan (draw + 1)) acc (fmul32 (Config.freeNan draw) c x)) (draw + 2)

/-- FIR_INIT with a legal length and finite taps (R144). -/
def Fir.bind {p : Params} (f : Fir p) (klenI : BitVec p.klw) (taps : List F32) : Fir p :=
  { f with
    klen := klenI
    coef := Memory.writeFrom f.coef 0 (boundTaps klenI.toNat taps)
    hist := Memory.writeFrom f.hist 0 (List.replicate klenI.toNat 0)
    wcur := 0
    y := .val 0
    bound := true
    fstQ := .success }

/-- FIR_INIT (R144): the length check comes before the tap check (R206). -/
def Hw.firInit {p : Params} (h : Hw p) (klenI : BitVec p.klw) (taps : List F32) : Hw p :=
  if badLength p klenI then
    { h with fir := { h.fir with bound := false, fstQ := .allocError } }.emit (.firInitResult .allocError)
  else if anyNonfinite (boundTaps klenI.toNat taps) then
    h.refuse .nonfiniteTap
  else
    { h with fir := h.fir.bind klenI taps }.emit (.firInitResult .success)

/-- The history after FIR_UPDATE's write (R145). -/
def Fir.histAfter {p : Params} (f : Fir p) (x : F32) : Memory 32 := Memory.write f.hist f.wcur.toNat x

/-- What FIR_UPDATE multiplies and adds, from the history after its write (R145). -/
def Fir.pairsAfter {p : Params} (f : Fir p) (x : F32) : Elem (List (F32 × F32)) :=
  firPairs f.coef (f.histAfter x) f.klen.toNat f.wcur.toNat (List.range f.klen.toNat)

/-- FIR_UPDATE's writes with the sum `acc` (R145). -/
def Fir.advance {p : Params} (f : Fir p) (x acc : F32) : Fir p :=
  { f with
    hist := f.histAfter x
    wcur := BitVec.ofNat p.klw ((f.wcur.toNat + 1) % f.klen.toNat)
    y := .val acc }

/-- FIR_UPDATE (R145). While no kernel is bound `F_FIR_UNBOUND` is recorded; a slot read that is `UNSPEC` records
`F_READ_UNSPEC` (R203); the two faults are of states no run reaches (log entry 12). -/
def Hw.firUpdate {p : Params} (h : Hw p) (fsample : BitVec p.dataW) : Except Fault (Hw p) :=
  if h.fir.bound = false then .ok (h.recordFault .firUnbound)
  else if h.fir.klen.toNat = 0 then .error .firModulusZero
  else if p.lMax < h.fir.klen.toNat ∨ p.lMax ≤ h.fir.wcur.toNat then .error .firIndexRange
  else
    match h.fir.pairsAfter (u2f fsample) with
    | .unspec => .ok (h.recordFault .readUnspec)
    | .val pairs =>
      let acc := macLoop pairs 0 h.model.nanDraws
      .ok ({ h with
        fir := h.fir.advance (u2f fsample) acc
        model := { h.model with nanDraws := h.model.nanDraws + 2 * pairs.length } }.emit (.yValid acc))

/-! ## sample_scheduler_interface (R172 to R174) -/

/-- TICK (R172). -/
def Hw.tick {p : Params} (h : Hw p) : Hw p :=
  match h.sched.sstate with
  | .idle => { h with sched := { h.sched with sstate := .conv } }.emit .adcStart
  | .conv => { h with sched := { h.sched with overrun := true } }.emit .tickDropped

/-- ADC_DONE (R173). -/
def Hw.adcDone {p : Params} (h : Hw p) (adcData : BitVec p.dataW) : Hw p :=
  match h.sched.sstate with
  | .conv => { h with sched := { h.sched with sstate := .idle } }.put adcData
  | .idle => { h with sched := { h.sched with protoErr := true } }

/-! ## Reset and guards -/

/-- RST's writes (R230). -/
def Hw.rst {p : Params} (h : Hw p) : Hw p :=
  { h with
    fifo := h.fifo.init
    fir := { h.fir with bound := false, klen := 0, wcur := 0, fstQ := .success }
    sched := { sstate := .idle, overrun := false, protoErr := false } }

/-- What the agents of the scheduler's port may do: with `CFG = FIFO_UNIT` a non-zero `SPORT` vector is refused
(R204, R243). -/
def Hw.asScheduler {p : Params} (h : Hw p) (f : Hw p → Hw p) : Hw p :=
  match p.cfg with
  | .integrated => f h
  | .fifoUnit => h.refuse .secondProducer

/-- What the PRODUCER agent may do: with `CFG = INTEGRATED` a PUT on `WPORT` is refused (R204, R243). -/
def Hw.asProducer {p : Params} (h : Hw p) (f : Hw p → Hw p) : Hw p :=
  match p.cfg with
  | .integrated => h.refuse .secondProducer
  | .fifoUnit => f h

/-- The refusal of a non-zero `SPORT` vector (R204, R243). -/
def schedRefusal (p : Params) : Option RefusalName :=
  match p.cfg with
  | .integrated => none
  | .fifoUnit => some .secondProducer

/-- The refusal an operation meets whatever the blocks hold: the second producer's, or that of a non-finite tap of a
legal length (R204, R206, R243). -/
def refusalOf (p : Params) : Instr → Option RefusalName
  | .sysNop => none
  | .rst => none
  | .fifoInit => none
  | .wNop => none
  | .put _ =>
    match p.cfg with
    | .integrated => some .secondProducer
    | .fifoUnit => none
  | .rNop => none
  | .get => none
  | .fNop => none
  | .firUpdate _ => none
  | .firInit k taps =>
    if badLength p (klenIn p k) then none
    else if anyNonfinite (boundTaps (klenIn p k).toNat taps) then some .nonfiniteTap
    else none
  | .sNop => none
  | .tick => schedRefusal p
  | .adcDone _ => schedRefusal p
  | .adcDoneTick _ => schedRefusal p
  | .rsync => none
  | .wsync => none

/-- The refusal named, if one is. -/
def Hw.refuseIf {p : Params} (h : Hw p) : Option RefusalName → Hw p
  | none => h
  | some r => h.refuse r

/-! ## Answers of a step -/

/-- The next state that holds `h` at the same parameters. -/
def State.goTo (s : State) (h : Hw s.params) : Host.Outcome State Fault Refusal := .next ⟨s.params, h⟩

/-- The answer for an operation that may stop. -/
def State.goToOr (s : State) : Except Fault (Hw s.params) → Host.Outcome State Fault Refusal
  | .ok h => s.goTo h
  | .error e => .fault e

end Sys2Proof.Machine
end

