-- ==== Sys2Proof/Machine/FifoPorts.lean ====
section
/-!
DEFINITION. The async_fifo's operations of 40_async_fifo.md: W_NOP and R_NOP (R84), PUT (R107), GET (R108), RSYNC
(R109), WSYNC (R110).
-/

namespace Sys2Proof.Machine

/-- W_NOP: no step, nothing changes (R84). -/
def execWNop (s : State) : Host.Outcome State Fault Refusal := s.goTo s.hw

/-- PUT (R107), by the PRODUCER agent (R243). -/
def execPut (wdata : Nat) (s : State) : Host.Outcome State Fault Refusal :=
  s.goTo (s.hw.asProducer fun h => h.put (sampleIn s.params wdata))

/-- R_NOP: no step, nothing changes (R84). -/
def execRNop (s : State) : Host.Outcome State Fault Refusal := s.goTo s.hw

/-- GET (R108). -/
def execGet (s : State) : Host.Outcome State Fault Refusal := s.goTo s.hw.get

/-- RSYNC (R109). -/
def execRsync (s : State) : Host.Outcome State Fault Refusal := s.goTo { s.hw with fifo := s.hw.fifo.rsync }

/-- WSYNC (R110). -/
def execWsync (s : State) : Host.Outcome State Fault Refusal := s.goTo { s.hw with fifo := s.hw.fifo.wsync }

end Sys2Proof.Machine
end

