-- ==== Sys2Proof/Machine/FirPort.lean ====
section
/-!
DEFINITION. The fir_filter_engine's operations of 41_fir_filter_engine.md: F_NOP (R84), FIR_INIT (R144), FIR_UPDATE
(R145).
-/

namespace Sys2Proof.Machine

/-- F_NOP: no step, nothing changes (R84). -/
def execFNop (s : State) : Host.Outcome State Fault Refusal := s.goTo s.hw

/-- FIR_INIT (R144). -/
def execFirInit (klenI : Nat) (taps : List F32) (s : State) : Host.Outcome State Fault Refusal :=
  s.goTo (s.hw.firInit (klenIn s.params klenI) taps)

/-- FIR_UPDATE (R145). -/
def execFirUpdate (fsample : Nat) (s : State) : Host.Outcome State Fault Refusal :=
  s.goToOr (s.hw.firUpdate (sampleIn s.params fsample))

end Sys2Proof.Machine
end

