-- ==== Sys2Proof/Machine/SchedPort.lean ====
section
/-!
DEFINITION. The sample_scheduler_interface's operations of 42_sample_scheduler.md: S_NOP (R84), TICK (R172), ADC_DONE
(R173), ADC_DONE_TICK (R174).
-/

namespace Sys2Proof.Machine

/-- S_NOP: no step, nothing changes (R84). -/
def execSNop (s : State) : Host.Outcome State Fault Refusal := s.goTo s.hw

/-- TICK (R172). -/
def execTick (s : State) : Host.Outcome State Fault Refusal := s.goTo (s.hw.asScheduler Hw.tick)

/-- ADC_DONE (R173). -/
def execAdcDone (adcData : Nat) (s : State) : Host.Outcome State Fault Refusal :=
  s.goTo (s.hw.asScheduler fun h => h.adcDone (sampleIn s.params adcData))

/-- ADC_DONE_TICK: ADC_DONE, then TICK from the state ADC_DONE left, in one step (R174). -/
def execAdcDoneTick (adcData : Nat) (s : State) : Host.Outcome State Fault Refusal :=
  s.goTo (s.hw.asScheduler fun h => (h.adcDone (sampleIn s.params adcData)).tick)

end Sys2Proof.Machine
end

