-- ==== Sys2Proof/Machine/SysPort.lean ====
section
/-!
DEFINITION. The `SYS` port's operations: SYS_NOP (R84), RST (70_reset_and_hazards.md R230), FIFO_INIT (R106).
-/

namespace Sys2Proof.Machine

/-- SYS_NOP: no step, nothing changes (R84). -/
def execSysNop (s : State) : Host.Outcome State Fault Refusal := s.goTo s.hw

/-- RST (R230). -/
def execRst (s : State) : Host.Outcome State Fault Refusal := s.goTo s.hw.rst

/-- FIFO_INIT (R106). -/
def execFifoInit (s : State) : Host.Outcome State Fault Refusal := s.goTo { s.hw with fifo := s.hw.fifo.init }

end Sys2Proof.Machine
end

