-- ==== Sys2Proof/Machine/Dispatch.lean ====
section
/-!
DEFINITION. One arm per operation of spec/opcode_table.json.
-/

namespace Sys2Proof.Machine

def exec (i : Instr) (s : State) : Host.Outcome State Fault Refusal :=
  match i with
  | .sysNop => Sys2Proof.Machine.execSysNop s
  | .rst => Sys2Proof.Machine.execRst s
  | .fifoInit => Sys2Proof.Machine.execFifoInit s
  | .wNop => Sys2Proof.Machine.execWNop s
  | .put wdata => Sys2Proof.Machine.execPut wdata s
  | .rNop => Sys2Proof.Machine.execRNop s
  | .get => Sys2Proof.Machine.execGet s
  | .fNop => Sys2Proof.Machine.execFNop s
  | .firUpdate fsample => Sys2Proof.Machine.execFirUpdate fsample s
  | .firInit klenI taps => Sys2Proof.Machine.execFirInit klenI taps s
  | .sNop => Sys2Proof.Machine.execSNop s
  | .tick => Sys2Proof.Machine.execTick s
  | .adcDone adcData => Sys2Proof.Machine.execAdcDone adcData s
  | .adcDoneTick adcData => Sys2Proof.Machine.execAdcDoneTick adcData s
  | .rsync => Sys2Proof.Machine.execRsync s
  | .wsync => Sys2Proof.Machine.execWsync s

end Sys2Proof.Machine
end

