-- ==== Sys2Proof/Machine/Lines.lean ====
section
/-!
DEFINITION. From the schedule to the next operation: program lines (30_encoding.md R91 to R97), the agents that
present them (60_exceptions.md R210), and the refusals of R204 that come before any operation.
-/

namespace Sys2Proof.Machine

/-- The agents an operation belongs to (R210); a NOP row is no step of anyone (R81). -/
def agentsOf : Instr → List Agent
  | .sysNop => []
  | .rst => [.host]
  | .fifoInit => [.host]
  | .wNop => []
  | .put _ => [.producer]
  | .rNop => []
  | .get => [.consumer]
  | .fNop => []
  | .firUpdate _ => [.consumer]
  | .firInit _ _ => [.consumer]
  | .sNop => []
  | .tick => [.timer]
  | .adcDone _ => [.adc]
  | .adcDoneTick _ => [.adc, .timer]
  | .rsync => [.rsync]
  | .wsync => [.wsync]

/-- One agent's index advanced by one (R21). -/
def AgentIndex.bump (ix : AgentIndex) : Agent → AgentIndex
  | .host => { ix with host := ix.host + 1 }
  | .producer => { ix with producer := ix.producer + 1 }
  | .consumer => { ix with consumer := ix.consumer + 1 }
  | .timer => { ix with timer := ix.timer + 1 }
  | .adc => { ix with adc := ix.adc + 1 }
  | .rsync => { ix with rsync := ix.rsync + 1 }
  | .wsync => { ix with wsync := ix.wsync + 1 }

/-- The lines still to run. -/
def Hw.setSchedule {p : Params} (h : Hw p) (ls : List Line) : Hw p :=
  { h with model := { h.model with schedule := ls } }

/-- The indexes of the agents that present an operation advanced (R21, R210). -/
def Hw.advanceAgents {p : Params} (h : Hw p) (as : List Agent) : Hw p :=
  { h with model := { h.model with index := as.foldl AgentIndex.bump h.model.index } }

/-- The state an operation runs from once its line is taken: `rest` is still to run, and the agents' indexes have
advanced. -/
def Hw.take {p : Params} (h : Hw p) (i : Instr) (rest : List Line) : Hw p :=
  (h.setSchedule rest).advanceAgents (agentsOf i)

/-- What a step does: run an operation from a state, or only change the model-only state. -/
inductive Fetched where
  | stay (s : State)
  | run (i : Instr) (s : State)

/-- What stands on the `SYS` input. -/
def Hw.setSys {p : Params} (h : Hw p) (v : BitVec 2) : Hw p := { h with model := { h.model with sysLevel := v } }

/-- An operation presented while `v` comes to stand on `SYS`, with the lines that follow if it runs and if it does
not. It runs when `SYS` stood at `00`; while `SYS` stands at another value the block is held and nothing is a step,
neither another `SYS` vector nor its release (R81). R204 refuses what it names whatever stands on `SYS`; that a refusal
in a held block advances no index is DESIGN CHOICE (log entries 10, 11). -/
def State.offer (s : State) (v : BitVec 2) (i : Instr) (run held : List Line) : Fetched :=
  if s.hw.model.sysLevel = 0#2 then .run i ⟨s.params, (s.hw.setSys v).take i run⟩
  else .stay ⟨s.params, ((s.hw.setSys v).setSchedule held).refuseIf (refusalOf s.params i)⟩

/-- One basic line, with the lines after it. A line refused for its operand advances no index, a feed of `UNSPEC` the
CONSUMER's (DESIGN CHOICE, log entry 10). Both are recorded whatever stands on `SYS`: for the operand R204 says so, for
the feed it is DESIGN CHOICE (log entry 11). -/
def fetchBasic (s : State) (rest : List Line) : BasicLine → Fetched
  | .stimulus st =>
    match decode s.params st with
    | .ok i => s.offer (st.sysAfter s.hw.model.sysLevel) i rest rest
    | .reject _ => .stay ⟨s.params, (s.hw.setSchedule rest).refuse .operandRange⟩
  | .feedRdata =>
    match s.hw.fifo.rdataQ with
    | .val d => s.offer s.hw.model.sysLevel (.firUpdate d.toNat) rest rest
    | .unspec => .stay ⟨s.params, (s.hw.take (.firUpdate 0) rest).recordFault .readUnspec⟩
  | .drain =>
    s.offer s.hw.model.sysLevel .get (if s.hw.getSucceeds then .basic .feedRdata :: rest else rest) rest

/-- The next line of the schedule. With an empty schedule no agent presents anything and nothing happens (R232); at
parameters outside R6 every line is refused (R204). DESIGN CHOICE: a line refused here or in `fetchBasic` presents no
operation, so no agent's index advances (log entry 10); R21 and R204 do not say. -/
def fetch (s : State) : Fetched :=
  match s.hw.model.schedule with
  | [] => .stay s
  | l :: rest =>
    if s.params.legal then fetchBasic s (l.expand.2 ++ rest) l.expand.1
    else .stay ⟨s.params, (s.hw.setSchedule rest).refuse .config⟩

/-- The state with a line put before all others. -/
def State.pushLine (s : State) (l : Line) : State :=
  ⟨s.params, s.hw.setSchedule (l :: s.hw.model.schedule)⟩

end Sys2Proof.Machine
end

