-- ==== Sys2Proof/Machine/Step.lean ====
section
/-!
DEFINITION. One step: the next line of the schedule, run by `exec`.
-/

namespace Sys2Proof.Machine

/-- One atomic step of one agent (R9, R210). -/
def step (s : State) : Host.Outcome State Fault Refusal :=
  match fetch s with
  | .stay t => .next t
  | .run i t => exec i t

/-- The state whose next step runs the operation a table word stands for: its line is put first in the schedule,
where step takes its next operation, and nothing stands on `SYS` that would hold the block (log entries 1, 11). A word
that stands for no stimulus changes nothing. -/
def State.withFetchWord (s : State) (nbits w : Nat) : State :=
  match stimulusOfWord nbits w with
  | some st => State.pushLine ⟨s.params, s.hw.setSys 0#2⟩ (Line.pulse st)
  | none => s

end Sys2Proof.Machine
end

