-- ==== Sys2Proof/Safety.lean ====
section
/-!
DEFINITION. The terms in which claims speak: the views and the queue of 40_async_fifo.md section 3, the invariants of
the blocks, the domains of 20_memory.md R70, and runs of operations with the values they offer, accept and deliver.
-/

namespace Sys2Proof.Machine

/-! ## Views and queue (R113, R114, R116, R118) -/

/-- `pR2 = bin(wq2_rgray)`. -/
def Fifo.pR2 {p : Params} (f : Fifo p) : BitVec p.addrW := bin f.wq2Rgray

/-- `pR1 = bin(wq1_rgray)`. -/
def Fifo.pR1 {p : Params} (f : Fifo p) : BitVec p.addrW := bin f.wq1Rgray

/-- `pW2 = bin(rq2_wgray)`. -/
def Fifo.pW2 {p : Params} (f : Fifo p) : BitVec p.addrW := bin f.rq2Wgray

/-- `pW1 = bin(rq1_wgray)`. -/
def Fifo.pW1 {p : Params} (f : Fifo p) : BitVec p.addrW := bin f.rq1Wgray

/-- `occ = d(rbin, wbin)`, the unread entries. -/
def Fifo.occ {p : Params} (f : Fifo p) : Nat := ptrDist f.rbin f.wbin

/-- `occW = d(pR2, wbin)`, the write view. -/
def Fifo.occW {p : Params} (f : Fifo p) : Nat := ptrDist f.pR2 f.wbin

/-- `occR = d(rbin, pW2)`, the read view. -/
def Fifo.occR {p : Params} (f : Fifo p) : Nat := ptrDist f.rbin f.pW2

/-- The slot `k` places after `rbin`. -/
def Fifo.slotAt {p : Params} (f : Fifo p) (k : Nat) : Nat := (f.rbin + BitVec.ofNat p.addrW k).toNat

/-- `Q`: the unread slots, oldest first (R116). -/
def Fifo.queue {p : Params} (f : Fifo p) : List (Elem (BitVec p.dataW)) :=
  (List.range f.occ).map fun k => Memory.read f.mem (f.slotAt k)

/-- Both views are exact (R118). -/
def Fifo.Quiescent {p : Params} (f : Fifo p) : Prop := f.wq2Rgray = f.rgray ∧ f.rq2Wgray = f.wgray

/-! ## Invariants -/

/-- The async_fifo's invariant: Gray copies (R112), the arc (R113), canonical storage, every unread slot written
(R115), and the status codes a PUT and a GET can leave (R30, R31). -/
structure Fifo.Inv {p : Params} (f : Fifo p) : Prop where
  wgray_eq : f.wgray = gray f.wbin
  rgray_eq : f.rgray = gray f.rbin
  arc : ptrDist f.pR2 f.pR1 + ptrDist f.pR1 f.rbin + ptrDist f.rbin f.pW2 + ptrDist f.pW2 f.pW1
    + ptrDist f.pW1 f.wbin = ptrDist f.pR2 f.wbin
  mem_wf : Memory.wf p.n f.mem = true
  written : ∀ k, k < f.occ → Memory.read f.mem (f.slotAt k) ≠ .unspec
  wst : f.wstQ = .success ∨ f.wstQ = .overflow
  gst : f.gstQ = .success ∨ f.gstQ = .underflow

/-- The fir_filter_engine's invariant: canonical storage; `y` is never `-0.0` (R146); while bound, `klen` and `wcur`
in range (R34, R37), every tap written and finite (R144, R150), every history word written, finite and not negative
(R36, R141), and the status of a success (R33, R39). -/
structure Fir.Inv {p : Params} (f : Fir p) : Prop where
  coef_wf : Memory.wf p.lMax f.coef = true
  hist_wf : Memory.wf p.lMax f.hist = true
  y_ne : f.y ≠ .val 0x80000000#32
  fst : f.fstQ = .success ∨ f.fstQ = .allocError
  range : f.bound = true → 1 ≤ f.klen.toNat ∧ f.klen.toNat ≤ p.lMax ∧ f.wcur.toNat < f.klen.toNat
  coefs : f.bound = true → ∀ i, i < f.klen.toNat → ∃ c, Memory.read f.coef i = .val c ∧ fIsFinite c = true
  hists : f.bound = true → ∀ i, i < f.klen.toNat →
    ∃ x, Memory.read f.hist i = .val x ∧ fIsFinite x = true ∧ fSign x = false
  bound_fst : f.bound = true → f.fstQ = .success

/-- What the wiring of `CFG` keeps: legal parameters; with `CFG = FIFO_UNIT` the scheduler takes no step (R210); the
mark `refused` and the model's own record of names agree (R204). -/
structure Hw.WiringInv {p : Params} (h : Hw p) : Prop where
  legal : p.legal = true
  unit_sched : p.cfg = .fifoUnit → h.sched = Sched.reset
  marks : h.model.refused = h.model.refusals.any

/-- The whole machine's invariant. -/
structure State.Inv (s : State) : Prop where
  fifo : s.hw.fifo.Inv
  fir : s.hw.fir.Inv
  wiring : s.hw.WiringInv

/-- A run proves something only while nothing has been refused and no model fault recorded (R202, R204). -/
def State.Clean (s : State) : Prop :=
  s.hw.model.refused = false ∧ s.hw.model.faults = { firUnbound := false, readUnspec := false }

/-! ## Domains (R70) -/

/-- What only the write domain writes (besides RST and FIFO_INIT). -/
def Fifo.writeSide {p : Params} (f : Fifo p) :
    Memory p.dataW × BitVec p.addrW × BitVec p.addrW × BitVec p.addrW × BitVec p.addrW × Status :=
  (f.mem, f.wbin, f.wgray, f.wq1Rgray, f.wq2Rgray, f.wstQ)

/-- What only the read domain writes (besides RST and FIFO_INIT). -/
def Fifo.readSide {p : Params} (f : Fifo p) :
    BitVec p.addrW × BitVec p.addrW × BitVec p.addrW × BitVec p.addrW × Elem (BitVec p.dataW) × Status :=
  (f.rbin, f.rgray, f.rq1Wgray, f.rq2Wgray, f.rdataQ, f.gstQ)

/-- The operations that write the FIFO's write side. -/
def writesWriteSide : Instr → Bool
  | .rst | .fifoInit | .put _ | .adcDone _ | .adcDoneTick _ | .rsync => true
  | .sysNop | .wNop | .rNop | .get | .fNop | .firUpdate _ | .firInit _ _ | .sNop | .tick | .wsync => false

/-- The operations that write the FIFO's read side. -/
def writesReadSide : Instr → Bool
  | .rst | .fifoInit | .get | .wsync => true
  | .sysNop | .wNop | .put _ | .rNop | .fNop | .firUpdate _ | .firInit _ _ | .sNop | .tick | .adcDone _
  | .adcDoneTick _ | .rsync => false

/-- The operations that write FIR state. -/
def writesFir : Instr → Bool
  | .rst | .firInit _ _ | .firUpdate _ => true
  | .sysNop | .fifoInit | .wNop | .put _ | .rNop | .get | .fNop | .sNop | .tick | .adcDone _ | .adcDoneTick _
  | .rsync | .wsync => false

/-- The operations that write scheduler state. -/
def writesSched : Instr → Bool
  | .rst | .tick | .adcDone _ | .adcDoneTick _ => true
  | .sysNop | .fifoInit | .wNop | .put _ | .rNop | .get | .fNop | .firUpdate _ | .firInit _ _ | .sNop | .rsync
  | .wsync => false

/-- The rows that are no step: the all-zeros vectors (R81, R84). -/
def isNop : Instr → Bool
  | .sysNop | .wNop | .rNop | .fNop | .sNop => true
  | .rst | .fifoInit | .put _ | .get | .firUpdate _ | .firInit _ _ | .tick | .adcDone _ | .adcDoneTick _ | .rsync
  | .wsync => false

/-! ## Runs of operations -/

/-- A run of operations in order (R71), stopping at the first that does not answer a next state. -/
def runOps : List Instr → State → Host.Outcome State Fault Refusal
  | [], s => .next s
  | i :: is, s =>
    match exec i s with
    | .next t => runOps is t
    | .fault e => .fault e
    | .refused r => .refused r

/-- The value an operation offers to the FIFO: PUT's with `CFG = FIFO_UNIT`, a converted value's in CONV with
`CFG = INTEGRATED` (R107, R173, R243). -/
def offeredBy (s : State) : Instr → List Nat
  | .put d => if s.params.cfg = .fifoUnit then [(sampleIn s.params d).toNat] else []
  | .adcDone d | .adcDoneTick d =>
    if s.params.cfg = .integrated ∧ s.hw.sched.sstate = .conv then [(sampleIn s.params d).toNat] else []
  | .sysNop | .rst | .fifoInit | .wNop | .rNop | .get | .fNop | .firUpdate _ | .firInit _ _ | .sNop | .tick | .rsync
  | .wsync => []

/-- The value an operation stores: the offered one, unless the write view is full (R107). -/
def acceptedBy (s : State) (i : Instr) : List Nat := if s.hw.fifo.wfull then [] else offeredBy s i

/-- The value a GET delivers (R108). -/
def deliveredBy (s : State) : Instr → List Nat
  | .get =>
    match Memory.read s.hw.fifo.mem s.hw.fifo.rbin.toNat with
    | .val d => if s.hw.fifo.rempty then [] else [d.toNat]
    | .unspec => []
  | .sysNop | .rst | .fifoInit | .wNop | .put _ | .rNop | .fNop | .firUpdate _ | .firInit _ _ | .sNop | .tick
  | .adcDone _ | .adcDoneTick _ | .rsync | .wsync => []

/-- The samples of a run's FIR_UPDATEs, in order. -/
def samplesOf : List Instr → List Nat
  | [] => []
  | i :: is =>
    match i with
    | .firUpdate x => x :: samplesOf is
    | .sysNop | .rst | .fifoInit | .wNop | .put _ | .rNop | .get | .fNop | .firInit _ _ | .sNop | .tick | .adcDone _
    | .adcDoneTick _ | .rsync | .wsync => samplesOf is

/-- What `f` collects along a run of operations. -/
def alongRun (f : State → Instr → List Nat) : List Instr → State → List Nat
  | [], _ => []
  | i :: is, s =>
    f s i ++ match exec i s with
      | .next t => alongRun f is t
      | .fault _ => []
      | .refused _ => []

/-- `Q` as integers, an `UNSPEC` slot as `none`. -/
def Fifo.queueNat {p : Params} (f : Fifo p) : List (Option Nat) :=
  f.queue.map fun e => match e with
    | .val d => some d.toNat
    | .unspec => none

end Sys2Proof.Machine
end

