-- ==== Sys2Proof/Certificates/Slice0/Obligations.lean ====
section
/-!
DEFINITION. The statements for the provers, from the numbered rules of spec/. Each docstring names the rules; a clause
that is the model's choice names its log entry. A next state is written as the state before with the fields named
that change, so an equation is the operation's effect and its frame at once.
-/

open Sys2Proof Sys2Proof.Machine

/-! ## Encoding -/

/-- R82, R83, R92: decoding what the encoder presents gives the operation back, with every operand, at every
parameter set. -/
def Obligations.DecodeOfEncodeGivesBackTheOperation : Prop :=
  ∀ (p : Params) (i : Instr), i.wf p = true → decode p (encode i) = .ok i

/-- R83: the rows of one format are disjoint and cover every vector, and every vector of every port group selects the
row of the map, with any operands of the other rows and with its own operands in range. The taps are the words of
`coef_i`, word `i` at bits `[32*i+31 : 32*i]` (R82). A one-bit vector stands zero-extended in two bits. -/
def Obligations.EveryVectorSelectsItsRow : Prop :=
  (∀ (g : Group) (v : BitVec 2), ∃ r ∈ opcodeRows, r.group = g ∧ v &&& r.mask = r.pattern ∧
    ∀ r' ∈ opcodeRows, r'.group = g → v &&& r'.mask = r'.pattern → r' = r) ∧
  ∀ (p : Params) (wdata klenI coef fsample adcData : Nat),
    decode p (.sys 0b00) = .ok .sysNop ∧
    decode p (.sys 0b01) = .ok .rst ∧
    decode p (.sys 0b11) = .ok .rst ∧
    decode p (.sys 0b10) = .ok .fifoInit ∧
    decode p (.wport 0b0 wdata) = .ok .wNop ∧
    (wdata < 2 ^ p.dataW → decode p (.wport 0b1 wdata) = .ok (.put wdata)) ∧
    decode p (.rport 0b0) = .ok .rNop ∧
    decode p (.rport 0b1) = .ok .get ∧
    decode p (.fport 0b00 klenI coef fsample) = .ok .fNop ∧
    (fsample < 2 ^ p.dataW → decode p (.fport 0b01 klenI coef fsample) = .ok (.firUpdate fsample)) ∧
    (klenI < 2 ^ p.klw → coef < 2 ^ (32 * p.lMax) →
      ∃ taps : List F32, taps.length = p.lMax ∧
        (∀ i, i < p.lMax → taps[i]? = some (BitVec.ofNat 32 (coef / 2 ^ (32 * i)))) ∧
        decode p (.fport 0b10 klenI coef fsample) = .ok (.firInit klenI taps) ∧
        decode p (.fport 0b11 klenI coef fsample) = .ok (.firInit klenI taps)) ∧
    decode p (.sport 0b00 adcData) = .ok .sNop ∧
    decode p (.sport 0b01 adcData) = .ok .tick ∧
    (adcData < 2 ^ p.dataW → decode p (.sport 0b10 adcData) = .ok (.adcDone adcData)) ∧
    (adcData < 2 ^ p.dataW → decode p (.sport 0b11 adcData) = .ok (.adcDoneTick adcData))

/-- R93 and the listings of 95_test_vectors.md P2 and P3: a few lines' inputs, written out, at the reference
parameters. -/
def Obligations.ListedInputsDecodeAsListed : Prop :=
  decode Config.reference (.wport 0b1 0x0011) = .ok (.put 0x11) ∧
  decode Config.reference (.sport 0b10 0x0005) = .ok (.adcDone 5) ∧
  decode Config.reference (.sport 0b11 0x0000) = .ok (.adcDoneTick 0) ∧
  decode Config.reference (.sys 0b01) = .ok .rst ∧
  decode Config.reference (.rport 0b1) = .ok .get ∧
  decode Config.reference (.fport 0b01 0 0 0x0004) = .ok (.firUpdate 4) ∧
  decode Config.reference (.fport 0b10 3 0x3E4CCCCD3E99999A3F000000 0) =
    .ok (.firInit 3 ([0x3F000000#32, 0x3E99999A#32, 0x3E4CCCCD#32] ++ List.replicate 29 0x00000000#32))

/-- R92, R204: an integer operand that does not fit the field of the row selected spells no operation, and the step
that takes its line refuses it: the mark `refused` is set and nothing else changes but the schedule, which moves on
(log entries 1 and 7), also while `SYS` holds the block (log entry 11). -/
def Obligations.OperandOutOfRangeIsRefused : Prop :=
  ∀ (p : Params) (h : Hw p) (rest : List Line) (x klenI coef : Nat), p.legal = true →
    (∀ st : Stimulus,
      (2 ^ p.dataW ≤ x ∧ (st = .wport 0b1 x ∨ st = .sport 0b10 x ∨ st = .sport 0b11 x ∨ st = .fport 0b01 klenI coef x)) ∨
      (2 ^ p.klw ≤ klenI ∧ (st = .fport 0b10 klenI coef x ∨ st = .fport 0b11 klenI coef x)) →
      h.model.schedule = Line.present st :: rest →
      step ⟨p, h⟩ = .next ⟨p, { h with model := { h.model with
        schedule := rest
        refused := true
        refusals := { h.model.refusals with operandRange := true } } }⟩)

/-! ## Gray pointers -/

/-- R101: the recurrence that defines `bin`, and that `gray` and `bin` are inverse to each other at every width. -/
def Obligations.GrayAndBinAreInverse : Prop :=
  ∀ (w : Nat) (v : BitVec w),
    (bin v).getLsbD (w - 1) = v.getLsbD (w - 1) ∧
    (∀ i, i + 1 < w → (bin v).getLsbD i = ((bin v).getLsbD (i + 1) ^^ v.getLsbD i)) ∧
    bin (gray v) = v ∧ gray (bin v) = v ∧ (∀ u : BitVec w, gray u = gray v ↔ u = v)

/-- R103: consecutive Gray values differ in exactly one bit, also at the wrap. -/
def Obligations.ConsecutiveGrayValuesDifferInOneBit : Prop :=
  ∀ (w : Nat) (b : BitVec w), 1 ≤ w →
    (∃ i, i < w ∧ gray (inc b) ^^^ gray b = BitVec.twoPow w i) ∧
    gray (BitVec.allOnes w) = BitVec.twoPow w (w - 1) ∧ inc (BitVec.allOnes w) = 0 ∧ gray (0 : BitVec w) = 0

/-! ## async_fifo: effects -/

/-- R107: PUT, with `CFG = FIFO_UNIT` (R243). It is WPORT's vector 1, presented by PRODUCER; it returns OVERFLOW
exactly when the write view is full and then stores nothing, else it stores `wdata` in slot `wbin` and advances the
cursor. -/
def Obligations.PutStoresOrOverflows : Prop :=
  ∀ (p : Params) (h : Hw p) (wdata : BitVec p.dataW), p.cfg = .fifoUnit →
    decode p (.wport 0b1 wdata.toNat) = .ok (.put wdata.toNat) ∧ agentsOf (.put wdata.toNat) = [.producer] ∧
    (gray (inc h.fifo.wbin) = h.fifo.wq2Rgray →
      exec (.put wdata.toNat) ⟨p, h⟩ = .next ⟨p, { h with
        fifo := { h.fifo with wstQ := .overflow }
        model := { h.model with events := h.model.events ++ [.wstValid .overflow] } }⟩) ∧
    (gray (inc h.fifo.wbin) ≠ h.fifo.wq2Rgray →
      ∃ mem : Memory p.dataW,
        (∀ i, Memory.read mem i = if i = h.fifo.wbin.toNat then .val wdata else Memory.read h.fifo.mem i) ∧
        exec (.put wdata.toNat) ⟨p, h⟩ = .next ⟨p, { h with
          fifo := { h.fifo with
            mem := mem
            wbin := inc h.fifo.wbin
            wgray := gray (inc h.fifo.wbin)
            wstQ := .success }
          model := { h.model with events := h.model.events ++ [.wstValid .success] } }⟩)

/-- R204, R243: with `CFG = INTEGRATED` a PUT on WPORT, and with `CFG = FIFO_UNIT` a non-zero SPORT vector, sets the
mark `refused` (and the model's own record of the name, log entry 7) and changes nothing else. -/
def Obligations.SecondProducerIsRefused : Prop :=
  ∀ (p : Params) (h : Hw p) (x : Nat) (i : Instr),
    (p.cfg = .integrated ∧ i = .put x) ∨
      (p.cfg = .fifoUnit ∧ (i = .tick ∨ i = .adcDone x ∨ i = .adcDoneTick x)) →
    exec i ⟨p, h⟩ = .next ⟨p, { h with model := { h.model with
      refused := true
      refusals := { h.model.refusals with secondProducer := true } } }⟩

/-- R108, R60, R203: GET. It is RPORT's vector 1, presented by CONSUMER; UNDERFLOW exactly when the read view is
empty, with `rdata_q` left unmodified; else slot `rbin` is delivered and the cursor advances; a slot that is `UNSPEC`
records `F_READ_UNSPEC` and the step makes no other change. -/
def Obligations.GetDeliversOrUnderflows : Prop :=
  ∀ (p : Params) (h : Hw p),
    decode p (.rport 0b1) = .ok .get ∧ agentsOf .get = [.consumer] ∧
    (h.fifo.rgray = h.fifo.rq2Wgray →
      exec .get ⟨p, h⟩ = .next ⟨p, { h with
        fifo := { h.fifo with gstQ := .underflow }
        model := { h.model with events := h.model.events ++ [.gstValid .underflow none] } }⟩) ∧
    (h.fifo.rgray ≠ h.fifo.rq2Wgray → ∀ d, Memory.read h.fifo.mem h.fifo.rbin.toNat = .val d →
      exec .get ⟨p, h⟩ = .next ⟨p, { h with
        fifo := { h.fifo with
          rdataQ := .val d
          rbin := inc h.fifo.rbin
          rgray := gray (inc h.fifo.rbin)
          gstQ := .success }
        model := { h.model with events := h.model.events ++ [.gstValid .success (some d)] } }⟩) ∧
    (h.fifo.rgray ≠ h.fifo.rq2Wgray → Memory.read h.fifo.mem h.fifo.rbin.toNat = .unspec →
      exec .get ⟨p, h⟩ = .next ⟨p, { h with
        model := { h.model with faults := { h.model.faults with readUnspec := true } } }⟩)

/-- R109: RSYNC moves the write-domain synchroniser one stage. -/
def Obligations.RsyncShiftsTheWriteSynchroniser : Prop :=
  ∀ (p : Params) (h : Hw p),
    agentsOf .rsync = [.rsync] ∧ Instr.rsync.row = none ∧
    exec .rsync ⟨p, h⟩ = .next ⟨p, { h with
      fifo := { h.fifo with wq2Rgray := h.fifo.wq1Rgray, wq1Rgray := h.fifo.rgray } }⟩

/-- R110: WSYNC moves the read-domain synchroniser one stage. -/
def Obligations.WsyncShiftsTheReadSynchroniser : Prop :=
  ∀ (p : Params) (h : Hw p),
    agentsOf .wsync = [.wsync] ∧ Instr.wsync.row = none ∧
    exec .wsync ⟨p, h⟩ = .next ⟨p, { h with
      fifo := { h.fifo with rq2Wgray := h.fifo.rq1Wgray, rq1Wgray := h.fifo.wgray } }⟩

/-- R106: FIFO_INIT clears both domains' pointers, synchronisers and status, leaves `mem` and `rdata_q`, and
afterwards `wfull = 0`, `rempty = 1` and the next GET returns UNDERFLOW. -/
def Obligations.FifoInitEmptiesTheFifo : Prop :=
  ∀ (p : Params) (h : Hw p), 1 ≤ p.addrW →
    decode p (.sys 0b10) = .ok .fifoInit ∧ agentsOf .fifoInit = [.host] ∧
    ∃ t : Hw p, exec .fifoInit ⟨p, h⟩ = .next ⟨p, t⟩ ∧
      t = { h with fifo := { h.fifo with
        wbin := 0, wgray := 0, wq1Rgray := 0, wq2Rgray := 0, wstQ := .success
        rbin := 0, rgray := 0, rq1Wgray := 0, rq2Wgray := 0, gstQ := .success } } ∧
      t.fifo.wfull = false ∧ t.fifo.rempty = true ∧
      ∃ u : Hw p, exec .get ⟨p, t⟩ = .next ⟨p, u⟩ ∧ u.fifo.gstQ = .underflow

/-- R230: RST does everything FIFO_INIT does, unbinds the FIR engine and returns the scheduler to IDLE; what it does
not write keeps its value, the model-only state among it. -/
def Obligations.RstResetsTheThreeBlocks : Prop :=
  ∀ (p : Params) (h : Hw p), 1 ≤ p.addrW →
    decode p (.sys 0b01) = .ok .rst ∧ decode p (.sys 0b11) = .ok .rst ∧ agentsOf .rst = [.host] ∧
    ∃ t : Hw p, exec .rst ⟨p, h⟩ = .next ⟨p, t⟩ ∧
      t = { h with
        fifo := { h.fifo with
          wbin := 0, wgray := 0, wq1Rgray := 0, wq2Rgray := 0, wstQ := .success
          rbin := 0, rgray := 0, rq1Wgray := 0, rq2Wgray := 0, gstQ := .success }
        fir := { h.fir with bound := false, klen := 0, wcur := 0, fstQ := .success }
        sched := { sstate := .idle, overrun := false, protoErr := false } } ∧
      t.outputs.wfull = false ∧ t.outputs.rempty = true ∧ t.outputs.fBound = false ∧ t.outputs.sBusy = false ∧
      t.outputs.sOverrun = false ∧ t.outputs.sProtoErr = false ∧ t.fifo.Quiescent ∧
      (∃ u : Hw p, exec .get ⟨p, t⟩ = .next ⟨p, u⟩ ∧ u.fifo.gstQ = .underflow) ∧
      ∀ x, exec (.firUpdate x) ⟨p, t⟩ = .next ⟨p, { t with
        model := { t.model with faults := { t.model.faults with firUnbound := true } } }⟩

/-- R84: the five NOP rows take no step: no agent performs them and they leave every state element as it was; `WPORT = 0`
with any `wdata` is one of them. -/
def Obligations.NopsChangeNothing : Prop :=
  (∀ (s : State) (i : Instr), i = .sysNop ∨ i = .wNop ∨ i = .rNop ∨ i = .fNop ∨ i = .sNop →
    exec i s = .next s ∧ agentsOf i = []) ∧
  ∀ (p : Params) (wdata : Nat), decode p (.wport 0b0 wdata) = .ok .wNop

/-! ## fir_filter_engine: effects -/

/-- R144: FIR_INIT. A length of 0 or above `L_MAX` returns ALLOC_ERROR and unbinds, whatever the taps; an infinite or
NaN tap among the first `klen_i` is refused with no state change; else the taps are latched, the history is cleared
and the engine is bound. The result joins the history as `firInitResult` (log entry 9). -/
def Obligations.FirInitBindsOrFails : Prop :=
  ∀ (p : Params) (h : Hw p) (k : Nat) (taps : List F32), (Instr.firInit k taps).wf p = true →
    decode p (.fport 0b10 k (packTaps taps) 0) = .ok (.firInit k taps) ∧
    decode p (.fport 0b11 k (packTaps taps) 0) = .ok (.firInit k taps) ∧
    agentsOf (.firInit k taps) = [.consumer] ∧
    (k = 0 ∨ p.lMax < k →
      exec (.firInit k taps) ⟨p, h⟩ = .next ⟨p, { h with
        fir := { h.fir with bound := false, fstQ := .allocError }
        model := { h.model with events := h.model.events ++ [.firInitResult .allocError] } }⟩) ∧
    (1 ≤ k → k ≤ p.lMax → (∃ i, ∃ (_ : i < k) (hi : i < taps.length), fExp taps[i] = 255) →
      exec (.firInit k taps) ⟨p, h⟩ = .next ⟨p, { h with model := { h.model with
        refused := true
        refusals := { h.model.refusals with nonfiniteTap := true } } }⟩) ∧
    (1 ≤ k → k ≤ p.lMax → (∀ i (hi : i < taps.length), i < k → fExp taps[i] ≠ 255) →
      ∃ coef hist : Memory 32,
        (∀ i (hi : i < taps.length), i < k → Memory.read coef i = .val taps[i]) ∧
        (∀ i, k ≤ i → Memory.read coef i = Memory.read h.fir.coef i) ∧
        (∀ i, Memory.read hist i = if i < k then .val 0 else Memory.read h.fir.hist i) ∧
        exec (.firInit k taps) ⟨p, h⟩ = .next ⟨p, { h with
          fir := { h.fir with
            klen := BitVec.ofNat p.klw k
            coef := coef
            hist := hist
            wcur := 0
            y := .val 0
            bound := true
            fstQ := .success }
          model := { h.model with events := h.model.events ++ [.firInitResult .success] } }⟩)

/-- R145 (and R202 for the unbound case): FIR_UPDATE. Unbound, it records `F_FIR_UNBOUND` and makes no other change.
Bound, it writes the sample at the cursor, advances the cursor modulo `klen`, and `y` is the sum over the taps in
order, tap `i` with the history word `(old - i) mod klen` read after the write, every product and every sum rounded.
The NaN arguments are free values drawn in order (R150; log entry 8). -/
def Obligations.FirUpdateComputesTheConvolution : Prop :=
  ∀ (p : Params) (h : Hw p) (x : BitVec p.dataW),
    decode p (.fport 0b01 0 0 x.toNat) = .ok (.firUpdate x.toNat) ∧
    agentsOf (.firUpdate x.toNat) = [.consumer] ∧
    (h.fir.bound = false →
      exec (.firUpdate x.toNat) ⟨p, h⟩ = .next ⟨p, { h with
        model := { h.model with faults := { h.model.faults with firUnbound := true } } }⟩) ∧
    (h.fir.Inv → h.fir.bound = true →
      ∃ (hist : Memory 32) (c y : Nat → F32),
        (∀ i, Memory.read hist i =
          if i = h.fir.wcur.toNat then .val (u2f x) else Memory.read h.fir.hist i) ∧
        (∀ i, i < h.fir.klen.toNat →
          Memory.read h.fir.coef i = .val (c i) ∧
          Memory.read hist (((h.fir.wcur.toNat : Int) - i) % (h.fir.klen.toNat : Int)).toNat = .val (y i)) ∧
        let acc := (List.range h.fir.klen.toNat).foldl (fun acc i =>
          fadd32 (Config.freeNan (h.model.nanDraws + 2 * i + 1)) acc
            (fmul32 (Config.freeNan (h.model.nanDraws + 2 * i)) (c i) (y i))) 0x00000000#32
        exec (.firUpdate x.toNat) ⟨p, h⟩ = .next ⟨p, { h with
          fir := { h.fir with
            hist := hist
            wcur := BitVec.ofNat p.klw ((h.fir.wcur.toNat + 1) % h.fir.klen.toNat)
            y := .val acc }
          model := { h.model with
            events := h.model.events ++ [.yValid acc]
            nanDraws := h.model.nanDraws + 2 * h.fir.klen.toNat } }⟩)

/-- R146: the output `y` is never `-0.0`: no operation makes it so, from any state in which it is not. -/
def Obligations.OutputIsNeverNegativeZero : Prop :=
  ∀ (p : Params) (h t : Hw p) (i : Instr), exec i ⟨p, h⟩ = .next ⟨p, t⟩ →
    h.fir.y ≠ .val 0x80000000#32 → t.fir.y ≠ .val 0x80000000#32

/-- R141: `u2f` is exact on every sample width the parameters allow; `u2f(0) = +0.0`, and no result is negative,
infinite or NaN. -/
def Obligations.SampleConversionIsExact : Prop :=
  ∀ (w : Nat) (x : BitVec w), w ≤ 24 →
    fUnits (u2f x) = (x.toNat : Int) * 2 ^ 149 ∧ fIsFinite (u2f x) = true ∧ fSign (u2f x) = false ∧
    (x = 0 → u2f x = 0x00000000#32)

/-- R143: the sum of two finite words is rounded once to nearest, ties to even: no finite word is nearer to the exact
sum, on a tie the last bit is 0; an infinity of the sum's sign exactly when the rounded magnitude exceeds the largest
finite value; an exact zero is `+0.0` unless both operands are negative. Values count units of `2^-149`. -/
def Obligations.SumRoundsOnceToNearestEven : Prop :=
  ∀ (free : BitVec 23) (a b : F32), fIsFinite a = true → fIsFinite b = true →
    let r := fadd32 free a b
    let e := fUnits a + fUnits b
    (fIsFinite r = true → ∀ w : F32, fIsFinite w = true →
      |fUnits r - e| ≤ |fUnits w - e| ∧
      (fUnits w ≠ fUnits r → |fUnits r - e| = |fUnits w - e| → r.toNat % 2 = 0)) ∧
    (fIsFinite r = false ↔ (2 : Int) ^ 277 - 2 ^ 252 ≤ |e|) ∧
    (fIsFinite r = false → r = if e < 0 then 0xFF800000#32 else 0x7F800000#32) ∧
    (e ≠ 0 → fSign r = decide (e < 0)) ∧
    (e = 0 → r = if fSign a ∧ fSign b then 0x80000000#32 else 0x00000000#32)

/-- R142: the product of two finite words is rounded once to nearest, ties to even, with gradual underflow; its sign
is the exclusive or of the operands' signs, also of a zero; an infinity exactly when the rounded magnitude exceeds
the largest finite value. The exact product counts units of `2^-298`. -/
def Obligations.ProductRoundsOnceToNearestEven : Prop :=
  ∀ (free : BitVec 23) (a b : F32), fIsFinite a = true → fIsFinite b = true →
    let r := fmul32 free a b
    let e := fUnits a * fUnits b
    (fIsFinite r = true → ∀ w : F32, fIsFinite w = true →
      |fUnits r * 2 ^ 149 - e| ≤ |fUnits w * 2 ^ 149 - e| ∧
      (fUnits w ≠ fUnits r → |fUnits r * 2 ^ 149 - e| = |fUnits w * 2 ^ 149 - e| → r.toNat % 2 = 0)) ∧
    (fIsFinite r = false ↔ ((2 : Int) ^ 277 - 2 ^ 252) * 2 ^ 149 ≤ |e|) ∧
    (fIsFinite r = false → r = if fSign a = fSign b then 0x7F800000#32 else 0xFF800000#32) ∧
    fSign r = (fSign a ^^ fSign b)

/-- R142, R143, R150: operands that are not finite, and that a NaN result can be any quiet NaN and nothing else. -/
def Obligations.NonfiniteArithmetic : Prop :=
  (∀ (free : BitVec 23) (a b : F32),
    (fIsNan a = true ∨ fIsNan b = true → fadd32 free a b = quietNan free ∧ fmul32 free a b = quietNan free) ∧
    (fIsInf a = true → fIsFinite b = true → fadd32 free a b = a ∧ fadd32 free b a = a) ∧
    (fIsInf a = true → fIsInf b = true → fadd32 free a b = if fSign a = fSign b then a else quietNan free) ∧
    (fIsInf a = true → fIsNan b = false →
      (fUnits b = 0 → fmul32 free a b = quietNan free ∧ fmul32 free b a = quietNan free) ∧
      (fUnits b ≠ 0 ∨ fIsInf b = true →
        fmul32 free a b = (if fSign a = fSign b then 0x7F800000#32 else 0xFF800000#32) ∧
        fmul32 free b a = (if fSign a = fSign b then 0x7F800000#32 else 0xFF800000#32)))) ∧
  (∀ free : BitVec 23, fIsNan (quietNan free) = true ∧ (quietNan free).getLsbD 22 = true) ∧
  (∀ w : F32, fIsNan w = true → w.getLsbD 22 = true → ∃ free : BitVec 23, quietNan free = w)

/-- R149: FIR_UPDATE reads and writes nothing outside `coef[0 .. klen-1]` and `hist[0 .. klen-1]`: with other
contents there it answers the same `y`, cursor and history window, and every slot from `klen` on keeps its value. -/
def Obligations.FirUpdateStaysInsideTheKernelLength : Prop :=
  ∀ (p : Params) (h t : Hw p) (x : Nat) (coef hist : Memory 32), h.fir.Inv →
    (∀ i, i < h.fir.klen.toNat →
      Memory.read coef i = Memory.read h.fir.coef i ∧ Memory.read hist i = Memory.read h.fir.hist i) →
    exec (.firUpdate x) ⟨p, h⟩ = .next ⟨p, t⟩ →
    (∀ i, h.fir.klen.toNat ≤ i → Memory.read t.fir.hist i = Memory.read h.fir.hist i) ∧ t.fir.coef = h.fir.coef ∧
    ∃ u : Hw p, exec (.firUpdate x) ⟨p, { h with fir := { h.fir with coef := coef, hist := hist } }⟩ = .next ⟨p, u⟩ ∧
      u.fir.y = t.fir.y ∧ u.fir.wcur = t.fir.wcur ∧ u.fir.coef = coef ∧ u.model = t.model ∧ u.fifo = t.fifo ∧
      (∀ i, i < h.fir.klen.toNat → Memory.read u.fir.hist i = Memory.read t.fir.hist i) ∧
      ∀ i, h.fir.klen.toNat ≤ i → Memory.read u.fir.hist i = Memory.read hist i

/-- R147, R148: after a successful FIR_INIT and `m >= 1` FIR_UPDATEs since, whatever other operations that write no FIR
state (GET, PUT, synchroniser steps, the scheduler's) stand between, the cursor is `m mod klen`, the history holds the
last samples, the slots not yet reached hold `+0.0`, and `y` is the rounded sum over the taps, tap 0 with the newest
sample, a sample before the first counting as `+0.0`. Samples are the list `xs`, oldest first. -/
def Obligations.SteadyStateIsTheConvolution : Prop :=
  ∀ (p : Params) (s t : State) (k : Nat) (taps : List F32) (ops : List Instr),
    s.params = p → p.legal = true → (Instr.firInit k taps).wf p = true → 1 ≤ k → k ≤ p.lMax →
    (∀ i (hi : i < taps.length), i < k → fIsFinite taps[i] = true) →
    (∀ i ∈ ops, (∃ x, i = .firUpdate x) ∨ writesFir i = false) →
    samplesOf ops ≠ [] → runOps (.firInit k taps :: ops) s = .next t →
    let xs := samplesOf ops
    let m := xs.length
    let sample := fun j => if hj : 1 ≤ j ∧ j ≤ m then u2f (sampleIn p (xs[j - 1]'(by omega))) else 0x00000000#32
    t.hw.fir.wcur.toNat = m % k ∧
    (∀ i, i < min m k → Memory.read t.hw.fir.hist ((((m : Int) - 1 - i) % k).toNat) = .val (sample (m - i))) ∧
    (∀ i, m ≤ i → i < k → Memory.read t.hw.fir.hist i = .val 0x00000000#32) ∧
    t.hw.fir.y = .val ((List.range k).foldl (fun acc i =>
      fadd32 (Config.freeNan (s.hw.model.nanDraws + 2 * k * (m - 1) + 2 * i + 1)) acc
        (fmul32 (Config.freeNan (s.hw.model.nanDraws + 2 * k * (m - 1) + 2 * i)) (taps.getD i 0)
          (sample (m - i)))) 0x00000000#32)

/-- R148: the run of `SteadyStateIsTheConvolution` reaches a next state from every state, bound and with no
`F_FIR_UNBOUND` added; if it holds FIR_UPDATEs only, with no model fault and no refusal added at all. -/
def Obligations.EveryFilterRunCompletes : Prop :=
  ∀ (s : State) (k : Nat) (taps : List F32) (ops : List Instr),
    s.params.legal = true → (Instr.firInit k taps).wf s.params = true → 1 ≤ k → k ≤ s.params.lMax →
    (∀ i (hi : i < taps.length), i < k → fIsFinite taps[i] = true) →
    (∀ i ∈ ops, (∃ x, i = .firUpdate x) ∨ writesFir i = false) →
    ∃ t, runOps (.firInit k taps :: ops) s = .next t ∧
      t.hw.fir.bound = true ∧ t.hw.model.faults.firUnbound = s.hw.model.faults.firUnbound ∧
      ((∀ i ∈ ops, ∃ x, i = .firUpdate x) →
        t.hw.model.faults = s.hw.model.faults ∧ t.hw.model.refused = s.hw.model.refused)

/-! ## sample_scheduler_interface: effects -/

/-- R172: TICK, with `CFG = INTEGRATED` (R243): from IDLE an acquisition starts; during one the event is dropped and
recorded in the sticky `overrun`. -/
def Obligations.TickStartsOrIsDropped : Prop :=
  ∀ (p : Params) (h : Hw p), p.cfg = .integrated →
    decode p (.sport 0b01 0) = .ok .tick ∧ agentsOf .tick = [.timer] ∧
    (h.sched.sstate = .idle →
      exec .tick ⟨p, h⟩ = .next ⟨p, { h with
        sched := { h.sched with sstate := .conv }
        model := { h.model with events := h.model.events ++ [.adcStart] } }⟩) ∧
    (h.sched.sstate = .conv →
      exec .tick ⟨p, h⟩ = .next ⟨p, { h with
        sched := { h.sched with overrun := true }
        model := { h.model with events := h.model.events ++ [.tickDropped] } }⟩)

/-- R173: ADC_DONE, with `CFG = INTEGRATED`: in CONV the scheduler returns to IDLE and puts the value, or drops it
with OVERFLOW when the write view is full; in IDLE it sets the sticky `proto_err` and ignores the value. -/
def Obligations.AdcDonePutsTheConvertedValue : Prop :=
  ∀ (p : Params) (h : Hw p) (x : BitVec p.dataW), p.cfg = .integrated →
    decode p (.sport 0b10 x.toNat) = .ok (.adcDone x.toNat) ∧ agentsOf (.adcDone x.toNat) = [.adc] ∧
    (h.sched.sstate = .conv → gray (inc h.fifo.wbin) ≠ h.fifo.wq2Rgray →
      ∃ mem : Memory p.dataW,
        (∀ i, Memory.read mem i = if i = h.fifo.wbin.toNat then .val x else Memory.read h.fifo.mem i) ∧
        exec (.adcDone x.toNat) ⟨p, h⟩ = .next ⟨p, { h with
          sched := { h.sched with sstate := .idle }
          fifo := { h.fifo with
            mem := mem
            wbin := inc h.fifo.wbin
            wgray := gray (inc h.fifo.wbin)
            wstQ := .success }
          model := { h.model with events := h.model.events ++ [.wstValid .success] } }⟩) ∧
    (h.sched.sstate = .conv → gray (inc h.fifo.wbin) = h.fifo.wq2Rgray →
      exec (.adcDone x.toNat) ⟨p, h⟩ = .next ⟨p, { h with
        sched := { h.sched with sstate := .idle }
        fifo := { h.fifo with wstQ := .overflow }
        model := { h.model with events := h.model.events ++ [.wstValid .overflow] } }⟩) ∧
    (h.sched.sstate = .idle →
      exec (.adcDone x.toNat) ⟨p, h⟩ = .next ⟨p, { h with sched := { h.sched with protoErr := true } }⟩)

/-- R174: ADC_DONE_TICK is the ADC_DONE, then the TICK from the state it left, in one step; it always ends in CONV with
one `adc_start` and leaves `overrun`. -/
def Obligations.AdcDoneTickIsBothInOneStep : Prop :=
  ∀ (p : Params) (h : Hw p) (x : BitVec p.dataW), p.cfg = .integrated →
    decode p (.sport 0b11 x.toNat) = .ok (.adcDoneTick x.toNat) ∧
    ∃ t u : Hw p,
      exec (.adcDone x.toNat) ⟨p, h⟩ = .next ⟨p, t⟩ ∧ exec .tick ⟨p, t⟩ = .next ⟨p, u⟩ ∧
      exec (.adcDoneTick x.toNat) ⟨p, h⟩ = .next ⟨p, u⟩ ∧
      u.sched.sstate = .conv ∧ u.sched.overrun = h.sched.overrun ∧
      u.sched.protoErr = (h.sched.protoErr || decide (h.sched.sstate = .idle)) ∧
      u.fir = h.fir ∧ u.fifo = t.fifo ∧ (h.sched.sstate = .idle → u.fifo = h.fifo) ∧
      u.model = { t.model with events := t.model.events ++ [.adcStart] }

/-! ## step -/

/-- R9, R21, R81, R210: when the line at the head of the schedule presents inputs that decode to an operation, the
step is `exec` of that operation at the state with the line taken and the indexes of its agents advanced; a `SYS`
vector also stays on the port (first two clauses). While `SYS` stands at another value than `00` the block is held:
nothing is a step, neither an operation of any port nor another `SYS` vector (last three); what R204 refuses is refused
there too. The schedule, the place of the indexes and the level's place in the state are the model's (log entries 1, 7,
10, 11). -/
def Obligations.StepRunsTheDecodedOperation : Prop :=
  ∀ (p : Params) (h : Hw p) (st : Stimulus) (i : Instr) (rest : List Line), p.legal = true →
    h.model.schedule = Line.present st :: rest → decode p st = .ok i →
    (h.model.sysLevel = 0#2 → (∀ v, st ≠ .sys v) →
      step ⟨p, h⟩ = exec i ⟨p, { h with model := { h.model with
        schedule := rest
        index := (agentsOf i).foldl AgentIndex.bump h.model.index } }⟩) ∧
    (h.model.sysLevel = 0#2 → ∀ v, st = .sys v →
      step ⟨p, h⟩ = exec i ⟨p, { h with model := { h.model with
        schedule := rest
        index := (agentsOf i).foldl AgentIndex.bump h.model.index
        sysLevel := v } }⟩) ∧
    (h.model.sysLevel ≠ 0#2 → (∀ v, st ≠ .sys v) → refusalOf p i = none →
      step ⟨p, h⟩ = .next ⟨p, { h with model := { h.model with schedule := rest } }⟩) ∧
    (h.model.sysLevel ≠ 0#2 → (∀ v, st ≠ .sys v) → ∀ r, refusalOf p i = some r →
      step ⟨p, h⟩ = .next ⟨p, { h with model := { h.model with
        schedule := rest
        refused := true
        refusals := h.model.refusals.insert r } }⟩) ∧
    (h.model.sysLevel ≠ 0#2 → ∀ v, st = .sys v →
      step ⟨p, h⟩ = .next ⟨p, { h with model := { h.model with schedule := rest, sysLevel := v } }⟩)

/-- R232 and R204: with nothing presented the block does nothing; at a parameter set outside R6 every line is refused
(log entries 1 and 20). -/
def Obligations.StepWithoutAnOperation : Prop :=
  ∀ (p : Params) (h : Hw p),
    (h.model.schedule = [] → step ⟨p, h⟩ = .next ⟨p, h⟩) ∧
    (∀ (l : Line) (rest : List Line), h.model.schedule = l :: rest → p.legal = false →
      step ⟨p, h⟩ = .next ⟨p, { h with model := { h.model with
        schedule := rest
        refused := true
        refusals := { h.model.refusals with config := true } } }⟩)

/-- R97: `R.DRAIN` is the GET of R108, then, only if it returned SUCCESS, FIR_UPDATE of the value it wrote to `rdata_q`.
Each of its steps is `exec` of the operation at the state with the line taken and the CONSUMER's index advanced (log
entries 1, 10, 14). A GET that meets an `UNSPEC` slot records `F_READ_UNSPEC`, and no FIR step follows. The clauses are
for `SYS` at `00`; while the block is held the line is passed over (R81; last clause). -/
def Obligations.DrainFeedsTheFilterAfterSuccess : Prop :=
  ∀ (p : Params) (h : Hw p) (rest : List Line), p.legal = true →
    h.model.schedule = .basic .drain :: rest →
    (∀ (i : Instr) (ls : List Line), i = .get ∨ (∃ x, i = .firUpdate x) → h.take i ls = { h with model := { h.model with
      schedule := ls
      index := { h.model.index with consumer := h.model.index.consumer + 1 } } }) ∧
    (∀ d, h.model.sysLevel = 0#2 → h.fifo.rempty = false → Memory.read h.fifo.mem h.fifo.rbin.toNat = .val d →
      step ⟨p, h⟩ = exec .get ⟨p, h.take .get (.basic .feedRdata :: rest)⟩ ∧
      ∃ t : Hw p, step ⟨p, h⟩ = .next ⟨p, t⟩ ∧
        t = { h with
          fifo := { h.fifo with
            rdataQ := .val d
            rbin := inc h.fifo.rbin
            rgray := gray (inc h.fifo.rbin)
            gstQ := .success }
          model := { h.model with
            schedule := .basic .feedRdata :: rest
            index := { h.model.index with consumer := h.model.index.consumer + 1 }
            events := h.model.events ++ [.gstValid .success (some d)] } } ∧
        step ⟨p, t⟩ = exec (.firUpdate d.toNat) ⟨p, t.take (.firUpdate d.toNat) rest⟩) ∧
    (h.model.sysLevel = 0#2 → h.fifo.rempty = true →
      step ⟨p, h⟩ = exec .get ⟨p, h.take .get rest⟩ ∧
      step ⟨p, h⟩ = .next ⟨p, { h with
        fifo := { h.fifo with gstQ := .underflow }
        model := { h.model with
          schedule := rest
          index := { h.model.index with consumer := h.model.index.consumer + 1 }
          events := h.model.events ++ [.gstValid .underflow none] } }⟩) ∧
    (h.model.sysLevel = 0#2 → h.fifo.rempty = false → Memory.read h.fifo.mem h.fifo.rbin.toNat = .unspec →
      step ⟨p, h⟩ = exec .get ⟨p, h.take .get rest⟩ ∧
      step ⟨p, h⟩ = .next ⟨p, { h with model := { h.model with
        schedule := rest
        index := { h.model.index with consumer := h.model.index.consumer + 1 }
        faults := { h.model.faults with readUnspec := true } } }⟩) ∧
    (h.model.sysLevel ≠ 0#2 →
      step ⟨p, h⟩ = .next ⟨p, { h with model := { h.model with schedule := rest } }⟩)

/-- R203: a consumer that uses `rdata_q` while it is `UNSPEC` records `F_READ_UNSPEC`, and no block changes. That it is
recorded also while `SYS` holds the block is the model's choice (log entry 11); the line is log entry 14. -/
def Obligations.UseOfUnwrittenRdataIsAFault : Prop :=
  ∀ (p : Params) (h : Hw p) (rest : List Line), p.legal = true →
    h.model.schedule = .basic .feedRdata :: rest → h.fifo.rdataQ = .unspec →
    ∃ t : Hw p, step ⟨p, h⟩ = .next ⟨p, t⟩ ∧
      t.model.faults = { h.model.faults with readUnspec := true } ∧
      t.fifo = h.fifo ∧ t.fir = h.fir ∧ t.sched = h.sched ∧ t.model.schedule = rest ∧
      t.model.refused = h.model.refused ∧ t.model.events = h.model.events

/-- R94, R95, R96: `Y.SETTLE_W`, `Y.SETTLE_R` and `S.ACQUIRE v` are the two steps they expand to, and `Y.SETTLE` the
four; after SETTLE_W `rq2_wgray == wgray`, after SETTLE_R `wq2_rgray == rgray`. `SYS` stands at `00`; what a held
block does with these lines is `HeldSysHoldsTheBlocks`. -/
def Obligations.PseudoOperationsExpand : Prop :=
  ∀ (p : Params) (h : Hw p) (rest : List Line) (v : BitVec p.dataW), p.legal = true → h.model.sysLevel = 0#2 →
    (h.model.schedule = .settleW :: rest →
      ∃ t u : Hw p, step ⟨p, h⟩ = .next ⟨p, t⟩ ∧ step ⟨p, t⟩ = .next ⟨p, u⟩ ∧ u.model.schedule = rest ∧
        u.fifo = h.fifo.wsync.wsync ∧ u.fifo.rq2Wgray = u.fifo.wgray ∧ u.fir = h.fir ∧ u.sched = h.sched) ∧
    (h.model.schedule = .settleR :: rest →
      ∃ t u : Hw p, step ⟨p, h⟩ = .next ⟨p, t⟩ ∧ step ⟨p, t⟩ = .next ⟨p, u⟩ ∧ u.model.schedule = rest ∧
        u.fifo = h.fifo.rsync.rsync ∧ u.fifo.wq2Rgray = u.fifo.rgray ∧ u.fir = h.fir ∧ u.sched = h.sched) ∧
    (h.model.schedule = .settle :: rest →
      ∃ t u : Hw p, step ⟨p, h⟩ = .next ⟨p, t⟩ ∧ step ⟨p, t⟩ = .next ⟨p, u⟩ ∧
        u.fifo = h.fifo.wsync.wsync ∧ u.fir = h.fir ∧ u.sched = h.sched ∧ u.model.schedule = .settleR :: rest) ∧
    (h.model.schedule = .acquire v.toNat :: rest →
      ∃ ls, step ⟨p, h⟩ = exec .tick ⟨p, h.take .tick ls⟩ ∧
        ∀ t : Hw p, step ⟨p, h⟩ = .next ⟨p, t⟩ →
          step ⟨p, t⟩ = exec (.adcDone v.toNat) ⟨p, t.take (.adcDone v.toNat) rest⟩)

/-! ## Reset and invariants -/

/-- R47, R231, R44: what the machine holds right after reset, at the reference parameters of R6 (that reset starts
there is log entry 3; the values of `index`, `nanDraws`, `refusals`, `schedule` and `sysLevel` are the model's, log
entries 1, 7, 8, 10, 11). -/
def Obligations.ResetLeavesTheListedValues : Prop :=
  State.reset.params = { addrW := 3, dataW := 16, lMax := 32, syncStages := 2, cfg := .integrated } ∧
  State.reset.hw.fifo = {
    mem := [], wbin := 0, wgray := 0, wq1Rgray := 0, wq2Rgray := 0, wstQ := .success
    rbin := 0, rgray := 0, rq1Wgray := 0, rq2Wgray := 0, rdataQ := .unspec, gstQ := .success } ∧
  (∀ i, Memory.read State.reset.hw.fifo.mem i = .unspec) ∧
  State.reset.hw.fir = { bound := false, klen := 0, coef := [], hist := [], wcur := 0, y := .unspec, fstQ := .success } ∧
  State.reset.hw.sched = { sstate := .idle, overrun := false, protoErr := false } ∧
  State.reset.hw.model.faults = { firUnbound := false, readUnspec := false } ∧
  State.reset.hw.model.refused = false ∧ State.reset.hw.model.events = [] ∧
  State.reset.hw.model.refusals =
    { nonfiniteTap := false, secondProducer := false, operandRange := false, config := false } ∧
  State.reset.hw.model.index =
    { host := 0, producer := 0, consumer := 0, timer := 0, adc := 0, rsync := 0, wsync := 0 } ∧
  State.reset.hw.model.nanDraws = 0 ∧ State.reset.hw.model.schedule = [] ∧ State.reset.hw.model.sysLevel = 0#2 ∧
  State.reset.hw.fifo.wfull = false ∧ State.reset.hw.fifo.rempty = true ∧
  ∃ t : Hw Config.reference, exec .rst State.reset = .next ⟨Config.reference, t⟩ ∧ t = State.reset.hw

/-- The invariants below hold at reset, for every legal parameter set. -/
def Obligations.InvariantsHoldAtReset : Prop :=
  State.reset.Inv ∧ ∀ p : Params, p.legal = true → State.Inv ⟨p, Hw.reset p⟩

/-- R112, R113, R115, R62: the async_fifo's invariant is kept by every step, from every state that has it. -/
def Obligations.StepKeepsTheFifoInvariant : Prop :=
  ∀ s t : State, s.hw.fifo.Inv → step s = .next t → t.hw.fifo.Inv

/-- R34, R36, R37, R62, R146: the fir_filter_engine's invariant is kept by every step, from every state that has it. -/
def Obligations.StepKeepsTheFirInvariant : Prop :=
  ∀ s t : State, s.hw.fir.Inv → step s = .next t → t.hw.fir.Inv

/-- R6, R210, R204: parameters never change, and what the wiring of `CFG` keeps is kept by every step. -/
def Obligations.StepKeepsTheWiring : Prop :=
  ∀ s t : State, step s = .next t → t.params = s.params ∧ (s.hw.WiringInv → t.hw.WiringInv)

/-- R200, R207: no abrupt termination: from a state with the FIR invariant every step answers a next state, whatever
the schedule holds. -/
def Obligations.StepAlwaysAnswersANextState : Prop :=
  ∀ s : State, s.hw.fir.Inv → ∃ t, step s = .next t

/-- R114: the views are conservative, and `wfull` and `rempty` say when they are at their bounds; a full write view does
not imply a full FIFO, nor an empty read view an empty one. -/
def Obligations.ViewsAreConservative : Prop :=
  (∃ (p : Params) (f : Fifo p), p.legal = true ∧ f.Inv ∧ f.wfull = true ∧ f.occ ≠ p.n - 1) ∧
  (∃ (p : Params) (f : Fifo p), p.legal = true ∧ f.Inv ∧ f.rempty = true ∧ f.occ ≠ 0) ∧
  ∀ (p : Params) (f : Fifo p), 1 ≤ p.addrW → f.Inv →
    f.occR ≤ f.occ ∧ f.occ ≤ f.occW ∧ f.occW ≤ p.n - 1 ∧
    (f.wfull = true ↔ f.occW = p.n - 1) ∧ (f.rempty = true ↔ f.occR = 0) ∧
    (f.wfull = false → f.occ < p.n - 1) ∧ (f.rempty = false → 1 ≤ f.occ)

/-- R115: the slot a successful PUT writes lies outside the unread entries and outside what the read domain may read
next; the slot a successful GET reads is written. -/
def Obligations.NoSlotIsWrittenWhileItMayBeRead : Prop :=
  ∀ (p : Params) (f : Fifo p), f.Inv →
    (f.wfull = false → (∀ k, k < f.occ → f.slotAt k ≠ f.wbin.toNat) ∧ ∀ k, k < f.occR → f.slotAt k ≠ f.wbin.toNat) ∧
    (f.rempty = false → ∃ d, Memory.read f.mem f.rbin.toNat = .val d)

/-- R116: a stored value joins the end of the queue, a delivered value is its head, RST and FIFO_INIT empty it, and no
other operation changes it. -/
def Obligations.EachOperationActsOnTheQueueAsOnAList : Prop :=
  ∀ (s t : State) (i : Instr), s.hw.fifo.Inv → exec i s = .next t →
    (i = .rst ∨ i = .fifoInit → t.hw.fifo.queueNat = []) ∧
    (i ≠ .rst → i ≠ .fifoInit →
      s.hw.fifo.queueNat ++ (acceptedBy s i).map some = (deliveredBy s i).map some ++ t.hw.fifo.queueNat)

/-- R116: over any run of operations, in any interleaving, without RST and FIFO_INIT, what was queued and what was
stored is what was delivered and what is queued, in order: nothing is lost or duplicated. -/
def Obligations.NothingIsLostOrDuplicated : Prop :=
  ∀ (s t : State) (ops : List Instr), s.hw.fifo.Inv → (∀ i ∈ ops, i ≠ .rst ∧ i ≠ .fifoInit) →
    runOps ops s = .next t →
    s.hw.fifo.queueNat ++ (alongRun acceptedBy ops s).map some =
      (alongRun deliveredBy ops s).map some ++ t.hw.fifo.queueNat

/-- R117: an operation whose offered value meets a full write view stores it nowhere: the whole FIFO but `wst_q` is as
before, the queue among it. -/
def Obligations.RejectedValueIsStoredNowhere : Prop :=
  ∀ (p : Params) (h t : Hw p) (i : Instr), h.fifo.wfull = true → offeredBy ⟨p, h⟩ i ≠ [] →
    exec i ⟨p, h⟩ = .next ⟨p, t⟩ →
    t.fifo = { h.fifo with wstQ := .overflow } ∧ t.fifo.queue = h.fifo.queue

/-- R118: two RSYNC steps with no successful GET between or after them make the write view exact, two WSYNC steps with
no successful PUT between or after them the read view; an exact view counts the unread entries; RST and FIFO_INIT
leave the FIFO quiescent. -/
def Obligations.TwoSynchroniserStepsMakeAViewExact : Prop :=
  (∀ (s u t : State) (a b : List Instr), exec .rsync s = .next u → runOps (a ++ .rsync :: b) u = .next t →
    alongRun deliveredBy (a ++ .rsync :: b) u = [] → t.hw.fifo.wq2Rgray = t.hw.fifo.rgray) ∧
  (∀ (s u t : State) (a b : List Instr), exec .wsync s = .next u → runOps (a ++ .wsync :: b) u = .next t →
    alongRun acceptedBy (a ++ .wsync :: b) u = [] → t.hw.fifo.rq2Wgray = t.hw.fifo.wgray) ∧
  (∀ (p : Params) (f : Fifo p), 1 ≤ p.addrW → f.Inv →
    (f.wq2Rgray = f.rgray → f.occW = f.occ ∧ (f.wfull = true ↔ f.occ = p.n - 1)) ∧
    (f.rq2Wgray = f.wgray → f.occR = f.occ ∧ (f.rempty = true ↔ f.occ = 0))) ∧
  (∀ (p : Params) (h t : Hw p) (i : Instr), i = .rst ∨ i = .fifoInit → exec i ⟨p, h⟩ = .next ⟨p, t⟩ →
    t.fifo.Quiescent)

/-- R119: from an empty FIFO with an exact write view, in any run with no successful GET (and no RST or FIFO_INIT),
exactly the first `N - 1` offered values are stored, and from then on the write view is full, so that the next PUT
returns OVERFLOW (R107). -/
def Obligations.CapacityIsOneLessThanTheSlots : Prop :=
  ∀ (s t : State) (ops : List Instr), s.params.legal = true → s.hw.fifo.Inv →
    s.hw.fifo.occ = 0 → s.hw.fifo.wq2Rgray = s.hw.fifo.rgray →
    (∀ i ∈ ops, i ≠ .rst ∧ i ≠ .fifoInit) → runOps ops s = .next t → alongRun deliveredBy ops s = [] →
    alongRun acceptedBy ops s = (alongRun offeredBy ops s).take (s.params.n - 1) ∧
    (s.params.n - 1 ≤ (alongRun offeredBy ops s).length → t.hw.fifo.wfull = true)

/-- R120. First clause: after an UNDERFLOW through an exact read view every GET returns UNDERFLOW until a value is
stored and two WSYNC steps follow: `a` is a run that stores nothing, `b` any run after it (it may store) with at most
one WSYNC. Second clause: after an UNDERFLOW through a view that is not exact the second WSYNC makes the entry put
earlier readable, until it is read or the FIFO is reset. -/
def Obligations.EmptyAfterDrainUntilAValueIsStored : Prop :=
  (∀ (s t : State) (a b : List Instr), s.hw.fifo.Inv → s.hw.fifo.rempty = true →
    s.hw.fifo.rq2Wgray = s.hw.fifo.wgray → runOps (a ++ b) s = .next t → alongRun acceptedBy a s = [] →
    b.count .wsync ≤ 1 →
    ∃ u, exec .get t = .next u ∧ u.hw.fifo.gstQ = .underflow ∧ alongRun deliveredBy (a ++ b) s = []) ∧
  (∀ (s u t : State) (a b : List Instr), s.hw.fifo.Inv → s.hw.fifo.rempty = true →
    s.hw.fifo.rq2Wgray ≠ s.hw.fifo.wgray → (∀ i ∈ a ++ b, i ≠ .rst ∧ i ≠ .fifoInit) →
    exec .wsync s = .next u → runOps (a ++ .wsync :: b) u = .next t →
    alongRun deliveredBy (a ++ .wsync :: b) u = [] →
    1 ≤ s.hw.fifo.occ ∧ t.hw.fifo.rempty = false)

/-- R121: every unread entry is readable no later than the second WSYNC, until it is read: of the entries unread at the
first WSYNC, as long as fewer have been delivered than there were, the next is readable, whatever is stored meanwhile.
Every free slot is available to PUT no later than the second RSYNC, until it is used: of the slots free at the first
RSYNC, as long as fewer values have been stored than there were, PUT has room, whatever is read meanwhile. -/
def Obligations.TwoSynchroniserStepsPublish : Prop :=
  ∀ (s u t : State) (a b : List Instr), s.params.legal = true → s.hw.fifo.Inv →
    (∀ i ∈ a ++ b, i ≠ .rst ∧ i ≠ .fifoInit) →
    (exec .wsync s = .next u → runOps (a ++ .wsync :: b) u = .next t →
      (alongRun deliveredBy (a ++ .wsync :: b) u).length < s.hw.fifo.occ →
      t.hw.fifo.rempty = false ∧
      s.hw.fifo.occ - (alongRun deliveredBy (a ++ .wsync :: b) u).length ≤ t.hw.fifo.occR) ∧
    (exec .rsync s = .next u → runOps (a ++ .rsync :: b) u = .next t →
      (alongRun acceptedBy (a ++ .rsync :: b) u).length < s.params.n - 1 - s.hw.fifo.occ →
      t.hw.fifo.wfull = false ∧
      t.hw.fifo.occW ≤ s.hw.fifo.occ + (alongRun acceptedBy (a ++ .rsync :: b) u).length)

/-! ## Whole-machine rules -/

/-- R70, R76, R152, R170: each element is written only by the operations of its domain (besides RST and FIFO_INIT), FIR
state only by FIR operations and RST, scheduler state only by the scheduler's operations and RST. -/
def Obligations.EachDomainWritesOnlyItsOwnState : Prop :=
  ∀ (p : Params) (h t : Hw p) (i : Instr), exec i ⟨p, h⟩ = .next ⟨p, t⟩ →
    (writesWriteSide i = false → t.fifo.writeSide = h.fifo.writeSide) ∧
    (writesReadSide i = false → t.fifo.readSide = h.fifo.readSide) ∧
    (writesFir i = false → t.fir = h.fir) ∧
    (writesSched i = false → t.sched = h.sched)

/-- R70: what each domain can learn of the other: a write-domain operation but RSYNC gives the same write side whatever
the read side holds, RSYNC depends on `rgray` only; a read-domain operation but WSYNC and GET gives the same read side
whatever the write side holds, WSYNC depends on `wgray` only and GET on slot `rbin` only. -/
def Obligations.OnlyGrayPointersAndTheReadSlotCross : Prop :=
  ∀ (p : Params) (h g h' g' : Hw p) (i : Instr),
    exec i ⟨p, h⟩ = .next ⟨p, h'⟩ → exec i ⟨p, g⟩ = .next ⟨p, g'⟩ →
    (h.fifo.writeSide = g.fifo.writeSide → h.sched = g.sched → (i = .rsync → h.fifo.rgray = g.fifo.rgray) →
      h'.fifo.writeSide = g'.fifo.writeSide ∧ h'.sched = g'.sched) ∧
    (h.fifo.readSide = g.fifo.readSide → (i = .wsync → h.fifo.wgray = g.fifo.wgray) →
      (i = .get → Memory.read h.fifo.mem h.fifo.rbin.toNat = Memory.read g.fifo.mem h.fifo.rbin.toNat) →
      h'.fifo.readSide = g'.fifo.readSide)

/-- R41, R42: `overrun` and `proto_err` are cleared only by RST; `overrun` is set only by a TICK during CONV, `proto_err`
only by a converter's report during IDLE. -/
def Obligations.StickyFlagsAreClearedOnlyByRst : Prop :=
  ∀ (p : Params) (h t : Hw p) (i : Instr), exec i ⟨p, h⟩ = .next ⟨p, t⟩ →
    (h.sched.overrun = true → t.sched.overrun = false → i = .rst) ∧
    (h.sched.protoErr = true → t.sched.protoErr = false → i = .rst) ∧
    (h.sched.overrun = false → t.sched.overrun = true → i = .tick ∧ h.sched.sstate = .conv) ∧
    (h.sched.protoErr = false → t.sched.protoErr = true →
      (∃ d, i = .adcDone d ∨ i = .adcDoneTick d) ∧ h.sched.sstate = .idle)

/-- R44: `faults` and `refused` are never cleared, not even by RST, and the event history only grows at its end. -/
def Obligations.MarksAndHistoryAreNeverCleared : Prop :=
  ∀ (p : Params) (h t : Hw p), step ⟨p, h⟩ = .next ⟨p, t⟩ →
    (h.model.refused = true → t.model.refused = true) ∧
    (h.model.faults.firUnbound = true → t.model.faults.firUnbound = true) ∧
    (h.model.faults.readUnspec = true → t.model.faults.readUnspec = true) ∧
    ∃ es, t.model.events = h.model.events ++ es

/-- R203, R207: an operation that records a fault or a refusal changes no block and no event; and from a state with the
invariants GET never meets an `UNSPEC` slot and FIR_UPDATE never reads one. -/
def Obligations.FaultsAndRefusalsChangeNoBlock : Prop :=
  ∀ (p : Params) (h t : Hw p) (i : Instr), exec i ⟨p, h⟩ = .next ⟨p, t⟩ →
    (t.model.faults ≠ h.model.faults ∨ t.model.refusals ≠ h.model.refusals →
      t.fifo = h.fifo ∧ t.fir = h.fir ∧ t.sched = h.sched ∧ t.model.events = h.model.events) ∧
    (h.fifo.Inv → h.fir.Inv → t.model.faults.readUnspec = h.model.faults.readUnspec)

/-! ## Output ports -/

/-- R45, R32, R86, R89: what every level output shows in every state, with the status codes as the ports carry them
(`00` SUCCESS, `01` OVERFLOW, `10` UNDERFLOW, `11` ALLOC_ERROR) and `f_ready` at 1. -/
def Obligations.OutputsShowTheState : Prop :=
  (Status.code .success = 0b00 ∧ Status.code .overflow = 0b01 ∧ Status.code .underflow = 0b10 ∧
    Status.code .allocError = 0b11) ∧
  ∀ (p : Params) (h : Hw p),
    h.outputs = {
      wfull := decide (gray (inc h.fifo.wbin) = h.fifo.wq2Rgray)
      wst := h.fifo.wstQ.code
      rdata := h.fifo.rdataQ
      rempty := decide (h.fifo.rgray = h.fifo.rq2Wgray)
      gst := h.fifo.gstQ.code
      fReady := true
      y := h.fir.y
      fst := h.fir.fstQ.code
      fBound := h.fir.bound
      sBusy := decide (h.sched.sstate = .conv)
      sOverrun := h.sched.overrun
      sProtoErr := h.sched.protoErr }

/-! ## The SYS level -/

/-- R80, R81, R92, R241: `SYS` is a level. A change from `00` to another value is one step, RST or FIFO_INIT; a change
from a value other than `00`, to `00` or to another, is no step and changes only what stands on the port. While it
stands at another value than `00`, whatever line comes, no block and no event changes and the line is taken. A `SYS`
line of R92 is the vector, then its release (where the level stands in the state is log entry 11, the schedule 1). -/
def Obligations.HeldSysHoldsTheBlocks : Prop :=
  ∀ (p : Params) (h : Hw p) (l : Line) (rest : List Line), p.legal = true → h.model.schedule = l :: rest →
    (∀ v, l = Line.present (.sys v) →
      (h.model.sysLevel = 0#2 → v ≠ 0#2 → ∃ i,
        i = (if v = 2#2 then .fifoInit else .rst) ∧ decode p (.sys v) = .ok i ∧
        step ⟨p, h⟩ = exec i ⟨p, { h with model := { h.model with
          schedule := rest
          index := { h.model.index with host := h.model.index.host + 1 }
          sysLevel := v } }⟩) ∧
      (h.model.sysLevel ≠ 0#2 ∨ v = 0#2 →
        step ⟨p, h⟩ = .next ⟨p, { h with model := { h.model with schedule := rest, sysLevel := v } }⟩)) ∧
    (h.model.sysLevel ≠ 0#2 → ∃ t : Hw p, step ⟨p, h⟩ = .next ⟨p, t⟩ ∧
      t.fifo = h.fifo ∧ t.fir = h.fir ∧ t.sched = h.sched ∧ t.model.events = h.model.events ∧
      t.model.nanDraws = h.model.nanDraws ∧ t.model.schedule = l.expand.2 ++ rest ∧
      ((∀ v, l.expand.1 ≠ .stimulus (.sys v)) → t.model.sysLevel = h.model.sysLevel)) ∧
    (∀ v, l = .sysPulse v → step ⟨p, h⟩ = step ⟨p, { h with model := { h.model with
      schedule := Line.present (.sys v) :: Line.present (.sys 0b00) :: rest } }⟩)

/-- R241: every pointer, synchroniser and status register of both domains is reset while `rst` or `fifo_init` is
asserted. It is an invariant: State.reset has it, and every step keeps it from every state that has it, so no edge, no
operation and no other `SYS` vector ends the reset but the release (the level is log entry 11). -/
def Obligations.AssertedSysKeepsTheFifoReset : Prop :=
  (State.reset.hw.model.sysLevel ≠ 0#2 → State.reset.hw.fifo = State.reset.hw.fifo.init) ∧
  ∀ (p : Params) (h t : Hw p), step ⟨p, h⟩ = .next ⟨p, t⟩ →
    (h.model.sysLevel ≠ 0#2 → h.fifo = h.fifo.init) → (t.model.sysLevel ≠ 0#2 → t.fifo = { t.fifo with
      wbin := 0, wgray := 0, wq1Rgray := 0, wq2Rgray := 0, wstQ := .success
      rbin := 0, rgray := 0, rq1Wgray := 0, rq2Wgray := 0, gstQ := .success })

/-- R204, R243: a PUT on `WPORT` with `CFG = INTEGRATED`, a non-zero `SPORT` vector with `CFG = FIFO_UNIT`, and a FIR_INIT
of a legal length with an infinite or NaN tap among taps `0 .. klen_i - 1` are refused whatever stands on `SYS`: the mark
`refused` is set and nothing else changes but the model's own fields: the schedule moves on, the name is recorded, and
the agents' indexes advance only while `SYS` stands at `00` (log entries 1, 7, 10, 11). The operand of the row selected
fits (otherwise `OperandOutOfRangeIsRefused`). -/
def Obligations.RefusalsDoNotDependOnTheSysLevel : Prop :=
  ∀ (p : Params) (h : Hw p) (st : Stimulus) (i : Instr) (rest : List Line), p.legal = true →
    h.model.schedule = Line.present st :: rest → decode p st = .ok i →
    ((p.cfg = .integrated ∧ ∃ x, st = .wport 0b1 x) ∨ (p.cfg = .fifoUnit ∧ ∃ v x, v ≠ 0#2 ∧ st = .sport v x) →
      step ⟨p, h⟩ = .next ⟨p, { h with model := { h.model with
        schedule := rest
        refused := true
        refusals := { h.model.refusals with secondProducer := true }
        index := if h.model.sysLevel = 0#2 then (agentsOf i).foldl AgentIndex.bump h.model.index
          else h.model.index } }⟩) ∧
    (∀ v klenI coef x, st = .fport v klenI coef x → v = 0b10 ∨ v = 0b11 → klenI ≤ p.lMax →
      (∃ j, j < klenI ∧ fExp (BitVec.ofNat 32 (coef / 2 ^ (32 * j))) = 255) →
      step ⟨p, h⟩ = .next ⟨p, { h with model := { h.model with
        schedule := rest
        refused := true
        refusals := { h.model.refusals with nonfiniteTap := true }
        index := if h.model.sysLevel = 0#2 then (agentsOf i).foldl AgentIndex.bump h.model.index
          else h.model.index } }⟩)
end

