-- ==== Sys2Proof/Laws/Gray.lean ====
section
/-!
SUPPORT. Small laws of the pointer functions.
-/

namespace Sys2Proof.Machine

variable {w : Nat}

@[simp] theorem gray_zero : gray 0#w = 0#w := by simp [gray]

/-- A bit of a Gray value (R100). -/
theorem getLsbD_gray (b : BitVec w) (i : Nat) : (gray b).getLsbD i = (b.getLsbD i ^^ b.getLsbD (i + 1)) := by
  simp [gray, Nat.add_comm]

theorem xorShifts_zero (k : Nat) : xorShifts 0#w k = 0#w := by
  induction k with
  | zero => rfl
  | succ k ih => simp [xorShifts, ih]

@[simp] theorem bin_zero : bin 0#w = 0#w := xorShifts_zero w

@[simp] theorem ptrDist_self (a : BitVec w) : ptrDist a a = 0 := by simp [ptrDist]

/-- A distance is below the number of slots. -/
theorem ptrDist_lt (a b : BitVec w) : ptrDist a b < 2 ^ w := (b - a).isLt

/-- The distance is 0 only from a pointer to itself. -/
theorem ptrDist_eq_zero {a b : BitVec w} : ptrDist a b = 0 ↔ a = b := by
  constructor
  · intro h
    have h0 : b - a = 0 := BitVec.eq_of_toNat_eq (by simpa [ptrDist] using h)
    have h1 : b = b - a + a := (BitVec.sub_add_cancel b a).symm
    rw [h1, h0]
    simp
  · rintro rfl
    exact ptrDist_self a

end Sys2Proof.Machine
end

