-- ==== Sys2Proof/Laws/Memory.lean ====
section
/-!
SUPPORT. The laws of the storage arrays: a read after a write, and the canonical form every operation keeps.
-/

namespace Sys2Proof.Machine

variable {w : Nat}

@[simp] theorem read_nil (i : Nat) : Memory.read ([] : Memory w) i = .unspec := rfl

/-- A read of the slot just written gives the value written. -/
@[simp] theorem read_write_same (m : Memory w) (i : Nat) (v : BitVec w) :
    Memory.read (Memory.write m i v) i = .val v := by
  induction m with
  | nil => simp [Memory.write, Memory.read]
  | cons e rest ih =>
    obtain ⟨j, u⟩ := e
    simp only [Memory.write]
    split
    · simp [Memory.read]
    · split
      · simp [Memory.read]
      · next hlt hne => simp [Memory.read, hne, ih]

/-- A write leaves every other slot alone. -/
theorem read_write_other (m : Memory w) {i k : Nat} (v : BitVec w) (hk : k ≠ i) :
    Memory.read (Memory.write m i v) k = Memory.read m k := by
  induction m with
  | nil => simp [Memory.write, Memory.read, hk]
  | cons e rest ih =>
    obtain ⟨j, u⟩ := e
    simp only [Memory.write]
    split
    · simp [Memory.read, hk]
    · split
      · next hlt heq => subst heq; simp [Memory.read, hk]
      · simp [Memory.read, ih]

theorem read_write (m : Memory w) (i k : Nat) (v : BitVec w) :
    Memory.read (Memory.write m i v) k = if k = i then .val v else Memory.read m k := by
  split
  · next h => subst h; exact read_write_same m k v
  · next h => exact read_write_other m v h

theorem wfFrom_mono {size lo lo' : Nat} {m : Memory w} (h : Memory.wfFrom size lo m = true) (hl : lo' ≤ lo) :
    Memory.wfFrom size lo' m = true := by
  cases m with
  | nil => rfl
  | cons e rest =>
    simp only [Memory.wfFrom, Bool.and_eq_true, decide_eq_true_eq] at h ⊢
    exact ⟨⟨by omega, h.1.2⟩, h.2⟩

theorem wfFrom_write {size : Nat} (m : Memory w) {lo i : Nat} (v : BitVec w)
    (h : Memory.wfFrom size lo m = true) (hl : lo ≤ i) (hi : i < size) :
    Memory.wfFrom size lo (Memory.write m i v) = true := by
  induction m generalizing lo with
  | nil => simp [Memory.write, Memory.wfFrom, hl, hi]
  | cons e rest ih =>
    obtain ⟨j, u⟩ := e
    simp only [Memory.wfFrom, Bool.and_eq_true, decide_eq_true_eq] at h
    obtain ⟨⟨hj, hjs⟩, hr⟩ := h
    simp only [Memory.write]
    split
    · next hlt => simp [Memory.wfFrom, hl, hi, hjs, hr, Nat.succ_le_of_lt hlt]
    · split
      · next heq => subst heq; simp [Memory.wfFrom, hl, hi, hr]
      · simp [Memory.wfFrom, hj, hjs, ih hr (by omega)]

/-- A write to a slot that exists keeps the canonical form. -/
theorem wf_write {size : Nat} {m : Memory w} {i : Nat} (v : BitVec w) (h : Memory.wf size m = true)
    (hi : i < size) : Memory.wf size (Memory.write m i v) = true :=
  wfFrom_write m v h (Nat.zero_le i) hi

/-- Writing a list of slots that all exist keeps the canonical form. -/
theorem wf_writeFrom {size : Nat} (vs : List (BitVec w)) {m : Memory w} {i : Nat} (h : Memory.wf size m = true)
    (hi : i + vs.length ≤ size) : Memory.wf size (Memory.writeFrom m i vs) = true := by
  induction vs generalizing m i with
  | nil => exact h
  | cons v vs ih =>
    simp only [List.length_cons] at hi
    exact ih (wf_write v h (by omega)) (by omega)

/-- What a list of writes leaves in each slot. -/
theorem read_writeFrom (vs : List (BitVec w)) (m : Memory w) (i k : Nat) :
    Memory.read (Memory.writeFrom m i vs) k =
      if hk : i ≤ k ∧ k - i < vs.length then .val (vs[k - i]'hk.2) else Memory.read m k := by
  induction vs generalizing m i with
  | nil => simp [Memory.writeFrom]
  | cons v vs ih =>
    rw [Memory.writeFrom, ih]
    by_cases h1 : i + 1 ≤ k ∧ k - (i + 1) < vs.length
    · have h2 : i ≤ k ∧ k - i < (v :: vs).length := by simp only [List.length_cons]; omega
      rw [dif_pos h1, dif_pos h2]
      have h3 : k - i = (k - (i + 1)) + 1 := by omega
      simp [h3]
    · rw [dif_neg h1]
      by_cases h4 : k = i
      · subst h4
        rw [read_write_same, dif_pos (by simp)]
        simp
      · rw [read_write_other _ _ h4, dif_neg (by simp only [List.length_cons]; omega)]

/-- The array of a machine just reset is in canonical form. -/
theorem wf_reset (size : Nat) : Memory.wf size ([] : Memory w) = true := rfl

end Sys2Proof.Machine
end

