-- ==== Sys2Proof/Laws/State.lean ====
section
/-!
SUPPORT. What each named update leaves in each field, and the parameters: all true by definition (or by the two cases of an
optional refusal).
-/

namespace Sys2Proof.Machine

variable {p : Params}

/-! ## Marks, events, schedule, indexes -/

@[simp] theorem recordFault_fifo (h : Hw p) (f : ModelFault) : (h.recordFault f).fifo = h.fifo := rfl
@[simp] theorem recordFault_fir (h : Hw p) (f : ModelFault) : (h.recordFault f).fir = h.fir := rfl
@[simp] theorem recordFault_sched (h : Hw p) (f : ModelFault) : (h.recordFault f).sched = h.sched := rfl
@[simp] theorem recordFault_faults (h : Hw p) (f : ModelFault) :
    (h.recordFault f).model.faults = h.model.faults.insert f := rfl
@[simp] theorem recordFault_refused (h : Hw p) (f : ModelFault) :
    (h.recordFault f).model.refused = h.model.refused := rfl
@[simp] theorem recordFault_refusals (h : Hw p) (f : ModelFault) :
    (h.recordFault f).model.refusals = h.model.refusals := rfl
@[simp] theorem recordFault_events (h : Hw p) (f : ModelFault) :
    (h.recordFault f).model.events = h.model.events := rfl
@[simp] theorem recordFault_index (h : Hw p) (f : ModelFault) :
    (h.recordFault f).model.index = h.model.index := rfl
@[simp] theorem recordFault_nanDraws (h : Hw p) (f : ModelFault) :
    (h.recordFault f).model.nanDraws = h.model.nanDraws := rfl
@[simp] theorem recordFault_schedule (h : Hw p) (f : ModelFault) :
    (h.recordFault f).model.schedule = h.model.schedule := rfl

@[simp] theorem refuse_fifo (h : Hw p) (r : RefusalName) : (h.refuse r).fifo = h.fifo := rfl
@[simp] theorem refuse_fir (h : Hw p) (r : RefusalName) : (h.refuse r).fir = h.fir := rfl
@[simp] theorem refuse_sched (h : Hw p) (r : RefusalName) : (h.refuse r).sched = h.sched := rfl
@[simp] theorem refuse_faults (h : Hw p) (r : RefusalName) : (h.refuse r).model.faults = h.model.faults := rfl
@[simp] theorem refuse_refused (h : Hw p) (r : RefusalName) : (h.refuse r).model.refused = true := rfl
@[simp] theorem refuse_refusals (h : Hw p) (r : RefusalName) :
    (h.refuse r).model.refusals = h.model.refusals.insert r := rfl
@[simp] theorem refuse_events (h : Hw p) (r : RefusalName) : (h.refuse r).model.events = h.model.events := rfl
@[simp] theorem refuse_index (h : Hw p) (r : RefusalName) : (h.refuse r).model.index = h.model.index := rfl
@[simp] theorem refuse_nanDraws (h : Hw p) (r : RefusalName) :
    (h.refuse r).model.nanDraws = h.model.nanDraws := rfl
@[simp] theorem refuse_schedule (h : Hw p) (r : RefusalName) :
    (h.refuse r).model.schedule = h.model.schedule := rfl

@[simp] theorem emit_fifo (h : Hw p) (e : Event p.dataW) : (h.emit e).fifo = h.fifo := rfl
@[simp] theorem emit_fir (h : Hw p) (e : Event p.dataW) : (h.emit e).fir = h.fir := rfl
@[simp] theorem emit_sched (h : Hw p) (e : Event p.dataW) : (h.emit e).sched = h.sched := rfl
@[simp] theorem emit_faults (h : Hw p) (e : Event p.dataW) : (h.emit e).model.faults = h.model.faults := rfl
@[simp] theorem emit_refused (h : Hw p) (e : Event p.dataW) : (h.emit e).model.refused = h.model.refused := rfl
@[simp] theorem emit_refusals (h : Hw p) (e : Event p.dataW) : (h.emit e).model.refusals = h.model.refusals := rfl
@[simp] theorem emit_events (h : Hw p) (e : Event p.dataW) :
    (h.emit e).model.events = h.model.events ++ [e] := rfl
@[simp] theorem emit_index (h : Hw p) (e : Event p.dataW) : (h.emit e).model.index = h.model.index := rfl
@[simp] theorem emit_nanDraws (h : Hw p) (e : Event p.dataW) : (h.emit e).model.nanDraws = h.model.nanDraws := rfl
@[simp] theorem emit_schedule (h : Hw p) (e : Event p.dataW) : (h.emit e).model.schedule = h.model.schedule := rfl

@[simp] theorem setSchedule_fifo (h : Hw p) (ls : List Line) : (h.setSchedule ls).fifo = h.fifo := rfl
@[simp] theorem setSchedule_fir (h : Hw p) (ls : List Line) : (h.setSchedule ls).fir = h.fir := rfl
@[simp] theorem setSchedule_sched (h : Hw p) (ls : List Line) : (h.setSchedule ls).sched = h.sched := rfl
@[simp] theorem setSchedule_faults (h : Hw p) (ls : List Line) :
    (h.setSchedule ls).model.faults = h.model.faults := rfl
@[simp] theorem setSchedule_refused (h : Hw p) (ls : List Line) :
    (h.setSchedule ls).model.refused = h.model.refused := rfl
@[simp] theorem setSchedule_refusals (h : Hw p) (ls : List Line) :
    (h.setSchedule ls).model.refusals = h.model.refusals := rfl
@[simp] theorem setSchedule_events (h : Hw p) (ls : List Line) :
    (h.setSchedule ls).model.events = h.model.events := rfl
@[simp] theorem setSchedule_index (h : Hw p) (ls : List Line) :
    (h.setSchedule ls).model.index = h.model.index := rfl
@[simp] theorem setSchedule_nanDraws (h : Hw p) (ls : List Line) :
    (h.setSchedule ls).model.nanDraws = h.model.nanDraws := rfl
@[simp] theorem setSchedule_schedule (h : Hw p) (ls : List Line) : (h.setSchedule ls).model.schedule = ls := rfl

@[simp] theorem take_fifo (h : Hw p) (i : Instr) (ls : List Line) : (h.take i ls).fifo = h.fifo := rfl
@[simp] theorem take_fir (h : Hw p) (i : Instr) (ls : List Line) : (h.take i ls).fir = h.fir := rfl
@[simp] theorem take_sched (h : Hw p) (i : Instr) (ls : List Line) : (h.take i ls).sched = h.sched := rfl
@[simp] theorem take_faults (h : Hw p) (i : Instr) (ls : List Line) :
    (h.take i ls).model.faults = h.model.faults := rfl
@[simp] theorem take_refused (h : Hw p) (i : Instr) (ls : List Line) :
    (h.take i ls).model.refused = h.model.refused := rfl
@[simp] theorem take_refusals (h : Hw p) (i : Instr) (ls : List Line) :
    (h.take i ls).model.refusals = h.model.refusals := rfl
@[simp] theorem take_events (h : Hw p) (i : Instr) (ls : List Line) :
    (h.take i ls).model.events = h.model.events := rfl
@[simp] theorem take_index (h : Hw p) (i : Instr) (ls : List Line) :
    (h.take i ls).model.index = (agentsOf i).foldl AgentIndex.bump h.model.index := rfl
@[simp] theorem take_nanDraws (h : Hw p) (i : Instr) (ls : List Line) :
    (h.take i ls).model.nanDraws = h.model.nanDraws := rfl
@[simp] theorem take_schedule (h : Hw p) (i : Instr) (ls : List Line) : (h.take i ls).model.schedule = ls := rfl

/-! ## The SYS input -/

@[simp] theorem recordFault_sysLevel (h : Hw p) (f : ModelFault) :
    (h.recordFault f).model.sysLevel = h.model.sysLevel := rfl
@[simp] theorem refuse_sysLevel (h : Hw p) (r : RefusalName) :
    (h.refuse r).model.sysLevel = h.model.sysLevel := rfl
@[simp] theorem emit_sysLevel (h : Hw p) (e : Event p.dataW) :
    (h.emit e).model.sysLevel = h.model.sysLevel := rfl
@[simp] theorem setSchedule_sysLevel (h : Hw p) (ls : List Line) :
    (h.setSchedule ls).model.sysLevel = h.model.sysLevel := rfl
@[simp] theorem take_sysLevel (h : Hw p) (i : Instr) (ls : List Line) :
    (h.take i ls).model.sysLevel = h.model.sysLevel := rfl
@[simp] theorem setSys_fifo (h : Hw p) (v : BitVec 2) : (h.setSys v).fifo = h.fifo := rfl
@[simp] theorem setSys_fir (h : Hw p) (v : BitVec 2) : (h.setSys v).fir = h.fir := rfl
@[simp] theorem setSys_sched (h : Hw p) (v : BitVec 2) : (h.setSys v).sched = h.sched := rfl
@[simp] theorem setSys_faults (h : Hw p) (v : BitVec 2) :
    (h.setSys v).model.faults = h.model.faults := rfl
@[simp] theorem setSys_refused (h : Hw p) (v : BitVec 2) :
    (h.setSys v).model.refused = h.model.refused := rfl
@[simp] theorem setSys_refusals (h : Hw p) (v : BitVec 2) :
    (h.setSys v).model.refusals = h.model.refusals := rfl
@[simp] theorem setSys_events (h : Hw p) (v : BitVec 2) :
    (h.setSys v).model.events = h.model.events := rfl
@[simp] theorem setSys_index (h : Hw p) (v : BitVec 2) :
    (h.setSys v).model.index = h.model.index := rfl
@[simp] theorem setSys_nanDraws (h : Hw p) (v : BitVec 2) :
    (h.setSys v).model.nanDraws = h.model.nanDraws := rfl
@[simp] theorem setSys_schedule (h : Hw p) (v : BitVec 2) :
    (h.setSys v).model.schedule = h.model.schedule := rfl
@[simp] theorem setSys_sysLevel (h : Hw p) (v : BitVec 2) : (h.setSys v).model.sysLevel = v := rfl
@[simp] theorem setSys_self (h : Hw p) : h.setSys h.model.sysLevel = h := rfl

/-! ## A refusal in a held block -/

@[simp] theorem refuseIf_none (h : Hw p) : h.refuseIf none = h := rfl
@[simp] theorem refuseIf_some (h : Hw p) (r : RefusalName) : h.refuseIf (some r) = h.refuse r := rfl
@[simp] theorem refuseIf_fifo (h : Hw p) (r : Option RefusalName) : (h.refuseIf r).fifo = h.fifo := by
  cases r <;> rfl
@[simp] theorem refuseIf_fir (h : Hw p) (r : Option RefusalName) : (h.refuseIf r).fir = h.fir := by
  cases r <;> rfl
@[simp] theorem refuseIf_sched (h : Hw p) (r : Option RefusalName) : (h.refuseIf r).sched = h.sched := by
  cases r <;> rfl
@[simp] theorem refuseIf_faults (h : Hw p) (r : Option RefusalName) :
    (h.refuseIf r).model.faults = h.model.faults := by
  cases r <;> rfl
@[simp] theorem refuseIf_events (h : Hw p) (r : Option RefusalName) :
    (h.refuseIf r).model.events = h.model.events := by
  cases r <;> rfl
@[simp] theorem refuseIf_index (h : Hw p) (r : Option RefusalName) :
    (h.refuseIf r).model.index = h.model.index := by
  cases r <;> rfl
@[simp] theorem refuseIf_nanDraws (h : Hw p) (r : Option RefusalName) :
    (h.refuseIf r).model.nanDraws = h.model.nanDraws := by
  cases r <;> rfl
@[simp] theorem refuseIf_schedule (h : Hw p) (r : Option RefusalName) :
    (h.refuseIf r).model.schedule = h.model.schedule := by
  cases r <;> rfl
@[simp] theorem refuseIf_sysLevel (h : Hw p) (r : Option RefusalName) :
    (h.refuseIf r).model.sysLevel = h.model.sysLevel := by
  cases r <;> rfl

/-! ## async_fifo -/

@[simp] theorem init_mem (f : Fifo p) : f.init.mem = f.mem := rfl
@[simp] theorem init_wbin (f : Fifo p) : f.init.wbin = 0 := rfl
@[simp] theorem init_wgray (f : Fifo p) : f.init.wgray = 0 := rfl
@[simp] theorem init_wq1Rgray (f : Fifo p) : f.init.wq1Rgray = 0 := rfl
@[simp] theorem init_wq2Rgray (f : Fifo p) : f.init.wq2Rgray = 0 := rfl
@[simp] theorem init_wstQ (f : Fifo p) : f.init.wstQ = .success := rfl
@[simp] theorem init_rbin (f : Fifo p) : f.init.rbin = 0 := rfl
@[simp] theorem init_rgray (f : Fifo p) : f.init.rgray = 0 := rfl
@[simp] theorem init_rq1Wgray (f : Fifo p) : f.init.rq1Wgray = 0 := rfl
@[simp] theorem init_rq2Wgray (f : Fifo p) : f.init.rq2Wgray = 0 := rfl
@[simp] theorem init_rdataQ (f : Fifo p) : f.init.rdataQ = f.rdataQ := rfl
@[simp] theorem init_gstQ (f : Fifo p) : f.init.gstQ = .success := rfl

@[simp] theorem rsync_mem (f : Fifo p) : f.rsync.mem = f.mem := rfl
@[simp] theorem rsync_wbin (f : Fifo p) : f.rsync.wbin = f.wbin := rfl
@[simp] theorem rsync_wgray (f : Fifo p) : f.rsync.wgray = f.wgray := rfl
@[simp] theorem rsync_wq1Rgray (f : Fifo p) : f.rsync.wq1Rgray = f.rgray := rfl
@[simp] theorem rsync_wq2Rgray (f : Fifo p) : f.rsync.wq2Rgray = f.wq1Rgray := rfl
@[simp] theorem rsync_wstQ (f : Fifo p) : f.rsync.wstQ = f.wstQ := rfl
@[simp] theorem rsync_rbin (f : Fifo p) : f.rsync.rbin = f.rbin := rfl
@[simp] theorem rsync_rgray (f : Fifo p) : f.rsync.rgray = f.rgray := rfl
@[simp] theorem rsync_rq1Wgray (f : Fifo p) : f.rsync.rq1Wgray = f.rq1Wgray := rfl
@[simp] theorem rsync_rq2Wgray (f : Fifo p) : f.rsync.rq2Wgray = f.rq2Wgray := rfl
@[simp] theorem rsync_rdataQ (f : Fifo p) : f.rsync.rdataQ = f.rdataQ := rfl
@[simp] theorem rsync_gstQ (f : Fifo p) : f.rsync.gstQ = f.gstQ := rfl

@[simp] theorem wsync_mem (f : Fifo p) : f.wsync.mem = f.mem := rfl
@[simp] theorem wsync_wbin (f : Fifo p) : f.wsync.wbin = f.wbin := rfl
@[simp] theorem wsync_wgray (f : Fifo p) : f.wsync.wgray = f.wgray := rfl
@[simp] theorem wsync_wq1Rgray (f : Fifo p) : f.wsync.wq1Rgray = f.wq1Rgray := rfl
@[simp] theorem wsync_wq2Rgray (f : Fifo p) : f.wsync.wq2Rgray = f.wq2Rgray := rfl
@[simp] theorem wsync_wstQ (f : Fifo p) : f.wsync.wstQ = f.wstQ := rfl
@[simp] theorem wsync_rbin (f : Fifo p) : f.wsync.rbin = f.rbin := rfl
@[simp] theorem wsync_rgray (f : Fifo p) : f.wsync.rgray = f.rgray := rfl
@[simp] theorem wsync_rq1Wgray (f : Fifo p) : f.wsync.rq1Wgray = f.wgray := rfl
@[simp] theorem wsync_rq2Wgray (f : Fifo p) : f.wsync.rq2Wgray = f.rq1Wgray := rfl
@[simp] theorem wsync_rdataQ (f : Fifo p) : f.wsync.rdataQ = f.rdataQ := rfl
@[simp] theorem wsync_gstQ (f : Fifo p) : f.wsync.gstQ = f.gstQ := rfl

/-! ## fir_filter_engine -/

@[simp] theorem bind_bound (f : Fir p) (k : BitVec p.klw) (ts : List F32) : (f.bind k ts).bound = true := rfl
@[simp] theorem bind_klen (f : Fir p) (k : BitVec p.klw) (ts : List F32) : (f.bind k ts).klen = k := rfl
@[simp] theorem bind_coef (f : Fir p) (k : BitVec p.klw) (ts : List F32) :
    (f.bind k ts).coef = Memory.writeFrom f.coef 0 (boundTaps k.toNat ts) := rfl
@[simp] theorem bind_hist (f : Fir p) (k : BitVec p.klw) (ts : List F32) :
    (f.bind k ts).hist = Memory.writeFrom f.hist 0 (List.replicate k.toNat 0) := rfl
@[simp] theorem bind_wcur (f : Fir p) (k : BitVec p.klw) (ts : List F32) : (f.bind k ts).wcur = 0 := rfl
@[simp] theorem bind_y (f : Fir p) (k : BitVec p.klw) (ts : List F32) : (f.bind k ts).y = .val 0 := rfl
@[simp] theorem bind_fstQ (f : Fir p) (k : BitVec p.klw) (ts : List F32) : (f.bind k ts).fstQ = .success := rfl

@[simp] theorem advance_bound (f : Fir p) (x acc : F32) : (f.advance x acc).bound = f.bound := rfl
@[simp] theorem advance_klen (f : Fir p) (x acc : F32) : (f.advance x acc).klen = f.klen := rfl
@[simp] theorem advance_coef (f : Fir p) (x acc : F32) : (f.advance x acc).coef = f.coef := rfl
@[simp] theorem advance_hist (f : Fir p) (x acc : F32) : (f.advance x acc).hist = f.histAfter x := rfl
@[simp] theorem advance_wcur (f : Fir p) (x acc : F32) :
    (f.advance x acc).wcur = BitVec.ofNat p.klw ((f.wcur.toNat + 1) % f.klen.toNat) := rfl
@[simp] theorem advance_y (f : Fir p) (x acc : F32) : (f.advance x acc).y = .val acc := rfl
@[simp] theorem advance_fstQ (f : Fir p) (x acc : F32) : (f.advance x acc).fstQ = f.fstQ := rfl

end Sys2Proof.Machine
end

