-- ==== Sys2Proof/Laws/Ops.lean ====
section
/-!
SUPPORT. What each shared operation can do, said once: an equation per case of its rule, and what `exec` and `fetch`
can answer.
-/

namespace Sys2Proof.Machine

variable {p : Params}

/-! ## async_fifo -/

/-- PUT while the write view is full (R107). -/
theorem put_full {h : Hw p} (d : BitVec p.dataW) (hf : h.fifo.wfull = true) :
    h.put d = { h with fifo := { h.fifo with wstQ := .overflow } }.emit (.wstValid .overflow) := by
  simp [Hw.put, hf]

/-- PUT while the write view has room (R107). -/
theorem put_room {h : Hw p} (d : BitVec p.dataW) (hf : h.fifo.wfull = false) :
    h.put d = { h with fifo := { h.fifo with
        mem := Memory.write h.fifo.mem h.fifo.wbin.toNat d
        wbin := inc h.fifo.wbin
        wgray := gray (inc h.fifo.wbin)
        wstQ := .success } }.emit (.wstValid .success) := by
  simp [Hw.put, hf]

/-- Everything PUT can do. -/
theorem put_cases (h : Hw p) (d : BitVec p.dataW) :
    (h.fifo.wfull = true ∧
      h.put d = { h with fifo := { h.fifo with wstQ := .overflow } }.emit (.wstValid .overflow)) ∨
    (h.fifo.wfull = false ∧
      h.put d = { h with fifo := { h.fifo with
        mem := Memory.write h.fifo.mem h.fifo.wbin.toNat d
        wbin := inc h.fifo.wbin
        wgray := gray (inc h.fifo.wbin)
        wstQ := .success } }.emit (.wstValid .success)) := by
  cases hf : h.fifo.wfull
  · exact .inr ⟨rfl, put_room d hf⟩
  · exact .inl ⟨rfl, put_full d hf⟩

/-- Everything GET can do (R108, R203). -/
theorem get_cases (h : Hw p) :
    (h.fifo.rempty = true ∧
      h.get = { h with fifo := { h.fifo with gstQ := .underflow } }.emit (.gstValid .underflow none)) ∨
    (h.fifo.rempty = false ∧ Memory.read h.fifo.mem h.fifo.rbin.toNat = .unspec ∧
      h.get = h.recordFault .readUnspec) ∨
    (∃ d, h.fifo.rempty = false ∧ Memory.read h.fifo.mem h.fifo.rbin.toNat = .val d ∧
      h.get = { h with fifo := { h.fifo with
        rdataQ := .val d
        rbin := inc h.fifo.rbin
        rgray := gray (inc h.fifo.rbin)
        gstQ := .success } }.emit (.gstValid .success (some d))) := by
  cases he : h.fifo.rempty
  · cases hr : Memory.read h.fifo.mem h.fifo.rbin.toNat with
    | unspec => exact .inr (.inl ⟨rfl, rfl, by simp [Hw.get, he, hr]⟩)
    | val d => exact .inr (.inr ⟨d, rfl, rfl, by simp [Hw.get, he, hr]⟩)
  · exact .inl ⟨rfl, by simp [Hw.get, he]⟩

/-! ## fir_filter_engine -/

/-- Everything FIR_INIT can do (R144). -/
theorem firInit_cases (h : Hw p) (k : BitVec p.klw) (taps : List F32) :
    (badLength p k = true ∧
      h.firInit k taps =
        { h with fir := { h.fir with bound := false, fstQ := .allocError } }.emit (.firInitResult .allocError)) ∨
    (badLength p k = false ∧ anyNonfinite (boundTaps k.toNat taps) = true ∧
      h.firInit k taps = h.refuse .nonfiniteTap) ∨
    (badLength p k = false ∧ anyNonfinite (boundTaps k.toNat taps) = false ∧
      h.firInit k taps = { h with fir := h.fir.bind k taps }.emit (.firInitResult .success)) := by
  cases hb : badLength p k
  · cases hn : anyNonfinite (boundTaps k.toNat taps)
    · exact .inr (.inr ⟨rfl, rfl, by simp [Hw.firInit, hb, hn]⟩)
    · exact .inr (.inl ⟨rfl, rfl, by simp [Hw.firInit, hb, hn]⟩)
  · exact .inl ⟨rfl, by simp [Hw.firInit, hb]⟩

/-- Everything FIR_UPDATE can do when it answers a state (R145, R203). -/
theorem firUpdate_cases {h h' : Hw p} {d : BitVec p.dataW} (hu : h.firUpdate d = .ok h') :
    (h.fir.bound = false ∧ h' = h.recordFault .firUnbound) ∨
    (h.fir.bound = true ∧ h.fir.pairsAfter (u2f d) = .unspec ∧ h' = h.recordFault .readUnspec) ∨
    (∃ pairs, h.fir.bound = true ∧ h.fir.klen.toNat ≠ 0 ∧ h.fir.klen.toNat ≤ p.lMax ∧ h.fir.wcur.toNat < p.lMax ∧
      h.fir.pairsAfter (u2f d) = .val pairs ∧
      h' = { h with
        fir := h.fir.advance (u2f d) (macLoop pairs 0 h.model.nanDraws)
        model := { h.model with nanDraws := h.model.nanDraws + 2 * pairs.length } }.emit
          (.yValid (macLoop pairs 0 h.model.nanDraws))) := by
  unfold Hw.firUpdate at hu
  split at hu
  · next hb => exact .inl ⟨hb, (Except.ok.inj hu).symm⟩
  · next hb =>
    have hb' : h.fir.bound = true := by simpa using hb
    split at hu
    · cases hu
    · next hk =>
      split at hu
      · cases hu
      · next hr =>
        split at hu
        · next hp => exact .inr (.inl ⟨hb', hp, (Except.ok.inj hu).symm⟩)
        · next pairs hp =>
          exact .inr (.inr ⟨pairs, hb', hk, by omega, by omega, hp, (Except.ok.inj hu).symm⟩)

/-! ## sample_scheduler_interface -/

/-- TICK while IDLE (R172). -/
theorem tick_idle {h : Hw p} (hs : h.sched.sstate = .idle) :
    h.tick = { h with sched := { h.sched with sstate := .conv } }.emit .adcStart := by
  simp [Hw.tick, hs]

/-- TICK while CONV (R172). -/
theorem tick_conv {h : Hw p} (hs : h.sched.sstate = .conv) :
    h.tick = { h with sched := { h.sched with overrun := true } }.emit .tickDropped := by
  simp [Hw.tick, hs]

/-- ADC_DONE while CONV is PUT after the return to IDLE (R173). -/
theorem adcDone_conv {h : Hw p} (d : BitVec p.dataW) (hs : h.sched.sstate = .conv) :
    h.adcDone d = { h with sched := { h.sched with sstate := .idle } }.put d := by
  simp [Hw.adcDone, hs]

/-- ADC_DONE while IDLE (R173). -/
theorem adcDone_idle {h : Hw p} (d : BitVec p.dataW) (hs : h.sched.sstate = .idle) :
    h.adcDone d = { h with sched := { h.sched with protoErr := true } } := by
  simp [Hw.adcDone, hs]

/-! ## exec -/

/-- Everything `exec` can do: it answers a state at the same parameters, or FIR_UPDATE's fault. -/
theorem exec_cases (i : Instr) (h : Hw p) :
    (∃ h', exec i ⟨p, h⟩ = .next ⟨p, h'⟩) ∨
    (∃ d e, i = .firUpdate d ∧ h.firUpdate (sampleIn p d) = .error e ∧ exec i ⟨p, h⟩ = .fault e) := by
  cases i with
  | firUpdate d =>
    cases hu : h.firUpdate (sampleIn p d) with
    | ok h' => exact .inl ⟨h', by simp [exec, execFirUpdate, State.goToOr, State.goTo, hu]⟩
    | error e => exact .inr ⟨d, e, rfl, hu, by simp [exec, execFirUpdate, State.goToOr, hu]⟩
  | _ => exact .inl ⟨_, rfl⟩

/-- No operation changes the parameters. -/
theorem exec_params {i : Instr} {h : Hw p} {t : State} (he : exec i ⟨p, h⟩ = .next t) :
    ∃ h' : Hw p, t = ⟨p, h'⟩ := by
  obtain ⟨h', hn⟩ | ⟨d, e, -, -, hn⟩ := exec_cases i h
  · rw [hn] at he; exact ⟨h', (Host.Outcome.next.inj he).symm⟩
  · rw [hn] at he; cases he

/-- An operation that meets a refusal sets the mark and does nothing else (R204). -/
theorem exec_refusal {i : Instr} {r : RefusalName} (hr : refusalOf p i = some r) (h : Hw p) :
    exec i ⟨p, h⟩ = .next ⟨p, h.refuse r⟩ := by
  have sched : ∀ f : Hw p → Hw p, schedRefusal p = some r → h.asScheduler f = h.refuse r := by
    intro f hs
    unfold schedRefusal at hs
    unfold Hw.asScheduler
    split at hs <;> simp_all
  cases i with
  | put d =>
    simp only [refusalOf] at hr
    simp only [exec, execPut, State.goTo, Hw.asProducer]
    split at hr <;> simp_all
  | firInit k taps =>
    simp only [refusalOf] at hr
    simp only [exec, execFirInit, State.goTo, Hw.firInit]
    split at hr
    · cases hr
    · split at hr <;> simp_all
  | tick => simp only [exec, execTick, State.goTo, sched _ hr]
  | adcDone d => simp only [exec, execAdcDone, State.goTo, sched _ hr]
  | adcDoneTick d => simp only [exec, execAdcDoneTick, State.goTo, sched _ hr]
  | _ => cases hr

/-- PUT leaves what only `step` moves. -/
theorem put_model (h : Hw p) (d : BitVec p.dataW) :
    (h.put d).model.sysLevel = h.model.sysLevel ∧ (h.put d).model.schedule = h.model.schedule ∧
      (h.put d).model.index = h.model.index := by
  obtain ⟨-, he⟩ | ⟨-, he⟩ := put_cases h d <;> rw [he] <;> exact ⟨rfl, rfl, rfl⟩

/-- TICK leaves what only `step` moves. -/
theorem tick_model (h : Hw p) :
    h.tick.model.sysLevel = h.model.sysLevel ∧ h.tick.model.schedule = h.model.schedule ∧
      h.tick.model.index = h.model.index := by
  cases hs : h.sched.sstate
  · rw [tick_idle hs]; exact ⟨rfl, rfl, rfl⟩
  · rw [tick_conv hs]; exact ⟨rfl, rfl, rfl⟩

/-- ADC_DONE leaves what only `step` moves. -/
theorem adcDone_model (h : Hw p) (d : BitVec p.dataW) :
    (h.adcDone d).model.sysLevel = h.model.sysLevel ∧ (h.adcDone d).model.schedule = h.model.schedule ∧
      (h.adcDone d).model.index = h.model.index := by
  cases hs : h.sched.sstate
  · rw [adcDone_idle d hs]; exact ⟨rfl, rfl, rfl⟩
  · rw [adcDone_conv d hs]; exact put_model _ d

/-- An operation moves neither the level on `SYS` nor the schedule nor an index: only `step` does. -/
theorem exec_model {i : Instr} {h t : Hw p} (he : exec i ⟨p, h⟩ = .next ⟨p, t⟩) :
    t.model.sysLevel = h.model.sysLevel ∧ t.model.schedule = h.model.schedule ∧ t.model.index = h.model.index := by
  have refused : ∀ r, (h.refuse r).model.sysLevel = h.model.sysLevel ∧
      (h.refuse r).model.schedule = h.model.schedule ∧ (h.refuse r).model.index = h.model.index :=
    fun _ => ⟨rfl, rfl, rfl⟩
  cases i with
  | put d =>
    cases he
    dsimp only [Hw.asProducer]
    split
    exacts [refused _, put_model _ _]
  | get =>
    cases he
    obtain ⟨-, hg⟩ | ⟨-, -, hg⟩ | ⟨d, -, -, hg⟩ := get_cases h <;> rw [hg] <;> exact ⟨rfl, rfl, rfl⟩
  | firInit k taps =>
    cases he
    obtain ⟨-, hg⟩ | ⟨-, -, hg⟩ | ⟨-, -, hg⟩ := firInit_cases h (klenIn p k) taps <;> rw [hg] <;> exact ⟨rfl, rfl, rfl⟩
  | firUpdate d =>
    cases hu : h.firUpdate (sampleIn p d) with
    | error e => simp [exec, execFirUpdate, State.goToOr, hu] at he
    | ok h' =>
      simp only [exec, execFirUpdate, State.goToOr, hu] at he
      cases he
      obtain ⟨-, rfl⟩ | ⟨-, -, rfl⟩ | ⟨pairs, -, -, -, -, -, rfl⟩ := firUpdate_cases hu <;> exact ⟨rfl, rfl, rfl⟩
  | tick =>
    cases he
    dsimp only [Hw.asScheduler]
    split
    exacts [tick_model _, refused _]
  | adcDone d =>
    cases he
    dsimp only [Hw.asScheduler]
    split
    exacts [adcDone_model _ _, refused _]
  | adcDoneTick d =>
    cases he
    dsimp only [Hw.asScheduler]
    split
    · obtain ⟨h1, h2, h3⟩ := tick_model (h.adcDone (sampleIn p d))
      obtain ⟨g1, g2, g3⟩ := adcDone_model h (sampleIn p d)
      exact ⟨h1.trans g1, h2.trans g2, h3.trans g3⟩
    · exact refused _
  | _ => cases he; exact ⟨rfl, rfl, rfl⟩

/-! ## Decoding -/

/-- The words read off the `coef_i` bus are as many as asked for. -/
@[simp] theorem unpackTaps_length (k bus : Nat) : (unpackTaps k bus).length = k := by
  induction k generalizing bus with
  | zero => rfl
  | succ k ih => simp [unpackTaps, ih]

/-- Word `j` of `coef_i` stands at bits `[32*j+31 : 32*j]` (R63, R82). -/
theorem unpackTaps_getElem? {k j : Nat} (bus : Nat) (hj : j < k) :
    (unpackTaps k bus)[j]? = some (BitVec.ofNat 32 (bus / 2 ^ (32 * j))) := by
  induction k generalizing bus j with
  | zero => omega
  | succ k ih =>
    cases j with
    | zero => simp [unpackTaps]
    | succ j =>
      have hp : 32 * (j + 1) = 32 + 32 * j := by omega
      rw [unpackTaps, List.getElem?_cons_succ, ih _ (by omega), Nat.div_div_eq_div_mul, ← Nat.pow_add, hp]

/-- An operand is accepted exactly when it fits its field (R92). -/
theorem checked_eq_ok {w x : Nat} {f : Field} {i j : Instr} : checked w x f i = .ok j ↔ fits w x = true ∧ i = j := by
  unfold checked
  split <;> simp_all

/-- The decoder gives well-formed operations only (R92). -/
theorem decode_wf {st : Stimulus} {i : Instr} (hd : decode p st = .ok i) : i.wf p = true := by
  unfold decode checked at hd
  split at hd
  all_goals repeat' split at hd
  all_goals cases hd
  all_goals simp_all [Instr.wf]

/-- What the `SYS` vectors select: RST wins over FIFO_INIT (R83, R87). -/
theorem decode_sys (v : BitVec 2) :
    decode p (.sys v) = .ok (if v = 0#2 then .sysNop else if v = 2#2 then .fifoInit else .rst) := by
  simp only [decode]
  revert v
  decide

/-- Only a `SYS` stimulus changes what stands on `SYS` (R80). -/
theorem sysAfter_of_ne_sys {st : Stimulus} (hn : ∀ v, st ≠ .sys v) (lvl : BitVec 2) : st.sysAfter lvl = lvl := by
  cases st with
  | sys v => exact absurd rfl (hn v)
  | _ => rfl

/-! ## step -/

/-- An operation offered while `SYS` stands at `00` runs from the state with its line taken (R81). -/
theorem offer_run {h : Hw p} (h0 : h.model.sysLevel = 0#2) (v : BitVec 2) (i : Instr) (run held : List Line) :
    State.offer ⟨p, h⟩ v i run held = .run i ⟨p, (h.setSys v).take i run⟩ := if_pos h0

/-- An operation offered while the block is held moves only the schedule and the level on `SYS`, and records the refusal
it meets (R81, R204). -/
theorem offer_held {h : Hw p} (h0 : h.model.sysLevel ≠ 0#2) (v : BitVec 2) (i : Instr) (run held : List Line) :
    State.offer ⟨p, h⟩ v i run held = .stay ⟨p, ((h.setSys v).setSchedule held).refuseIf (refusalOf p i)⟩ := if_neg h0

/-- Everything `step` can do: stay with a change of model-only state (nothing at all, a held block, a refusal, or the
fault of a fed `UNSPEC`), or, with `SYS` at `00`, run one well-formed operation, after which `SYS` stands asserted only
if its vector is what was presented. -/
theorem step_cases (h : Hw p) :
    (∃ h' : Hw p, step ⟨p, h⟩ = .next ⟨p, h'⟩ ∧
      (h' = h ∨ (∃ ls r, h' = (h.setSchedule ls).refuse r) ∨
        (∃ ls v r, h.model.sysLevel ≠ 0#2 ∧ h' = ((h.setSys v).setSchedule ls).refuseIf r) ∨
        ∃ ls, h' = (h.take (.firUpdate 0) ls).recordFault .readUnspec)) ∨
    (∃ i v ls, p.legal = true ∧ i.wf p = true ∧ h.model.sysLevel = 0#2 ∧
      (v ≠ 0#2 → decode p (.sys v) = .ok i) ∧ step ⟨p, h⟩ = exec i ⟨p, (h.setSys v).take i ls⟩) := by
  cases hs : h.model.schedule with
  | nil => exact .inl ⟨h, by simp [step, fetch, hs], .inl rfl⟩
  | cons l rest =>
    cases hl : p.legal with
    | false =>
      exact .inl ⟨(h.setSchedule rest).refuse .config, by simp [step, fetch, hs, hl], .inr (.inl ⟨_, _, rfl⟩)⟩
    | true =>
      have hf : fetch ⟨p, h⟩ = fetchBasic ⟨p, h⟩ (l.expand.2 ++ rest) l.expand.1 := by simp [fetch, hs, hl]
      generalize l.expand.2 ++ rest = ls at hf
      generalize l.expand.1 = b at hf
      have offered : ∀ v i run, i.wf p = true → (v = h.model.sysLevel ∨ decode p (.sys v) = .ok i) →
          fetchBasic ⟨p, h⟩ ls b = State.offer ⟨p, h⟩ v i run ls →
          (∃ h' : Hw p, step ⟨p, h⟩ = .next ⟨p, h'⟩ ∧
            ∃ ls v r, h.model.sysLevel ≠ 0#2 ∧ h' = ((h.setSys v).setSchedule ls).refuseIf r) ∨
          ∃ i v ls, true = true ∧ i.wf p = true ∧ h.model.sysLevel = 0#2 ∧
            (v ≠ 0#2 → decode p (.sys v) = .ok i) ∧ step ⟨p, h⟩ = exec i ⟨p, (h.setSys v).take i ls⟩ := by
        intro v i run hw hv hb
        by_cases h0 : h.model.sysLevel = 0#2
        · exact .inr ⟨i, v, run, rfl, hw, h0, fun hn => hv.resolve_left (h0 ▸ hn), by simp only [step, hf, hb, offer_run h0]⟩
        · exact .inl ⟨_, by simp only [step, hf, hb, offer_held h0], ls, v, refusalOf p i, h0, rfl⟩
      cases b with
      | stimulus st =>
        cases hd : decode p st with
        | ok i =>
          have hv : st.sysAfter h.model.sysLevel = h.model.sysLevel ∨
              decode p (.sys (st.sysAfter h.model.sysLevel)) = .ok i := by
            cases st with
            | sys v => exact .inr hd
            | _ => exact .inl rfl
          obtain ⟨h', hn, hh⟩ | hr := offered (st.sysAfter h.model.sysLevel) i ls (decode_wf hd) hv
            (by simp only [fetchBasic, hd])
          exacts [.inl ⟨h', hn, .inr (.inr (.inl hh))⟩, .inr hr]
        | reject f =>
          exact .inl ⟨(h.setSchedule ls).refuse .operandRange, by simp [step, hf, fetchBasic, hd],
            .inr (.inl ⟨_, _, rfl⟩)⟩
      | feedRdata =>
        cases hd : h.fifo.rdataQ with
        | val d =>
          obtain ⟨h', hn, hh⟩ | hr := offered h.model.sysLevel (.firUpdate d.toNat) ls
            (by simp [Instr.wf, fits, d.isLt]) (.inl rfl) (by simp only [fetchBasic, hd])
          exacts [.inl ⟨h', hn, .inr (.inr (.inl hh))⟩, .inr hr]
        | unspec =>
          exact .inl ⟨(h.take (.firUpdate 0) ls).recordFault .readUnspec, by simp [step, hf, fetchBasic, hd],
            .inr (.inr (.inr ⟨_, rfl⟩))⟩
      | drain =>
        obtain ⟨h', hn, hh⟩ | hr := offered h.model.sysLevel .get _ rfl (.inl rfl) rfl
        exacts [.inl ⟨h', hn, .inr (.inr (.inl hh))⟩, .inr hr]

end Sys2Proof.Machine
end

