-- ==== Sys2Proof/Laws/PerInstr.lean ====
section
/-!
SUPPORT. Per-instruction families: statements about an operation as syntax, one lemma per constructor.
-/

namespace Sys2Proof.Laws.RowSelected

/-- The encoder puts an operation on the port group of its row of R83, with a vector that the row selects; an
internal step is on no port (R85). -/
def Statement (i : Instr) : Prop :=
  match i.row with
  | some r => ∃ v, (encode i).vector = some (r.group, v) ∧ r.selects v = true
  | none => (encode i).vector = none

theorem sysNop : Statement .sysNop := ⟨_, rfl, rfl⟩
theorem rst : Statement .rst := ⟨_, rfl, rfl⟩
theorem fifoInit : Statement .fifoInit := ⟨_, rfl, rfl⟩
theorem wNop : Statement .wNop := ⟨_, rfl, rfl⟩
theorem put (wdata : Nat) : Statement (.put wdata) := ⟨_, rfl, rfl⟩
theorem rNop : Statement .rNop := ⟨_, rfl, rfl⟩
theorem get : Statement .get := ⟨_, rfl, rfl⟩
theorem fNop : Statement .fNop := ⟨_, rfl, rfl⟩
theorem firUpdate (fsample : Nat) : Statement (.firUpdate fsample) := ⟨_, rfl, rfl⟩
theorem firInit (klenI : Nat) (taps : List F32) : Statement (.firInit klenI taps) := ⟨_, rfl, rfl⟩
theorem sNop : Statement .sNop := ⟨_, rfl, rfl⟩
theorem tick : Statement .tick := ⟨_, rfl, rfl⟩
theorem adcDone (adcData : Nat) : Statement (.adcDone adcData) := ⟨_, rfl, rfl⟩
theorem adcDoneTick (adcData : Nat) : Statement (.adcDoneTick adcData) := ⟨_, rfl, rfl⟩
theorem rsync : Statement .rsync := rfl
theorem wsync : Statement .wsync := rfl

end Sys2Proof.Laws.RowSelected
end

