-- ==== Sys2Proof/Tests/Slice0.lean ====
section
/-!
SUPPORT. Tests: ill-formed terms refused, decoding of inputs written out from 30_encoding.md, single steps with the
values of 95_test_vectors.md, and a witness for the hypotheses of each statement.
-/

namespace Sys2Proof.Tests

open Sys2Proof Sys2Proof.Machine

/-! ## Ill-formed terms -/

theorem test_wf_put : (Instr.put 0x10000).wf Config.reference = false := by decide
theorem test_wf_firUpdate : (Instr.firUpdate 0x10000).wf Config.reference = false := by decide
theorem test_wf_adcDone : (Instr.adcDone 0x10000).wf Config.reference = false := by decide
theorem test_wf_adcDoneTick : (Instr.adcDoneTick 0x10000).wf Config.reference = false := by decide
/-- V-K5: 64 does not fit `KLW = 6`. -/
theorem test_wf_klen : (Instr.firInit 64 (List.replicate 32 0)).wf Config.reference = false := by decide
theorem test_wf_taps : (Instr.firInit 1 [0x3F800000#32]).wf Config.reference = false := by decide
theorem test_wf_reference : Config.reference.legal = true ∧ Config.reference.n = 8 ∧ Config.reference.klw = 6 := by
  decide
theorem test_legal_addrW : Params.legal ⟨0, 16, 32, 2, .integrated⟩ = false := by decide
theorem test_legal_dataW_zero : Params.legal ⟨3, 0, 32, 2, .integrated⟩ = false := by decide
/-- R204: `DATA_W > 24` is outside R6. -/
theorem test_legal_dataW_wide : Params.legal ⟨3, 25, 32, 2, .integrated⟩ = false := by decide
theorem test_legal_lMax : Params.legal ⟨3, 16, 0, 2, .integrated⟩ = false := by decide
theorem test_legal_syncStages : Params.legal ⟨3, 16, 32, 3, .integrated⟩ = false := by decide

/-! ## Decoding, one input per operation (R80, R83; listings of 95) -/

theorem test_decode_sysNop : decode Config.reference (.sys 0b00) = .ok .sysNop := by decide
/-- V-X2: `SYS = 11` is RST. -/
theorem test_decode_rst : decode Config.reference (.sys 0b11) = .ok .rst := by decide
theorem test_decode_fifoInit : decode Config.reference (.sys 0b10) = .ok .fifoInit := by decide
/-- R84, R82: `wdata` of the NOP row is ignored, whatever it is. -/
theorem test_decode_wNop : decode Config.reference (.wport 0b0 0x10000) = .ok .wNop := by decide
theorem test_decode_put : decode Config.reference (.wport 0b1 0x0011) = .ok (.put 0x11) := by decide
theorem test_decode_rNop : decode Config.reference (.rport 0b0) = .ok .rNop := by decide
theorem test_decode_get : decode Config.reference (.rport 0b1) = .ok .get := by decide
theorem test_decode_fNop : decode Config.reference (.fport 0b00 99 0 0x10000) = .ok .fNop := by decide
theorem test_decode_firUpdate : decode Config.reference (.fport 0b01 99 0 4) = .ok (.firUpdate 4) := by decide
/-- V-K7: FPORT 11 is FIR_INIT. -/
theorem test_decode_firInit :
    decode ⟨2, 8, 3, 2, .integrated⟩ (.fport 0b11 2 0x3F0000003E99999A 0) =
      .ok (.firInit 2 [0x3E99999A#32, 0x3F000000#32, 0x00000000#32]) := by decide
theorem test_decode_sNop : decode Config.reference (.sport 0b00 7) = .ok .sNop := by decide
theorem test_decode_tick : decode Config.reference (.sport 0b01 7) = .ok .tick := by decide
theorem test_decode_adcDone : decode Config.reference (.sport 0b10 0x0005) = .ok (.adcDone 5) := by decide
theorem test_decode_adcDoneTick : decode Config.reference (.sport 0b11 0x0005) = .ok (.adcDoneTick 5) := by decide
theorem test_decode_rsync : decode Config.reference .rsyncEdge = .ok .rsync := by decide
theorem test_decode_wsync : decode Config.reference .wsyncEdge = .ok .wsync := by decide

/-- V-P6: `W.PUT 0x10000` does not fit its field. -/
theorem test_decode_put_range : decode Config.reference (.wport 0b1 0x10000) = .reject .wdata := by decide
theorem test_decode_klen_range : decode Config.reference (.fport 0b10 64 0 0) = .reject .klenI := by decide

/-- The rows of R83: in each group every vector selects exactly one row. -/
theorem test_rows_disjoint_and_cover :
    ∀ g ∈ [Group.sys, .wport, .rport, .fport, .sport], ∀ v : BitVec 2,
      (opcodeRows.filter fun r => decide (r.group = g) && r.selects v).length = 1 := by decide

/-- The words of the opcode table in the model's layout (log entry 2): group in bits 4 to 2, operand from bit 8. -/
theorem test_table_words :
    decodeTableWord 8 0b000_11 = some (.adcDoneTick 0) ∧ decodeTableWord 24 0x0005_02 = some (.adcDone 5) ∧
    decodeTableWord 8 0b001_01 = some .rst ∧ decodeTableWord 24 0x0011_09 = some (.put 0x11) ∧
    decodeTableWord 8 0b011_01 = some .get ∧ decodeTableWord 8 0b101_01 = some .wsync ∧
    decodeTableWord 8 0b110_00 = none := by decide

/-- R83: each row's encoding is read back from the number its stimulus has. -/
theorem test_word_round_trip : ∀ i ∈ [Instr.sysNop, .rst, .fifoInit, .wNop, .put 0xABCD, .rNop, .get, .fNop,
    .firUpdate 0x1234, .sNop, .tick, .adcDone 0xFFFF, .adcDoneTick 1, .rsync, .wsync],
    decodeTableWord 96 (wordOfStimulus (encode i)) = some i := by decide

/-! ## Single steps -/

/-- What a field is in the next state an answer holds. -/
def after {α : Type} (o : Host.Outcome State Fault Refusal) (f : State → α) : Option α :=
  match o with
  | .next t => some (f t)
  | .fault _ => none
  | .refused _ => none

/-- The reference parameters with the given driver of the write port. -/
def ref (cfg : WriteDriver) : Params := { Config.reference with cfg := cfg }

/-- A state just reset, with the given FIFO fields. -/
def withPointers (cfg : WriteDriver) (wbin rbin wq2 rq2 : BitVec 3) (mem : Memory 16) : Hw (ref cfg) :=
  { Hw.reset (ref cfg) with
    fifo := { Fifo.reset (ref cfg) with
      mem := mem, wbin := wbin, wgray := gray wbin, rbin := rbin, rgray := gray rbin, wq2Rgray := wq2, rq2Wgray := rq2 } }

/-- What the tests look at in the FIFO. -/
structure FifoView where
  wbin : Nat
  wgray : Nat
  rbin : Nat
  rgray : Nat
  wst : Status
  gst : Status
  rdata : Option Nat
  deriving DecidableEq, Repr

/-- The FIFO of a state as integers. -/
def fifoView (s : State) : FifoView :=
  { wbin := s.hw.fifo.wbin.toNat, wgray := s.hw.fifo.wgray.toNat, rbin := s.hw.fifo.rbin.toNat
    rgray := s.hw.fifo.rgray.toNat, wst := s.hw.fifo.wstQ, gst := s.hw.fifo.gstQ
    rdata := match s.hw.fifo.rdataQ with
      | .val d => some d.toNat
      | .unspec => none }

/-- A FIFO slot as an integer. -/
def slot (i : Nat) (s : State) : Option Nat :=
  match Memory.read s.hw.fifo.mem i with
  | .val d => some d.toNat
  | .unspec => none

/-- V-G1: the Gray table and its inverse. -/
theorem test_gray_table : ∀ b : BitVec 3,
    (gray b).toNat = [0b000, 0b001, 0b011, 0b010, 0b110, 0b111, 0b101, 0b100].getD b.toNat 0 ∧ bin (gray b) = b := by
  decide

/-- V-W3 and V-W5. -/
theorem test_wfull : (withPointers .fifoUnit 7 3 0b010 0 []).fifo.wfull = false ∧
    (withPointers .fifoUnit 1 2 0b011 0 []).fifo.wfull = true := by decide

/-- V-P2: `wbin = 7`, `wq2_rgray = 010`: slot 7 written, the cursor wraps. -/
theorem test_put_wraps :
    after (exec (.put 0xFFFF) ⟨_, withPointers .fifoUnit 7 3 0b010 0 []⟩) (fun t => (fifoView t, slot 7 t)) =
      some (⟨0, 0, 3, 0b010, .success, .success, none⟩, some 0xFFFF) := by decide

/-- V-P3: the write view is full; `0xBEEF` is stored nowhere. -/
theorem test_put_overflow :
    after (exec (.put 0xBEEF) ⟨_, withPointers .fifoUnit 7 0 0 0 []⟩)
      (fun t => (fifoView t, decide (t.hw.fifo.mem = []))) =
      some (⟨7, 0b100, 0, 0, .overflow, .success, none⟩, true) := by decide

/-- V-R4: `rbin = 7`, `rq2_wgray = 000`, `mem[7] = 0x0042`. -/
theorem test_get_wraps :
    after (exec .get ⟨_, withPointers .fifoUnit 0 7 0b100 0 [(7, 0x0042#16)]⟩)
      (fun t => (fifoView t, t.hw.fifo.rempty)) =
      some (⟨0, 0, 0, 0, .success, .success, some 0x0042⟩, true) := by decide

/-- V-R2: `rgray = rq2_wgray`. -/
theorem test_get_underflow :
    after (exec .get ⟨_, withPointers .fifoUnit 0 0 0 0 []⟩) fifoView =
      some ⟨0, 0, 0, 0, .success, .underflow, none⟩ := by decide

/-- V-S1. -/
theorem test_rsync :
    after (exec .rsync ⟨ref .fifoUnit, { Hw.reset (ref .fifoUnit) with fifo := { Fifo.reset (ref .fifoUnit) with
      rgray := 0b010#3, wq1Rgray := 0b011#3, wq2Rgray := 0b001#3 } }⟩)
      (fun t => (t.hw.fifo.wq2Rgray.toNat, t.hw.fifo.wq1Rgray.toNat)) = some (0b011, 0b010) := by decide

/-- V-S2. -/
theorem test_wsync :
    after (exec .wsync ⟨ref .fifoUnit, { Hw.reset (ref .fifoUnit) with fifo := { Fifo.reset (ref .fifoUnit) with
      wgray := 0b110#3, rq1Wgray := 0b010#3, rq2Wgray := 0b010#3 } }⟩)
      (fun t => (t.hw.fifo.rq2Wgray.toNat, t.hw.fifo.rq1Wgray.toNat)) = some (0b010, 0b110) := by decide

/-- V-I1: FIFO_INIT from `wbin = 5, rbin = 2`; the slots keep their values. -/
theorem test_fifoInit :
    after (exec .fifoInit ⟨_, withPointers .fifoUnit 5 2 0b011 0b111 [(2, 0x33#16), (3, 0x44#16), (4, 0x55#16)]⟩)
      (fun t => (fifoView t, slot 3 t, t.hw.fifo.wfull, t.hw.fifo.rempty)) =
      some (⟨0, 0, 0, 0, .success, .success, none⟩, some 0x44, false, true) := by decide

/-- V-X1: RST keeps `mem` and `faults`, and clears the sticky flags. -/
theorem test_rst :
    after (exec .rst ⟨ref .integrated, { withPointers .integrated 1 1 0 1 [(0, 9#16)] with
      sched := { sstate := .conv, overrun := true, protoErr := true }
      model := { ModelOnly.reset (ref .integrated) with faults := { firUnbound := true, readUnspec := false } } }⟩)
      (fun t => (slot 0 t, t.hw.sched, t.hw.model.faults.firUnbound)) =
      some (some 9, { sstate := .idle, overrun := false, protoErr := false }, true) := by decide

/-- V-P5: PUT on WPORT with `CFG = INTEGRATED`. -/
theorem test_put_refused : after (exec (.put 1) State.reset) (fun t => (t.hw.model.refused, t.hw.fifo.mem.length)) =
    some (true, 0) := by decide

/-- V-D3: TICK with `CFG = FIFO_UNIT`. -/
theorem test_tick_refused :
    after (exec .tick ⟨_, Hw.reset (ref .fifoUnit)⟩) (fun t => (t.hw.model.refused, t.hw.sched.sstate)) =
      some (true, .idle) := by decide

/-- A reset machine with the scheduler in CONV. -/
def inConv (h : Hw (ref .integrated)) : State :=
  ⟨ref .integrated, { h with sched := { h.sched with sstate := .conv } }⟩

/-- V-T1. -/
theorem test_tick_starts : after (exec .tick State.reset) (fun t => t.hw.sched) =
    some { sstate := .conv, overrun := false, protoErr := false } := by decide

/-- V-T2. -/
theorem test_tick_dropped : after (exec .tick (inConv (Hw.reset _))) (fun t => t.hw.sched) =
    some { sstate := .conv, overrun := true, protoErr := false } := by decide

/-- V-A1. -/
theorem test_adcDone_puts :
    after (exec (.adcDone 5) (inConv (Hw.reset _))) (fun t => (fifoView t, slot 0 t, t.hw.sched.sstate)) =
      some (⟨1, 1, 0, 0, .success, .success, none⟩, some 5, .idle) := by decide

/-- V-A3. -/
theorem test_adcDone_unrequested :
    after (exec (.adcDone 7) State.reset) (fun t => (fifoView t, t.hw.sched.protoErr)) =
      some (⟨0, 0, 0, 0, .success, .success, none⟩, true) := by decide

/-- V-D1. -/
theorem test_adcDoneTick_conv :
    after (exec (.adcDoneTick 7) (inConv (Hw.reset _))) (fun t => (slot 0 t, t.hw.sched)) =
      some (some 7, { sstate := .conv, overrun := false, protoErr := false }) := by decide

/-- V-D2. -/
theorem test_adcDoneTick_idle : after (exec (.adcDoneTick 7) State.reset) (fun t => (slot 0 t, t.hw.sched)) =
    some (none, { sstate := .conv, overrun := false, protoErr := true }) := by decide

/-- V-X2: a NOP row changes nothing. -/
theorem test_wNop : exec .wNop State.reset = .next State.reset := rfl

/-! ## The filter -/

/-- What the tests look at in the filter. -/
structure FirView where
  bound : Bool
  klen : Nat
  wcur : Nat
  fst : Status
  y : Elem F32
  deriving DecidableEq, Repr

/-- The filter of a state as integers. -/
def firView (s : State) : FirView :=
  { bound := s.hw.fir.bound, klen := s.hw.fir.klen.toNat, wcur := s.hw.fir.wcur.toNat, fst := s.hw.fir.fstQ
    y := s.hw.fir.y }

/-- A reference machine bound to the given taps, history and cursor. -/
def boundTo (coef hist : Memory 32) (klen wcur : BitVec 6) : State :=
  ⟨ref .integrated, { Hw.reset (ref .integrated) with
    fir := { bound := true, klen := klen, coef := coef, hist := hist, wcur := wcur, y := .val 0, fstQ := .success } }⟩

/-- V-K1. -/
theorem test_firInit :
    after (exec (.firInit 3 ([0x3F000000#32, 0x3E99999A#32, 0x3E4CCCCD#32] ++ List.replicate 29 0)) State.reset)
      (fun t => (firView t, t.hw.fir.coef, t.hw.fir.hist)) =
      some (⟨true, 3, 0, .success, .val 0x00000000#32⟩,
        [(0, 0x3F000000#32), (1, 0x3E99999A#32), (2, 0x3E4CCCCD#32)], [(0, 0#32), (1, 0#32), (2, 0#32)]) := by decide

/-- V-K6: an infinite tap is refused, with no state change. -/
theorem test_firInit_nonfinite :
    after (exec (.firInit 2 (0x7F800000#32 :: 0x3F800000#32 :: List.replicate 30 0)) State.reset)
      (fun t => (firView t, t.hw.model.refused)) = some (⟨false, 0, 0, .success, .unspec⟩, true) := by decide

/-- Program P2 line 6 (V-F2, fourth output): `hist = [1, 2, 3]`, cursor 0, sample 4. -/
theorem test_firUpdate :
    after (exec (.firUpdate 4) (boundTo [(0, 0x3F000000#32), (1, 0x3E99999A#32), (2, 0x3E4CCCCD#32)]
      [(0, 0x3F800000#32), (1, 0x40000000#32), (2, 0x40400000#32)] 3 0))
      (fun t => (firView t, Memory.read t.hw.fir.hist 0)) =
      some (⟨true, 3, 1, .success, .val 0x40533334#32⟩, .val 0x40800000#32) := by decide +kernel

/-- V-F12. -/
theorem test_firUpdate_unbound :
    after (exec (.firUpdate 9) State.reset) (fun t => (firView t, t.hw.model.faults.firUnbound)) =
      some (⟨false, 0, 0, .success, .unspec⟩, true) := by decide

/-- V-F2's intermediate products and sums; V-F7's tie; V-F8's subnormal; V-F9's overflow. -/
theorem test_arithmetic :
    fmul32 0 0x3E99999A 0x40400000 = 0x3F666667#32 ∧ fmul32 0 0x3E4CCCCD 0x40000000 = 0x3ECCCCCD#32 ∧
    fadd32 0 0x40000000 0x3F666667 = 0x4039999A#32 ∧ fadd32 0 0x4039999A 0x3ECCCCCD = 0x40533334#32 ∧
    fadd32 0 0x3F800000 0x4B800000 = 0x4B800000#32 ∧ fmul32 0 0x00000001 0x40400000 = 0x00000003#32 ∧
    fmul32 0 0x7F7FFFFF 0x40000000 = 0x7F800000#32 ∧ u2f (65535#16) = 0x477FFF00#32 := by decide +kernel

/-- R143: zero signs, and V-F11's product. -/
theorem test_zero_signs :
    fadd32 0 0x00000000 0x80000000 = 0x00000000#32 ∧ fadd32 0 0x80000000 0x80000000 = 0x80000000#32 ∧
    fadd32 0 0x40A00000 0xC0A00000 = 0x00000000#32 ∧ fmul32 0 0x80000000 0x40A00000 = 0x80000000#32 := by
  decide +kernel

/-! ## step, schedule, table words -/

/-- V-R3: right after RST the consumer's use of `rdata` records `F_READ_UNSPEC`. -/
theorem test_feed_unspec : after (step (State.reset.pushLine (.basic .feedRdata))) (fun t => t.hw.model.faults) =
    some { firUnbound := false, readUnspec := true } := by decide

/-- R232: with no line nothing happens. -/
theorem test_step_idle : step State.reset = .next State.reset := rfl

/-- A table word placed after reset runs as the first operation. -/
theorem test_withFetchWord :
    after (step (State.reset.withFetchWord 8 1)) (fun t => t.hw.sched.sstate) = some .conv ∧
    after (step (State.reset.withFetchWord 24 0x0005_02)) (fun t => t.hw.sched.protoErr) = some true := by decide

/-- R81: FIFO_INIT asserted (one step), then `10` to `11`: no step, so the engine stays bound; a TICK meets a held
block; the release is no step; then a TICK runs. -/
theorem test_sys_level :
    let s := boundTo [(0, 0x3F800000#32)] [(0, 0#32)] 1 0
    let s1 : Option State := after (step (s.pushLine (Line.present (.sys 0b10)))) id
    let s2 := s1.bind fun t => after (step (t.pushLine (Line.present (.sys 0b11)))) id
    let s3 := s2.bind fun t => after (step (t.pushLine (Line.present (.sport 0b01 0)))) id
    let s4 := s3.bind fun t => after (step (t.pushLine (Line.present (.sys 0b00)))) id
    let s5 := s4.bind fun t => after (step (t.pushLine (Line.present (.sport 0b01 0)))) id
    let view := fun t : State => (t.hw.model.sysLevel, t.hw.fir.bound, t.hw.sched.sstate, t.hw.model.index.host)
    s1.map view = some (0b10, true, .idle, 1) ∧ s2.map view = some (0b11, true, .idle, 1) ∧
    s3.map view = some (0b11, true, .idle, 1) ∧ s5.map view = some (0b00, true, .conv, 1) := by decide

/-- R204: with `CFG = INTEGRATED` a PUT on `WPORT` is refused while RST is asserted too. -/
theorem test_put_refused_while_held :
    after (step (State.pushLine ⟨_, State.reset.hw.setSys 0b01⟩ (Line.present (.wport 0b1 1))))
      (fun t => (t.hw.model.refused, t.hw.model.refusals.secondProducer, t.hw.fifo.mem.length, t.hw.model.index.producer)) =
      some (true, true, 0, 0) := by decide

/-- R92: the `SYS.RST` line asserts and releases. -/
theorem test_sys_rst_line : (after (step (State.reset.pushLine (Line.ofInstr .rst))) id).bind
    (fun t => after (step t) fun u => (t.hw.model.sysLevel, u.hw.model.sysLevel, u.hw.model.schedule)) =
    some (0b01, 0b00, []) := by decide

/-- R86: `OVERFLOW`, `UNDERFLOW` and `ALLOC_ERROR` as their ports show them after program steps that raise them. -/
theorem test_status_ports :
    after (exec (.put 1) ⟨_, withPointers .fifoUnit 7 0 0 0 []⟩) (fun t => t.hw.outputs.wst.toNat) = some 0b01 ∧
    after (exec .get State.reset) (fun t => t.hw.outputs.gst.toNat) = some 0b10 ∧
    after (exec (.firInit 0 (List.replicate 32 0)) State.reset) (fun t => t.hw.outputs.fst.toNat) = some 0b11 := by decide

/-- Log entries 10 and 21: `S.ACQUIRE 0x10000` runs its TICK, then refuses its ADC_DONE line, which advances no
index. -/
theorem test_acquire_out_of_range :
    after (step (State.reset.pushLine (.acquire 0x10000))) (fun t => (t.hw.sched.sstate, t.hw.model.refused)) =
      some (.conv, false) ∧
    after (step (inConv (Hw.reset (ref .integrated)) |>.pushLine (Line.present (.sport 0b10 0x10000))))
      (fun t => (t.hw.sched.sstate, t.hw.model.refused, t.hw.model.index.adc)) = some (.conv, true, 0) := by decide

/-! ## Witnesses for the hypotheses of the statements -/

/-- `ADDR_W = 2`, `DATA_W = 8`, `L_MAX = 3`. -/
def tiny (cfg : WriteDriver) : Params := ⟨2, 8, 3, 2, cfg⟩

/-- One unread entry that the read domain sees, and a bound filter of one tap. -/
def busy (cfg : WriteDriver) : Hw (tiny cfg) :=
  { fifo := { mem := [(0, 7#8)], wbin := 1#2, wgray := 1#2, wq1Rgray := 0#2, wq2Rgray := 0#2, wstQ := .success, rbin := 0#2,
              rgray := 0#2, rq1Wgray := 1#2, rq2Wgray := 1#2, rdataQ := .unspec, gstQ := .success }
    fir := { bound := true, klen := 1, coef := [(0, 0x3F800000#32)], hist := [(0, 0#32)], wcur := 0, y := .val 0,
             fstQ := .success }
    sched := Sched.reset
    model := ModelOnly.reset (tiny cfg) }

/-- `busy` with a full write view: three entries. -/
def full (cfg : WriteDriver) : Hw (tiny cfg) :=
  { busy cfg with fifo := { (busy cfg).fifo with
      mem := [(0, 7#8), (1, 8#8), (2, 9#8)], wbin := 3#2, wgray := 2#2, rq1Wgray := 2#2, rq2Wgray := 2#2 } }

/-- `busy` with the given lines to run. -/
def lines (ls : List Line) : Hw (tiny .fifoUnit) := (busy .fifoUnit).setSchedule ls

/-- `busy` with its entry not yet synchronised into the read domain. -/
def unseen : Hw (tiny .fifoUnit) :=
  { busy .fifoUnit with fifo := { (busy .fifoUnit).fifo with rq1Wgray := 0#2, rq2Wgray := 0#2 } }

theorem witness_busy_fifo_inv (cfg : WriteDriver) : (busy cfg).fifo.Inv := by
  cases cfg <;> exact ⟨by decide, by decide, by decide, by decide, by decide, by decide, by decide⟩

theorem witness_full_fifo_inv (cfg : WriteDriver) : (full cfg).fifo.Inv := by
  cases cfg <;> exact ⟨by decide, by decide, by decide, by decide, by decide, by decide, by decide⟩

theorem witness_reset_fifo_inv : (Hw.reset (tiny .fifoUnit)).fifo.Inv :=
  ⟨by decide, by decide, by decide, by decide, by decide, by decide, by decide⟩

theorem witness_busy_fir_inv (cfg : WriteDriver) : (busy cfg).fir.Inv := by
  have h0 : ∀ i : Nat, i < (busy cfg).fir.klen.toNat → i = 0 := by
    intro i hi
    have : (busy cfg).fir.klen.toNat = 1 := by cases cfg <;> rfl
    omega
  refine ⟨by cases cfg <;> decide, by cases cfg <;> decide, by cases cfg <;> decide, .inl rfl,
    fun _ => by cases cfg <;> decide, fun _ i hi => ?_, fun _ i hi => ?_, fun _ => rfl⟩
  · rw [h0 i hi]
    exact ⟨0x3F800000#32, rfl, by decide⟩
  · rw [h0 i hi]
    exact ⟨0#32, rfl, by decide, by decide⟩

theorem witness_busy_wiring (cfg : WriteDriver) : (busy cfg).WiringInv :=
  ⟨by cases cfg <;> decide, fun _ => rfl, rfl⟩

theorem witness_DecodeOfEncode : (Instr.put 255).wf (tiny .fifoUnit) = true ∧
    (Instr.firInit 3 [1, 2, 3]).wf (tiny .fifoUnit) = true ∧ (Instr.adcDoneTick 0).wf (tiny .integrated) = true := by
  decide

theorem witness_EveryVectorSelectsItsRow :
    255 < 2 ^ (tiny .fifoUnit).dataW ∧ 3 < 2 ^ (tiny .fifoUnit).klw ∧ 2 ^ 96 - 1 < 2 ^ (32 * (tiny .fifoUnit).lMax) := by
  decide

theorem witness_OperandOutOfRange : (tiny .fifoUnit).legal = true ∧ 2 ^ (tiny .fifoUnit).dataW ≤ 256 ∧
    2 ^ (tiny .fifoUnit).klw ≤ 4 ∧
    (lines [Line.present (.wport 0b1 256)]).model.schedule = Line.present (.wport 0b1 256) :: [] ∧
    (lines [Line.present (.fport 0b10 4 0 0)]).model.schedule = Line.present (.fport 0b10 4 0 0) :: [] ∧
    ((lines [Line.present (.wport 0b1 256)]).setSys 0b01).model.schedule = Line.present (.wport 0b1 256) :: [] ∧
    ((lines [Line.present (.wport 0b1 256)]).setSys 0b01).model.sysLevel ≠ 0#2 := by decide

theorem witness_ConsecutiveGray : 1 ≤ (tiny .fifoUnit).addrW := by decide

theorem witness_PutStoresOrOverflows : (tiny .fifoUnit).cfg = .fifoUnit ∧
    gray (inc (full .fifoUnit).fifo.wbin) = (full .fifoUnit).fifo.wq2Rgray ∧
    gray (inc (busy .fifoUnit).fifo.wbin) ≠ (busy .fifoUnit).fifo.wq2Rgray := by decide

theorem witness_SecondProducer : ((tiny .integrated).cfg = .integrated ∧ Instr.put 1 = .put 1) ∧
    ((tiny .fifoUnit).cfg = .fifoUnit ∧ Instr.adcDone 1 = .adcDone 1) := by decide

/-- `busy` with an unwritten slot to read. -/
def unwritten : Hw (tiny .fifoUnit) := { busy .fifoUnit with fifo := { (busy .fifoUnit).fifo with mem := [] } }

theorem witness_GetDeliversOrUnderflows :
    (Hw.reset (tiny .fifoUnit)).fifo.rgray = (Hw.reset (tiny .fifoUnit)).fifo.rq2Wgray ∧
    ((busy .fifoUnit).fifo.rgray ≠ (busy .fifoUnit).fifo.rq2Wgray ∧
      Memory.read (busy .fifoUnit).fifo.mem (busy .fifoUnit).fifo.rbin.toNat = .val 7#8) ∧
    (unwritten.fifo.rgray ≠ unwritten.fifo.rq2Wgray ∧
      Memory.read unwritten.fifo.mem unwritten.fifo.rbin.toNat = .unspec) := by decide

theorem witness_FirInitBindsOrFails :
    (Instr.firInit 0 [0, 0, 0]).wf (tiny .fifoUnit) = true ∧ (Instr.firInit 3 [0, 0, 0]).wf (tiny .fifoUnit) = true ∧
    ((Instr.firInit 33 (List.replicate 32 0)).wf Config.reference = true ∧ Config.reference.lMax < 33) ∧
    fExp 0x7F800000#32 = 255 ∧ fExp 0x3F800000#32 ≠ 255 := by decide

theorem witness_FirUpdateComputesTheConvolution : (Hw.reset (tiny .fifoUnit)).fir.bound = false ∧
    (busy .fifoUnit).fir.Inv ∧ (busy .fifoUnit).fir.bound = true :=
  ⟨rfl, witness_busy_fir_inv _, rfl⟩

theorem witness_OutputIsNeverNegativeZero : (∃ t, exec (.firUpdate 5) ⟨_, busy .fifoUnit⟩ = .next ⟨tiny .fifoUnit, t⟩) ∧
    (busy .fifoUnit).fir.y ≠ .val 0x80000000#32 := ⟨⟨_, rfl⟩, by decide⟩

theorem witness_SampleConversionIsExact : (tiny .fifoUnit).dataW ≤ 24 := by decide

/-- Finite operands with a finite result, with an infinite result, with an exact zero, and at a tie. -/
theorem witness_rounding :
    (fIsFinite 0x3F800000#32 = true ∧ fIsFinite (fadd32 0 0x3F800000 0x4B800000) = true) ∧
    (fIsFinite 0x7F7FFFFF#32 = true ∧ fIsFinite (fadd32 0 0x7F7FFFFF 0x7F7FFFFF) = false) ∧
    fUnits 0x3F800000#32 + fUnits 0xBF800000#32 = 0 ∧
    fIsFinite (fmul32 0 0x7F7FFFFF 0x40000000) = false ∧ fIsFinite (fmul32 0 0x00000001 0x3F000000) = true := by
  decide +kernel

theorem witness_NonfiniteArithmetic : fIsNan 0x7FC00000#32 = true ∧ fIsInf 0x7F800000#32 = true ∧
    fIsInf 0xFF800000#32 = true ∧ fIsFinite 0x3F800000#32 = true ∧ fUnits 0x80000000#32 = 0 ∧
    fUnits 0x3F800000#32 ≠ 0 ∧ (0x7FC00000#32).getLsbD 22 = true := by decide +kernel

/-- Other contents above `klen = 1`. -/
theorem witness_FirUpdateStaysInside : (busy .fifoUnit).fir.Inv ∧
    (∀ i, i < (busy .fifoUnit).fir.klen.toNat →
      Memory.read [(0, 0x3F800000#32), (2, 5#32)] i = Memory.read (busy .fifoUnit).fir.coef i ∧
      Memory.read [(0, 0#32), (1, 9#32)] i = Memory.read (busy .fifoUnit).fir.hist i) ∧
    ∃ t, exec (.firUpdate 5) ⟨_, busy .fifoUnit⟩ = .next ⟨tiny .fifoUnit, t⟩ :=
  ⟨witness_busy_fir_inv _, by decide, _, rfl⟩

/-- Program P3's shape: other operations stand between the updates. -/
def mixedRun : List Instr := [.wsync, .firUpdate 1, .get, .put 9, .firUpdate 2, .rsync, .firUpdate 3, .tick]

theorem witness_SteadyState : (tiny .fifoUnit).legal = true ∧
    (Instr.firInit 2 [0x3F800000, 0x3F000000, 0]).wf (tiny .fifoUnit) = true ∧
    (∀ i (hi : i < [0x3F800000#32, 0x3F000000#32, 0#32].length), i < 2 →
      fIsFinite [0x3F800000#32, 0x3F000000#32, 0#32][i] = true) ∧
    (∀ i ∈ mixedRun, (∃ x, i = .firUpdate x) ∨ writesFir i = false) ∧ samplesOf mixedRun = [1, 2, 3] ∧
    (∃ t, runOps (.firInit 2 [0x3F800000, 0x3F000000, 0] :: mixedRun) ⟨_, busy .fifoUnit⟩ = .next t) ∧
    ∀ i ∈ [1, 2, 3].map Instr.firUpdate, ∃ x, i = .firUpdate x := by
  refine ⟨by decide, by decide, by decide, ?_, rfl, ⟨_, rfl⟩, ?_⟩
  · simp [mixedRun, writesFir]
  · simp

theorem witness_scheduler : (tiny .integrated).cfg = .integrated ∧ (busy .integrated).sched.sstate = .idle ∧
    (inConv (Hw.reset _)).hw.sched.sstate = .conv ∧
    gray (inc (inConv (Hw.reset _)).hw.fifo.wbin) ≠ (inConv (Hw.reset _)).hw.fifo.wq2Rgray ∧
    gray (inc (inConv (withPointers .integrated 7 0 0 0 [])).hw.fifo.wbin) =
      (inConv (withPointers .integrated 7 0 0 0 [])).hw.fifo.wq2Rgray := by decide

/-- `busy` with the given lines to run while `v` stands on `SYS`. -/
def heldAt (v : BitVec 2) (ls : List Line) : Hw (tiny .fifoUnit) := (lines ls).setSys v

theorem witness_StepRunsTheDecodedOperation : (tiny .fifoUnit).legal = true ∧
    ((lines [Line.present (.rport 0b1)]).model.schedule = Line.present (.rport 0b1) :: [] ∧
      (lines [Line.present (.rport 0b1)]).model.sysLevel = 0#2 ∧ decode (tiny .fifoUnit) (.rport 0b1) = .ok .get) ∧
    ((lines [Line.present (.sys 0b11)]).model.schedule = Line.present (.sys 0b11) :: [] ∧
      decode (tiny .fifoUnit) (.sys 0b11) = .ok .rst) ∧
    ((heldAt 0b10 [Line.present (.rport 0b1)]).model.schedule = Line.present (.rport 0b1) :: [] ∧
      refusalOf (tiny .fifoUnit) .get = none ∧
      (heldAt 0b10 [Line.present (.sport 0b01 0)]).model.schedule = Line.present (.sport 0b01 0) :: [] ∧
      decode (tiny .fifoUnit) (.sport 0b01 0) = .ok .tick ∧
      refusalOf (tiny .fifoUnit) .tick = some .secondProducer ∧
      (heldAt 0b10 [Line.present (.rport 0b1)]).model.sysLevel ≠ 0#2) ∧
    (heldAt 0b10 [Line.present (.sys 0b11)]).model.schedule = Line.present (.sys 0b11) :: [] := by decide

theorem witness_HeldSysHoldsTheBlocks :
    (heldAt 0b01 [.basic .drain]).model.schedule = .basic .drain :: [] ∧
    (heldAt 0b01 [.basic .drain]).model.sysLevel ≠ 0#2 ∧
    (lines [Line.present (.sys 0b10)]).model.sysLevel = 0#2 ∧
    (heldAt 0b01 [Line.present (.sys 0b00)]).model.schedule = Line.present (.sys 0b00) :: [] ∧
    (lines [.sysPulse 0b01]).model.schedule = .sysPulse 0b01 :: [] := by decide

/-- A PUT of the second producer, a TICK of the second producer, and a FIR_INIT of an infinite tap, in a held block; and
one of them with nothing asserted. -/
theorem witness_RefusalsDoNotDependOnTheSysLevel :
    ((tiny .integrated).legal = true ∧ (tiny .integrated).cfg = .integrated ∧
      (((busy .integrated).setSchedule [Line.present (.wport 0b1 3)]).setSys 0b01).model.schedule =
        Line.present (.wport 0b1 3) :: [] ∧ decode (tiny .integrated) (.wport 0b1 3) = .ok (.put 3)) ∧
    ((tiny .fifoUnit).cfg = .fifoUnit ∧
      (heldAt 0b01 [Line.present (.sport 0b01 0)]).model.schedule = Line.present (.sport 0b01 0) :: [] ∧
      decode (tiny .fifoUnit) (.sport 0b01 0) = .ok .tick ∧
      (lines [Line.present (.sport 0b01 0)]).model.sysLevel = 0#2) ∧
    ((heldAt 0b01 [Line.present (.fport 0b11 3 (0x7F800000 * 2 ^ 64) 0)]).model.schedule =
        Line.present (.fport 0b11 3 (0x7F800000 * 2 ^ 64) 0) :: [] ∧
      decode (tiny .fifoUnit) (.fport 0b11 3 (0x7F800000 * 2 ^ 64) 0) = .ok (.firInit 3 [0#32, 0#32, 0x7F800000#32]) ∧
      3 ≤ (tiny .fifoUnit).lMax ∧ 2 < 3 ∧
      fExp (BitVec.ofNat 32 (0x7F800000 * 2 ^ 64 / 2 ^ (32 * 2))) = 255) := by decide

/-- From nothing asserted to FIFO_INIT asserted. -/
theorem witness_AssertedSysKeepsTheFifoReset :
    ((lines [Line.present (.sys 0b10)]).model.sysLevel ≠ 0#2 →
      (lines [Line.present (.sys 0b10)]).fifo = (lines [Line.present (.sys 0b10)]).fifo.init) ∧
    ∃ t : Hw (tiny .fifoUnit), step ⟨_, lines [Line.present (.sys 0b10)]⟩ = .next ⟨tiny .fifoUnit, t⟩ ∧
      t.model.sysLevel ≠ 0#2 := ⟨by decide, _, rfl, by decide⟩

theorem witness_StepWithoutAnOperation : (busy .fifoUnit).model.schedule = [] ∧
    (((Hw.reset ⟨2, 25, 3, 2, .fifoUnit⟩).setSchedule [.settle]).model.schedule = .settle :: [] ∧
      Params.legal ⟨2, 25, 3, 2, .fifoUnit⟩ = false) := by decide

/-- The drain's three cases: a readable slot, an empty read view, and (in no run from RST) an `UNSPEC` slot. -/
theorem witness_DrainFeedsTheFilter : (tiny .fifoUnit).legal = true ∧
    ((unwritten.setSchedule [.basic .drain]).model.schedule = .basic .drain :: [] ∧
      (unwritten.setSchedule [.basic .drain]).fifo.rempty = false ∧
      Memory.read (unwritten.setSchedule [.basic .drain]).fifo.mem
        (unwritten.setSchedule [.basic .drain]).fifo.rbin.toNat = .unspec) ∧
    ((lines [.basic .drain]).model.schedule = .basic .drain :: [] ∧ (lines [.basic .drain]).fifo.rempty = false ∧
      Memory.read (lines [.basic .drain]).fifo.mem (lines [.basic .drain]).fifo.rbin.toNat = .val 7#8) ∧
    (((Hw.reset (tiny .fifoUnit)).setSchedule [.basic .drain]).model.schedule = .basic .drain :: [] ∧
      ((Hw.reset (tiny .fifoUnit)).setSchedule [.basic .drain]).fifo.rempty = true) ∧
    (lines [.basic .drain]).model.sysLevel = 0#2 := by decide

theorem witness_UseOfUnwrittenRdata : (tiny .fifoUnit).legal = true ∧
    (lines [.basic .feedRdata]).model.schedule = .basic .feedRdata :: [] ∧
    (lines [.basic .feedRdata]).fifo.rdataQ = .unspec ∧
    ((lines [.basic .feedRdata]).setSys 0b10).model.schedule = .basic .feedRdata :: [] ∧
    ((lines [.basic .feedRdata]).setSys 0b10).fifo.rdataQ = .unspec ∧
    ((lines [.basic .feedRdata]).setSys 0b10).model.sysLevel ≠ 0#2 := by decide

theorem witness_PseudoOperations : (tiny .fifoUnit).legal = true ∧ (lines []).model.sysLevel = 0#2 ∧
    (lines [.settleW]).model.schedule = .settleW :: [] ∧
    (lines [.settleR]).model.schedule = .settleR :: [] ∧ (lines [.settle]).model.schedule = .settle :: [] ∧
    (lines [.acquire 5]).model.schedule = .acquire (5#8).toNat :: [] := by decide

theorem witness_StepKeepsInvariants : (lines [Line.present (.wport 0b1 3)]).fifo.Inv ∧
    (lines [Line.present (.wport 0b1 3)]).fir.Inv ∧ (busy .fifoUnit).WiringInv ∧
    ∃ t, step ⟨_, lines [Line.present (.wport 0b1 3)]⟩ = .next t :=
  ⟨witness_busy_fifo_inv _, witness_busy_fir_inv _, witness_busy_wiring _, _, rfl⟩

theorem witness_ViewsAreConservative : 1 ≤ (tiny .fifoUnit).addrW ∧ (busy .fifoUnit).fifo.Inv ∧
    (busy .fifoUnit).fifo.wfull = false ∧ (busy .fifoUnit).fifo.rempty = false ∧ (full .fifoUnit).fifo.Inv ∧
    (full .fifoUnit).fifo.wfull = true :=
  ⟨by decide, witness_busy_fifo_inv _, by decide, by decide, witness_full_fifo_inv _, by decide⟩

theorem witness_EachOperationActsOnTheQueue : (busy .fifoUnit).fifo.Inv ∧
    (∃ t, exec (.put 3) ⟨_, busy .fifoUnit⟩ = .next t) ∧ (∃ t, exec .get ⟨_, busy .fifoUnit⟩ = .next t) ∧
    ∃ t, exec .fifoInit ⟨_, busy .fifoUnit⟩ = .next t :=
  ⟨witness_busy_fifo_inv _, ⟨_, rfl⟩, ⟨_, rfl⟩, _, rfl⟩

theorem witness_NothingIsLostOrDuplicated : (busy .fifoUnit).fifo.Inv ∧
    (∀ i ∈ [Instr.put 3, .wsync, .get, .wsync, .get], i ≠ .rst ∧ i ≠ .fifoInit) ∧
    (∃ t, runOps [Instr.put 3, .wsync, .get, .wsync, .get] ⟨_, busy .fifoUnit⟩ = .next t) ∧
    alongRun deliveredBy [Instr.put 3, .wsync, .get, .wsync, .get] ⟨_, busy .fifoUnit⟩ = [7, 3] :=
  ⟨witness_busy_fifo_inv _, by decide, ⟨_, rfl⟩, by decide⟩

theorem witness_RejectedValue : (full .fifoUnit).fifo.wfull = true ∧
    offeredBy ⟨_, full .fifoUnit⟩ (.put 3) ≠ [] ∧ ∃ t, exec (.put 3) ⟨_, full .fifoUnit⟩ = .next ⟨tiny .fifoUnit, t⟩ :=
  ⟨by decide, by decide, _, rfl⟩

theorem witness_TwoSynchroniserSteps :
    (∃ u t, exec .rsync ⟨_, busy .fifoUnit⟩ = .next u ∧ runOps ([.put 3] ++ .rsync :: [.wsync]) u = .next t ∧
      alongRun deliveredBy ([.put 3] ++ .rsync :: [.wsync]) u = []) ∧
    (∃ u t, exec .wsync ⟨_, busy .fifoUnit⟩ = .next u ∧ runOps ([.get] ++ .wsync :: [.rsync]) u = .next t ∧
      alongRun acceptedBy ([.get] ++ .wsync :: [.rsync]) u = []) ∧
    (1 ≤ (tiny .fifoUnit).addrW ∧ (busy .fifoUnit).fifo.Inv ∧ (busy .fifoUnit).fifo.wq2Rgray = (busy .fifoUnit).fifo.rgray ∧
      (busy .fifoUnit).fifo.rq2Wgray = (busy .fifoUnit).fifo.wgray) ∧
    ∃ t, exec .rst ⟨_, busy .fifoUnit⟩ = .next ⟨tiny .fifoUnit, t⟩ :=
  ⟨⟨_, _, rfl, rfl, by decide⟩, ⟨_, _, rfl, rfl, by decide⟩,
    ⟨by decide, witness_busy_fifo_inv _, by decide, by decide⟩, _, rfl⟩

theorem witness_Capacity : (tiny .fifoUnit).legal = true ∧ (Hw.reset (tiny .fifoUnit)).fifo.Inv ∧
    (Hw.reset (tiny .fifoUnit)).fifo.occ = 0 ∧
    (Hw.reset (tiny .fifoUnit)).fifo.wq2Rgray = (Hw.reset (tiny .fifoUnit)).fifo.rgray ∧
    (∃ t, runOps [.put 1, .put 2, .rsync, .put 3, .put 4] ⟨_, Hw.reset (tiny .fifoUnit)⟩ = .next t) ∧
    alongRun deliveredBy [.put 1, .put 2, .rsync, .put 3, .put 4] ⟨_, Hw.reset (tiny .fifoUnit)⟩ = [] ∧
    (tiny .fifoUnit).n - 1 ≤
      (alongRun offeredBy [.put 1, .put 2, .rsync, .put 3, .put 4] ⟨_, Hw.reset (tiny .fifoUnit)⟩).length :=
  ⟨by decide, witness_reset_fifo_inv, by decide, by decide, ⟨_, rfl⟩, by decide, by decide⟩

/-- One value stored and one WSYNC after it: still empty for the reader; and an entry not yet synchronised. -/
theorem witness_EmptyAfterDrain : ((Hw.reset (tiny .fifoUnit)).fifo.Inv ∧ (Hw.reset (tiny .fifoUnit)).fifo.rempty = true ∧
    (Hw.reset (tiny .fifoUnit)).fifo.rq2Wgray = (Hw.reset (tiny .fifoUnit)).fifo.wgray ∧
    (∃ t, runOps ([.wsync, .get] ++ [.put 1, .wsync]) ⟨_, Hw.reset (tiny .fifoUnit)⟩ = .next t) ∧
    alongRun acceptedBy [.wsync, .get] ⟨_, Hw.reset (tiny .fifoUnit)⟩ = [] ∧
    [Instr.put 1, .wsync].count .wsync ≤ 1) ∧
    unseen.fifo.Inv ∧ unseen.fifo.rempty = true ∧ unseen.fifo.rq2Wgray ≠ unseen.fifo.wgray ∧
    ∃ u t, exec .wsync ⟨_, unseen⟩ = .next u ∧ runOps ([.get] ++ .wsync :: []) u = .next t ∧
      alongRun deliveredBy ([.get] ++ .wsync :: []) u = [] :=
  ⟨⟨witness_reset_fifo_inv, by decide, by decide, ⟨_, rfl⟩, by decide, by decide⟩,
    ⟨by decide, by decide, by decide, by decide, by decide, by decide, by decide⟩, by decide, by decide, _, _, rfl, rfl,
    by decide⟩

/-- Two entries unread, one read and one stored between the synchroniser steps; and a slot used, one freed. -/
def twoUnread : Hw (tiny .fifoUnit) :=
  { busy .fifoUnit with fifo := { (busy .fifoUnit).fifo with
      mem := [(0, 7#8), (1, 8#8)], wbin := 2#2, wgray := 3#2, rq1Wgray := 1#2, rq2Wgray := 1#2 } }

theorem witness_TwoSynchroniserStepsPublish : (tiny .fifoUnit).legal = true ∧ twoUnread.fifo.Inv ∧
    (busy .fifoUnit).fifo.Inv ∧ twoUnread.fifo.occ = 2 ∧ (busy .fifoUnit).fifo.occ = 1 ∧
    (∃ u t, exec .wsync ⟨_, twoUnread⟩ = .next u ∧ runOps ([.get, .put 9] ++ .wsync :: []) u = .next t ∧
      (alongRun deliveredBy ([.get, .put 9] ++ .wsync :: []) u).length = 1) ∧
    ∃ u t, exec .rsync ⟨_, busy .fifoUnit⟩ = .next u ∧ runOps ([.get, .put 9] ++ .rsync :: []) u = .next t ∧
      (alongRun acceptedBy ([.get, .put 9] ++ .rsync :: []) u).length = 1 ∧ 1 < (tiny .fifoUnit).n - 1 - 1 :=
  ⟨by decide, ⟨by decide, by decide, by decide, by decide, by decide, by decide, by decide⟩, witness_busy_fifo_inv _,
    by decide, by decide, ⟨_, _, rfl, rfl, by decide⟩, _, _, rfl, rfl, by decide, by decide⟩

/-- Two states that differ in the read side only, and two that differ in the write side only but for the slot read. -/
theorem witness_OnlyGrayPointersCross :
    ({ busy .fifoUnit with fifo := { (busy .fifoUnit).fifo with rbin := 1#2, rgray := 1#2 } }).fifo.writeSide =
      (busy .fifoUnit).fifo.writeSide ∧
    ({ busy .fifoUnit with fifo := { (busy .fifoUnit).fifo with wbin := 2#2, wgray := 3#2 } }).fifo.readSide =
      (busy .fifoUnit).fifo.readSide ∧
    ∃ t, exec (.put 3) ⟨_, busy .fifoUnit⟩ = .next ⟨tiny .fifoUnit, t⟩ := ⟨by decide, by decide, _, rfl⟩

theorem witness_StickyFlags :
    (∃ t, exec .rst ⟨ref .integrated, { Hw.reset (ref .integrated) with sched := ⟨.conv, true, true⟩ }⟩ = .next ⟨ref .integrated, t⟩ ∧
      t.sched.overrun = false ∧ t.sched.protoErr = false) ∧
    (∃ t, exec .tick (inConv (Hw.reset _)) = .next ⟨ref .integrated, t⟩ ∧ t.sched.overrun = true) ∧
    ∃ t, exec (.adcDone 1) State.reset = .next ⟨Config.reference, t⟩ ∧ t.sched.protoErr = true :=
  ⟨⟨_, rfl, rfl, rfl⟩, ⟨_, rfl, rfl⟩, _, rfl, rfl⟩

theorem witness_MarksAreNeverCleared :
    ∃ t, step ⟨_, { lines [Line.ofInstr .rst] with model := { (lines [Line.ofInstr .rst]).model with
      refused := true, faults := { firUnbound := true, readUnspec := true } } }⟩ = .next ⟨tiny .fifoUnit, t⟩ := ⟨_, rfl⟩

theorem witness_FaultsChangeNoBlock :
    (∃ t, exec (.firUpdate 1) ⟨_, Hw.reset (tiny .fifoUnit)⟩ = .next ⟨tiny .fifoUnit, t⟩ ∧
      t.model.faults ≠ (Hw.reset (tiny .fifoUnit)).model.faults) ∧
    ∃ t, exec .tick ⟨_, Hw.reset (tiny .fifoUnit)⟩ = .next ⟨tiny .fifoUnit, t⟩ ∧
      t.model.refusals ≠ (Hw.reset (tiny .fifoUnit)).model.refusals :=
  ⟨⟨_, rfl, by decide⟩, _, rfl, by decide⟩

end Sys2Proof.Tests
end

section
/-!
O28. The step on a line that presents a stimulus: run while `SYS` stands at `00`, passed over while it holds the block
(R81, R204).
-/

namespace Sys2Proof.Machine

variable {p : Params}

/-- At legal parameters the next line is fetched by its first step; what it expands to beyond that goes back on the
schedule (R91, R94 to R97). -/
theorem fetch_line {h : Hw p} {l : Line} {rest : List Line} (hl : p.legal = true)
    (hs : h.model.schedule = l :: rest) :
    fetch ⟨p, h⟩ = fetchBasic ⟨p, h⟩ (l.expand.2 ++ rest) l.expand.1 := by
  simp [fetch, hs, hl]

/-- A line whose first step presents a stimulus that decodes offers its operation (R83, R91). -/
theorem fetch_stimulus {h : Hw p} {l : Line} {st : Stimulus} {more rest : List Line} {i : Instr}
    (hl : p.legal = true) (hs : h.model.schedule = l :: rest) (he : l.expand = (.stimulus st, more))
    (hd : decode p st = .ok i) :
    fetch ⟨p, h⟩ = State.offer ⟨p, h⟩ (st.sysAfter h.model.sysLevel) i (more ++ rest) (more ++ rest) := by
  simp only [fetch_line hl hs, he, fetchBasic, hd]

/-- With `SYS` at `00` the step is `exec` of the operation presented (R9, R21, R81). -/
theorem step_stimulus_run {h : Hw p} {l : Line} {st : Stimulus} {more rest : List Line} {i : Instr}
    (hl : p.legal = true) (hs : h.model.schedule = l :: rest) (he : l.expand = (.stimulus st, more))
    (hd : decode p st = .ok i) (h0 : h.model.sysLevel = 0#2) :
    step ⟨p, h⟩ = exec i ⟨p, (h.setSys (st.sysAfter h.model.sysLevel)).take i (more ++ rest)⟩ := by
  simp only [step, fetch_stimulus hl hs he hd, offer_run h0]

/-- While `SYS` holds the block the step passes the line over and records the refusal it meets (R81, R204). -/
theorem step_stimulus_held {h : Hw p} {l : Line} {st : Stimulus} {more rest : List Line} {i : Instr}
    (hl : p.legal = true) (hs : h.model.schedule = l :: rest) (he : l.expand = (.stimulus st, more))
    (hd : decode p st = .ok i) (h0 : h.model.sysLevel ≠ 0#2) :
    step ⟨p, h⟩ = .next ⟨p, ((h.setSys (st.sysAfter h.model.sysLevel)).setSchedule (more ++ rest)).refuseIf
      (refusalOf p i)⟩ := by
  simp only [step, fetch_stimulus hl hs he hd, offer_held h0]

/-- No `SYS` vector selects an operation that R204 refuses. -/
theorem refusalOf_of_decode_sys {v : BitVec 2} {i : Instr} (hd : decode p (.sys v) = .ok i) :
    refusalOf p i = none := by
  rw [decode_sys] at hd
  split at hd
  · cases hd; rfl
  · split at hd <;> cases hd <;> rfl

/-- Settles O28: the line at the head is run or passed over, by what stands on `SYS`; a stimulus of another port leaves
the level, and a `SYS` vector meets no refusal. -/
theorem stepRunsTheDecodedOperation : Obligations.StepRunsTheDecodedOperation := by
  unfold Obligations.StepRunsTheDecodedOperation
  intro p h st i rest hl hs hd
  have run := step_stimulus_run (more := []) hl hs rfl hd
  have held := step_stimulus_held (more := []) hl hs rfl hd
  refine ⟨fun h0 hn => ?_, fun h0 v hv => ?_, fun h0 hn hr => ?_, fun h0 hn r hr => ?_, fun h0 v hv => ?_⟩
  · rw [run h0, sysAfter_of_ne_sys hn]; rfl
  · subst hv; exact run h0
  · rw [held h0, sysAfter_of_ne_sys hn, hr]; rfl
  · rw [held h0, sysAfter_of_ne_sys hn, hr]; rfl
  · subst hv
    rw [held h0, refusalOf_of_decode_sys hd]; rfl

end Sys2Proof.Machine
end

section
/-!
O37. What the wiring of `CFG` keeps (R6, R204, R210): each shared operation keeps `Hw.WiringInv`, hence `exec` and
`step` do. An operation of the scheduler's port is met with `CFG = INTEGRATED` only, where its state is free.
-/

namespace Sys2Proof.Machine

variable {p : Params}

/-! ## Marks -/

/-- A name that has been recorded is a record. -/
theorem any_insert (rs : RefusalSet) (r : RefusalName) : (rs.insert r).any = true := by
  cases r <;> simp [RefusalSet.insert, RefusalSet.any]

/-- A refusal sets the mark and the record together (R204). -/
theorem Hw.WiringInv.refuse {h : Hw p} (hw : h.WiringInv) (r : RefusalName) : (h.refuse r).WiringInv :=
  ⟨hw.legal, hw.unit_sched, (any_insert _ r).symm⟩

theorem Hw.WiringInv.refuseIf {h : Hw p} (hw : h.WiringInv) (r : Option RefusalName) : (h.refuseIf r).WiringInv := by
  cases r with
  | none => exact hw
  | some r => exact hw.refuse r

/-- A change that leaves the scheduler and the marks keeps the invariant. -/
theorem Hw.WiringInv.of_eq {h t : Hw p} (hw : h.WiringInv) (hs : t.sched = h.sched)
    (hr : t.model.refused = h.model.refused) (hn : t.model.refusals = h.model.refusals) : t.WiringInv :=
  ⟨hw.legal, fun hc => hs.trans (hw.unit_sched hc), by rw [hr, hn, hw.marks]⟩

theorem Hw.WiringInv.setSchedule {h : Hw p} (hw : h.WiringInv) (ls : List Line) : (h.setSchedule ls).WiringInv :=
  hw.of_eq rfl rfl rfl

theorem Hw.WiringInv.setSys {h : Hw p} (hw : h.WiringInv) (v : BitVec 2) : (h.setSys v).WiringInv :=
  hw.of_eq rfl rfl rfl

theorem Hw.WiringInv.take {h : Hw p} (hw : h.WiringInv) (i : Instr) (ls : List Line) : (h.take i ls).WiringInv :=
  hw.of_eq rfl rfl rfl

theorem Hw.WiringInv.recordFault {h : Hw p} (hw : h.WiringInv) (f : ModelFault) : (h.recordFault f).WiringInv :=
  hw.of_eq rfl rfl rfl

/-- With `CFG = INTEGRATED` the scheduler's state is free (R210). -/
theorem Hw.WiringInv.setSched {h : Hw p} (hw : h.WiringInv) (hc : p.cfg = .integrated) (sc : Sched) :
    { h with sched := sc }.WiringInv :=
  ⟨hw.legal, fun hu => by simp [hc] at hu, hw.marks⟩

/-! ## Operations -/

theorem Hw.WiringInv.put {h : Hw p} (hw : h.WiringInv) (d : BitVec p.dataW) : (h.put d).WiringInv := by
  obtain ⟨-, he⟩ | ⟨-, he⟩ := put_cases h d <;> rw [he] <;> exact hw.of_eq rfl rfl rfl

theorem Hw.WiringInv.get {h : Hw p} (hw : h.WiringInv) : h.get.WiringInv := by
  obtain ⟨-, he⟩ | ⟨-, -, he⟩ | ⟨d, -, -, he⟩ := get_cases h <;> rw [he] <;> exact hw.of_eq rfl rfl rfl

theorem Hw.WiringInv.firInit {h : Hw p} (hw : h.WiringInv) (k : BitVec p.klw) (taps : List F32) :
    (h.firInit k taps).WiringInv := by
  obtain ⟨-, he⟩ | ⟨-, -, he⟩ | ⟨-, -, he⟩ := firInit_cases h k taps <;> rw [he]
  exacts [hw.of_eq rfl rfl rfl, hw.refuse _, hw.of_eq rfl rfl rfl]

theorem Hw.WiringInv.firUpdate {h t : Hw p} (hw : h.WiringInv) {d : BitVec p.dataW} (hu : h.firUpdate d = .ok t) :
    t.WiringInv := by
  obtain ⟨-, rfl⟩ | ⟨-, -, rfl⟩ | ⟨pairs, -, -, -, -, -, rfl⟩ := firUpdate_cases hu <;> exact hw.of_eq rfl rfl rfl

theorem Hw.WiringInv.tick {h : Hw p} (hw : h.WiringInv) (hc : p.cfg = .integrated) : h.tick.WiringInv := by
  cases hs : h.sched.sstate
  · rw [tick_idle hs]; exact (hw.setSched hc _).of_eq rfl rfl rfl
  · rw [tick_conv hs]; exact (hw.setSched hc _).of_eq rfl rfl rfl

theorem Hw.WiringInv.adcDone {h : Hw p} (hw : h.WiringInv) (hc : p.cfg = .integrated) (d : BitVec p.dataW) :
    (h.adcDone d).WiringInv := by
  cases hs : h.sched.sstate
  · rw [adcDone_idle d hs]; exact hw.setSched hc _
  · rw [adcDone_conv d hs]; exact (hw.setSched hc _).put d

/-- RST returns the scheduler to its reset values at either `CFG` (R230). -/
theorem Hw.WiringInv.rst {h : Hw p} (hw : h.WiringInv) : h.rst.WiringInv :=
  ⟨hw.legal, fun _ => rfl, hw.marks⟩

/-- The scheduler's port is refused or driven with `CFG = INTEGRATED` (R243). -/
theorem Hw.WiringInv.asScheduler {h : Hw p} (hw : h.WiringInv) {f : Hw p → Hw p}
    (hf : p.cfg = .integrated → (f h).WiringInv) : (h.asScheduler f).WiringInv := by
  unfold Hw.asScheduler
  split
  · next hc => exact hf hc
  · exact hw.refuse _

/-- PRODUCER's port is refused or driven (R243). -/
theorem Hw.WiringInv.asProducer {h : Hw p} (hw : h.WiringInv) {f : Hw p → Hw p} (hf : (f h).WiringInv) :
    (h.asProducer f).WiringInv := by
  unfold Hw.asProducer
  split
  exacts [hw.refuse _, hf]

/-! ## exec and step -/

/-- Every operation keeps what the wiring keeps. -/
theorem exec_keeps_wiring {i : Instr} {h t : Hw p} (hw : h.WiringInv) (he : exec i ⟨p, h⟩ = .next ⟨p, t⟩) :
    t.WiringInv := by
  cases i with
  | rst => cases he; exact hw.rst
  | put d => cases he; exact hw.asProducer (hw.put _)
  | get => cases he; exact hw.get
  | firInit k taps => cases he; exact hw.firInit _ _
  | firUpdate d =>
    cases hu : h.firUpdate (sampleIn p d) with
    | error e => simp [exec, execFirUpdate, State.goToOr, hu] at he
    | ok t' =>
      simp only [exec, execFirUpdate, State.goToOr, hu] at he
      cases he
      exact hw.firUpdate hu
  | tick => cases he; exact hw.asScheduler hw.tick
  | adcDone d => cases he; exact hw.asScheduler fun hc => hw.adcDone hc _
  | adcDoneTick d => cases he; exact hw.asScheduler fun hc => (hw.adcDone hc _).tick hc
  | _ => cases he; exact hw.of_eq rfl rfl rfl

/-- A step answers the same parameters (R6) and keeps what the wiring keeps. -/
theorem step_keeps_wiring {h : Hw p} {t : State} (he : step ⟨p, h⟩ = .next t) :
    ∃ h' : Hw p, t = ⟨p, h'⟩ ∧ (h.WiringInv → h'.WiringInv) := by
  obtain ⟨h', hn, hh⟩ | ⟨i, v, ls, -, -, -, -, hx⟩ := step_cases h
  · refine ⟨h', Host.Outcome.next.inj (he.symm.trans hn), fun hw => ?_⟩
    obtain rfl | ⟨ls, r, rfl⟩ | ⟨ls, v, r, -, rfl⟩ | ⟨ls, rfl⟩ := hh
    · exact hw
    · exact (hw.setSchedule ls).refuse r
    · exact ((hw.setSys v).setSchedule ls).refuseIf r
    · exact (hw.take _ ls).recordFault _
  · rw [hx] at he
    obtain ⟨h', rfl⟩ := exec_params he
    exact ⟨h', rfl, fun hw => exec_keeps_wiring ((hw.setSys v).take i ls) he⟩

/-- Settles O37, by what a step can do: only model-only state moves, or one operation runs, and each keeps the
invariant. -/
theorem stepKeepsTheWiring : Obligations.StepKeepsTheWiring := by
  unfold Obligations.StepKeepsTheWiring
  intro s t he
  obtain ⟨h', rfl, hk⟩ := step_keeps_wiring he
  exact ⟨rfl, hk⟩

end Sys2Proof.Machine
end

section
/-!
What the shared operations leave alone in the other blocks, and which case of the wiring an operation of a driven port
meets: the frame rules of R70, R152 and R170, said once for the proofs below.
-/

namespace Sys2Proof.Machine

variable {p : Params}

/-! ## Frames -/

@[simp] theorem put_fir (h : Hw p) (d : BitVec p.dataW) : (h.put d).fir = h.fir := by
  obtain ⟨-, he⟩ | ⟨-, he⟩ := put_cases h d <;> rw [he] <;> rfl

@[simp] theorem put_sched (h : Hw p) (d : BitVec p.dataW) : (h.put d).sched = h.sched := by
  obtain ⟨-, he⟩ | ⟨-, he⟩ := put_cases h d <;> rw [he] <;> rfl

@[simp] theorem get_fir (h : Hw p) : h.get.fir = h.fir := by
  obtain ⟨-, he⟩ | ⟨-, -, he⟩ | ⟨d, -, -, he⟩ := get_cases h <;> rw [he] <;> rfl

@[simp] theorem get_sched (h : Hw p) : h.get.sched = h.sched := by
  obtain ⟨-, he⟩ | ⟨-, -, he⟩ | ⟨d, -, -, he⟩ := get_cases h <;> rw [he] <;> rfl

@[simp] theorem firInit_sched (h : Hw p) (k : BitVec p.klw) (taps : List F32) : (h.firInit k taps).sched = h.sched := by
  obtain ⟨-, he⟩ | ⟨-, -, he⟩ | ⟨-, -, he⟩ := firInit_cases h k taps <;> rw [he] <;> rfl

theorem firUpdate_sched {h t : Hw p} {d : BitVec p.dataW} (hu : h.firUpdate d = .ok t) : t.sched = h.sched := by
  obtain ⟨-, rfl⟩ | ⟨-, -, rfl⟩ | ⟨pairs, -, -, -, -, -, rfl⟩ := firUpdate_cases hu <;> rfl

@[simp] theorem tick_fir (h : Hw p) : h.tick.fir = h.fir := by
  cases hs : h.sched.sstate
  · rw [tick_idle hs]; rfl
  · rw [tick_conv hs]; rfl

@[simp] theorem adcDone_fir (h : Hw p) (d : BitVec p.dataW) : (h.adcDone d).fir = h.fir := by
  cases hs : h.sched.sstate
  · rw [adcDone_idle d hs]
  · rw [adcDone_conv d hs, put_fir]

/-! ## exec -/

/-- The scheduler's port is driven or refused (R243). -/
theorem asScheduler_cases (h : Hw p) (f : Hw p → Hw p) :
    h.asScheduler f = f h ∨ h.asScheduler f = h.refuse .secondProducer := by
  unfold Hw.asScheduler
  split
  exacts [.inl rfl, .inr rfl]

/-- PRODUCER's port is driven or refused (R243). -/
theorem asProducer_cases (h : Hw p) (f : Hw p → Hw p) :
    h.asProducer f = f h ∨ h.asProducer f = h.refuse .secondProducer := by
  unfold Hw.asProducer
  split
  exacts [.inr rfl, .inl rfl]

/-- FIR_UPDATE answers a state exactly when its rule does (R145). -/
theorem exec_firUpdate_next {d : Nat} {h t : Hw p} :
    exec (.firUpdate d) ⟨p, h⟩ = .next ⟨p, t⟩ ↔ h.firUpdate (sampleIn p d) = .ok t := by
  cases hu : h.firUpdate (sampleIn p d) <;> simp [exec, execFirUpdate, State.goToOr, State.goTo, hu]

/-- FIR state is written by FIR_INIT, FIR_UPDATE and RST only (R152). -/
theorem exec_fir {i : Instr} {h t : Hw p} (hi : writesFir i = false) (he : exec i ⟨p, h⟩ = .next ⟨p, t⟩) :
    t.fir = h.fir := by
  have sched : ∀ f : Hw p → Hw p, (f h).fir = h.fir → (h.asScheduler f).fir = h.fir := by
    intro f hf
    obtain hx | hx := asScheduler_cases h f <;> rw [hx]
    exacts [hf, refuse_fir ..]
  cases i with
  | rst | firInit | firUpdate => cases hi
  | put d =>
    cases he
    obtain hx | hx := asProducer_cases h fun h => h.put (sampleIn p d) <;> rw [hx]
    exacts [put_fir .., refuse_fir ..]
  | get => cases he; exact get_fir h
  | tick => cases he; exact sched _ (tick_fir h)
  | adcDone d => cases he; exact sched _ (adcDone_fir ..)
  | adcDoneTick d => cases he; exact sched _ ((tick_fir _).trans (adcDone_fir ..))
  | sysNop | fifoInit | wNop | rNop | fNop | sNop | rsync | wsync => cases he; rfl

/-- Scheduler state is written by TICK, ADC_DONE, ADC_DONE_TICK and RST only (R170). -/
theorem exec_sched {i : Instr} {h t : Hw p} (hi : writesSched i = false) (he : exec i ⟨p, h⟩ = .next ⟨p, t⟩) :
    t.sched = h.sched := by
  cases i with
  | rst | tick | adcDone | adcDoneTick => cases hi
  | put d =>
    cases he
    obtain hx | hx := asProducer_cases h fun h => h.put (sampleIn p d) <;> rw [hx]
    exacts [put_sched .., refuse_sched ..]
  | get => cases he; exact get_sched h
  | firInit k taps => cases he; exact firInit_sched ..
  | firUpdate d => exact firUpdate_sched (exec_firUpdate_next.mp he)
  | sysNop | fifoInit | wNop | rNop | fNop | sNop | rsync | wsync => cases he; rfl

end Sys2Proof.Machine
end

section
/-!
O36. What the filter keeps (R34, R36, R37, R62, R146). A converted sample is finite and not negative at every legal
`DATA_W` (R6, R141), a sum whose first operand is not `-0.0` is not `-0.0` (R143), hence neither is `y`; the shared
operations of the filter keep `Fir.Inv`, hence `exec` and `step` do.
-/

namespace Sys2Proof.Machine

variable {p : Params}

/-! ## Words -/

theorem signWord_toNat {neg : Bool} {low : Nat} (hl : low < 2 ^ 31) :
    (signWord neg low).toNat = (if neg then 2 ^ 31 else 0) + low := by
  cases neg <;> simp [signWord] <;> omega

theorem fSign_signWord {neg : Bool} {low : Nat} (hl : low < 2 ^ 31) : fSign (signWord neg low) = neg := by
  rw [fSign, BitVec.msb_eq_decide, signWord_toNat hl]
  cases neg
  · simp; omega
  · simp

/-- Low bits under those of an infinity make a finite word (R140). -/
theorem fIsFinite_signWord {neg : Bool} {low : Nat} (hl : low < 0x7F800000) : fIsFinite (signWord neg low) = true := by
  have hn := signWord_toNat (neg := neg) (show low < 2 ^ 31 by omega)
  have he : fExp (signWord neg low) = low / 2 ^ 23 := by
    rw [fExp, hn]
    cases neg <;> simp <;> omega
  simp only [fIsFinite, he, bne_iff_ne]
  omega

theorem signWord_ne_negZero {neg : Bool} {low : Nat} (h0 : 0 < low) (hl : low < 2 ^ 31) :
    signWord neg low ≠ 0x80000000#32 := by
  intro he
  have hn := signWord_toNat (neg := neg) hl
  rw [he] at hn
  cases neg <;> simp at hn <;> omega

/-- The top fraction bit makes a NaN quiet (R140). -/
theorem getLsbD_quietNan_22 (free : BitVec 23) : (quietNan free).getLsbD 22 = true := by
  rw [quietNan, BitVec.getLsbD_append, BitVec.getLsbD_append]
  simp

theorem quietNan_ne_negZero (free : BitVec 23) : quietNan free ≠ 0x80000000#32 := by
  intro he
  have hb := getLsbD_quietNan_22 free
  rw [he] at hb
  exact absurd hb (by decide)

/-- The one negative word of magnitude 0 is `-0.0` (R140). -/
theorem eq_negZero_of_fMag {a : F32} (hs : fSign a = true) (hm : fMag a = 0) : a = 0x80000000#32 := by
  have hsig : fSig a = 0 := by simpa [fMag] using hm
  have hexp : fExp a = 0 := by
    by_contra hne
    simp [fSig, hne] at hsig
  have hfrac : fFrac a = 0 := by simpa [fSig, hexp] using hsig
  rw [fSign, BitVec.msb_eq_decide, decide_eq_true_eq] at hs
  simp only [fExp, fFrac] at hexp hfrac
  apply BitVec.eq_of_toNat_eq
  have := a.isLt
  simp only [BitVec.toNat_ofNat]
  omega

/-! ## Rounding -/

theorem roundShift_zero (m : Nat) : roundShift m 0 = m := by simp [roundShift, Nat.mod_one]

theorem roundShift_le (m s : Nat) : roundShift m s ≤ m / 2 ^ s + 1 := by
  unfold roundShift
  split <;> omega

/-- What stays after dropping the low bits fits the 24 significant bits (R140). -/
theorem div_dropBits_lt (m d : Nat) : m / 2 ^ dropBits m d < 2 ^ 24 := by
  rw [Nat.div_lt_iff_lt_mul (by positivity), ← Nat.pow_add]
  calc m < 2 ^ (Nat.log2 m + 1) := Nat.lt_log2_self
    _ ≤ 2 ^ (24 + dropBits m d) := Nat.pow_le_pow_right (by decide) (by unfold dropBits; omega)

/-- A magnitude of at least one unit does not round to zero (R142, R143). -/
theorem roundPack_ne_negZero {m : Nat} (neg : Bool) (hm : m ≠ 0) : roundPack neg m 0 ≠ 0x80000000#32 := by
  refine signWord_ne_negZero ?_ (by omega)
  by_cases hd : dropBits m 0 = 0
  · rw [hd, roundShift_zero]; omega
  · omega

/-- A sample of a legal width converts to a finite word that is not negative (R141). -/
theorem u2f_finite {w : Nat} (hw : w ≤ 24) (x : BitVec w) : fIsFinite (u2f x) = true ∧ fSign (u2f x) = false := by
  have hx : x.toNat < 2 ^ 24 := x.isLt.trans_le (Nat.pow_le_pow_right (by decide) hw)
  have hlog : Nat.log2 (x.toNat * 2 ^ 149) < 173 := by
    by_cases h0 : x.toNat = 0
    · simp [h0]
    · rw [Nat.log2_lt (by positivity)]
      calc x.toNat * 2 ^ 149 < 2 ^ 24 * 2 ^ 149 := by gcongr
        _ = 2 ^ 173 := by norm_num
  have hdrop : dropBits (x.toNat * 2 ^ 149) 0 ≤ 149 := by unfold dropBits; omega
  have hround := roundShift_le (x.toNat * 2 ^ 149) (dropBits (x.toNat * 2 ^ 149) 0)
  have hdiv := div_dropBits_lt (x.toNat * 2 ^ 149) 0
  unfold u2f roundPack
  generalize dropBits (x.toNat * 2 ^ 149) 0 = s at hdrop hround hdiv ⊢
  generalize roundShift (x.toNat * 2 ^ 149) s = r at hround ⊢
  exact ⟨fIsFinite_signWord (by omega), fSign_signWord (by omega)⟩

/-! ## Sums that are not `-0.0` -/

/-- A sum is `-0.0` only if its first operand is (R143, R146). -/
theorem fadd32_ne_negZero (free : BitVec 23) {a : F32} (b : F32) (ha : a ≠ 0x80000000#32) :
    fadd32 free a b ≠ 0x80000000#32 := by
  unfold fadd32
  split
  · exact quietNan_ne_negZero free
  split
  · split
    exacts [quietNan_ne_negZero free, ha]
  split
  · next hinf => rintro rfl; exact absurd hinf (by decide)
  split
  · next hsum =>
    -- an exact zero is `-0.0` only when both operands are negative, hence both zero
    have hand : (fSign a && fSign b) = false := by
      by_contra hs
      simp only [Bool.not_eq_false, Bool.and_eq_true] at hs
      obtain ⟨hsa, hsb⟩ := hs
      simp only [fUnits, hsa, hsb, if_true] at hsum
      exact ha (eq_negZero_of_fMag hsa (by omega))
    rw [hand]
    decide
  · next hsum => exact roundPack_ne_negZero _ (Int.natAbs_ne_zero.mpr hsum)

/-- The accumulator never becomes `-0.0` (R146). -/
theorem macLoop_ne_negZero (pairs : List (F32 × F32)) {acc : F32} (draw : Nat) (ha : acc ≠ 0x80000000#32) :
    macLoop pairs acc draw ≠ 0x80000000#32 := by
  induction pairs generalizing acc draw with
  | nil => exact ha
  | cons cx rest ih => exact ih (draw + 2) (fadd32_ne_negZero _ _ ha)

/-! ## Operations -/

theorem badLength_eq_false {k : BitVec p.klw} : badLength p k = false ↔ 1 ≤ k.toNat ∧ k.toNat ≤ p.lMax := by
  simp [badLength, Nat.one_le_iff_ne_zero]

theorem anyNonfinite_eq_false {taps : List F32} : anyNonfinite taps = false ↔ ∀ t ∈ taps, fIsFinite t = true := by
  simp [anyNonfinite]

/-- The taps of a legal length bound from a whole `coef_i` bus are as many as the length says (R82). -/
theorem boundTaps_length {k : BitVec p.klw} {taps : List F32} (hk : badLength p k = false)
    (ht : taps.length = p.lMax) : (boundTaps k.toNat taps).length = k.toNat := by
  rw [boundTaps, List.length_take, ht]
  exact Nat.min_eq_left (badLength_eq_false.mp hk).2

/-- RST unbinds the filter and leaves its storage and `y` (R230). -/
theorem Fir.Inv.rst {h : Hw p} (hf : h.fir.Inv) : h.rst.fir.Inv where
  coef_wf := hf.coef_wf
  hist_wf := hf.hist_wf
  y_ne := hf.y_ne
  fst := .inl rfl
  range := nofun
  coefs := nofun
  hists := nofun
  bound_fst := nofun

/-- A FIR_INIT of a bad length unbinds the filter (R144). -/
theorem Fir.Inv.allocError {f : Fir p} (hf : f.Inv) : Fir.Inv { f with bound := false, fstQ := .allocError } where
  coef_wf := hf.coef_wf
  hist_wf := hf.hist_wf
  y_ne := hf.y_ne
  fst := .inr rfl
  range := nofun
  coefs := nofun
  hists := nofun
  bound_fst := nofun

/-- Binding finite taps of a legal length writes every slot the kernel uses (R144). -/
theorem Fir.Inv.bind {f : Fir p} (hf : f.Inv) {k : BitVec p.klw} {taps : List F32} (hk : badLength p k = false)
    (ht : taps.length = p.lMax) (hn : anyNonfinite (boundTaps k.toNat taps) = false) : (f.bind k taps).Inv := by
  have hlen := boundTaps_length hk ht
  obtain ⟨hk1, hkL⟩ := badLength_eq_false.mp hk
  refine ⟨wf_writeFrom _ hf.coef_wf (by omega), wf_writeFrom _ hf.hist_wf (by simpa using hkL), by simp, .inl rfl,
    fun _ => ⟨hk1, hkL, by simp; omega⟩, fun _ i hi => ?_, fun _ i hi => ?_, fun _ => rfl⟩
  · simp only [bind_klen] at hi
    have hi' : i - 0 < (boundTaps k.toNat taps).length := by omega
    rw [bind_coef, read_writeFrom, dif_pos ⟨Nat.zero_le i, hi'⟩]
    exact ⟨_, rfl, anyNonfinite_eq_false.mp hn _ (List.getElem_mem hi')⟩
  · simp only [bind_klen] at hi
    rw [bind_hist, read_writeFrom, dif_pos ⟨Nat.zero_le i, by simpa using hi⟩, List.getElem_replicate]
    exact ⟨0, rfl, by decide, by decide⟩

/-- FIR_UPDATE writes a finite sample at the cursor, which stays below the length, and a sum that is not `-0.0`
(R145, R146). -/
theorem Fir.Inv.advance {f : Fir p} (hf : f.Inv) (hb : f.bound = true) {x acc : F32} (hx : fIsFinite x = true)
    (hs : fSign x = false) (ha : acc ≠ 0x80000000#32) : (f.advance x acc).Inv := by
  obtain ⟨hk1, hkL, hcur⟩ := hf.range hb
  have hnext : (f.wcur.toNat + 1) % f.klen.toNat < f.klen.toNat := Nat.mod_lt _ hk1
  refine ⟨hf.coef_wf, wf_write x hf.hist_wf (hcur.trans_le hkL), by simpa using ha, hf.fst,
    fun _ => ⟨hk1, hkL, ?_⟩, hf.coefs, fun _ i hi => ?_, hf.bound_fst⟩
  · rwa [advance_wcur, advance_klen, BitVec.toNat_ofNat, Nat.mod_eq_of_lt (hnext.trans f.klen.isLt)]
  · rw [advance_hist, Fir.histAfter, read_write]
    split
    · exact ⟨x, rfl, hx, hs⟩
    · exact hf.hists hb i hi

theorem Fir.Inv.firInit {h : Hw p} (hf : h.fir.Inv) (k : BitVec p.klw) {taps : List F32} (ht : taps.length = p.lMax) :
    (h.firInit k taps).fir.Inv := by
  obtain ⟨-, he⟩ | ⟨-, -, he⟩ | ⟨hk, hn, he⟩ := firInit_cases h k taps <;> rw [he]
  exacts [hf.allocError, hf, hf.bind hk ht hn]

theorem Fir.Inv.firUpdate {h t : Hw p} (hf : h.fir.Inv) (hw : p.dataW ≤ 24) {d : BitVec p.dataW}
    (hu : h.firUpdate d = .ok t) : t.fir.Inv := by
  obtain ⟨-, rfl⟩ | ⟨-, -, rfl⟩ | ⟨pairs, hb, -, -, -, -, rfl⟩ := firUpdate_cases hu
  · exact hf
  · exact hf
  · obtain ⟨hfin, hsign⟩ := u2f_finite hw d
    exact hf.advance hb hfin hsign (macLoop_ne_negZero pairs _ (by decide))

/-! ## exec and step -/

theorem dataW_le_of_legal (hl : p.legal = true) : p.dataW ≤ 24 := by
  simp only [Params.legal, Bool.and_eq_true, decide_eq_true_eq] at hl
  omega

/-- A FIR_INIT that fits its fields carries a whole `coef_i` bus (R82). -/
theorem taps_length_of_wf {k : Nat} {taps : List F32} (hw : (Instr.firInit k taps).wf p = true) :
    taps.length = p.lMax := by
  simp only [Instr.wf, Bool.and_eq_true, decide_eq_true_eq] at hw
  exact hw.2

/-- At legal parameters every operation that fits its fields keeps the filter's invariant. -/
theorem exec_keeps_fir {i : Instr} {h t : Hw p} (hl : p.legal = true) (hw : i.wf p = true) (hf : h.fir.Inv)
    (he : exec i ⟨p, h⟩ = .next ⟨p, t⟩) : t.fir.Inv := by
  cases hi : writesFir i with
  | false => rw [exec_fir hi he]; exact hf
  | true =>
    cases i with
    | rst => cases he; exact hf.rst
    | firInit k taps => cases he; exact hf.firInit _ (taps_length_of_wf hw)
    | firUpdate d => exact hf.firUpdate (dataW_le_of_legal hl) (exec_firUpdate_next.mp he)
    | _ => cases hi

/-- Settles O36, by what a step can do: the filter is left as it was, or one operation that fits its fields runs at
legal parameters, and it keeps the invariant. -/
theorem stepKeepsTheFirInvariant : Obligations.StepKeepsTheFirInvariant := by
  unfold Obligations.StepKeepsTheFirInvariant
  rintro ⟨p, h⟩ t hf he
  obtain ⟨h', hn, hh⟩ | ⟨i, v, ls, hl, hw, -, -, hx⟩ := step_cases h
  · obtain rfl := Host.Outcome.next.inj (he.symm.trans hn)
    have hsame : h'.fir = h.fir := by
      obtain rfl | ⟨ls, r, rfl⟩ | ⟨ls, v, r, -, rfl⟩ | ⟨ls, rfl⟩ := hh <;> simp
    exact hsame ▸ hf
  · rw [hx] at he
    obtain ⟨h', rfl⟩ := exec_params he
    exact exec_keeps_fir (h := (h.setSys v).take i ls) hl hw hf he

end Sys2Proof.Machine
end

section
/-!
O50. The sticky flags (R41, R42): what each operation of the scheduler's port leaves in `overrun` and `proto_err`.
-/

namespace Sys2Proof.Machine

variable {p : Params}

/-! ## The scheduler's fields after RST, TICK and ADC_DONE -/

@[simp] theorem rst_sched (h : Hw p) : h.rst.sched = Sched.reset := rfl

/-- A TICK during CONV is dropped and recorded (R172). -/
theorem tick_overrun (h : Hw p) : h.tick.sched.overrun = (h.sched.overrun || decide (h.sched.sstate = .conv)) := by
  cases hs : h.sched.sstate
  · rw [tick_idle hs]; simp
  · rw [tick_conv hs]; simp

@[simp] theorem tick_protoErr (h : Hw p) : h.tick.sched.protoErr = h.sched.protoErr := by
  cases hs : h.sched.sstate
  · rw [tick_idle hs]; rfl
  · rw [tick_conv hs]; rfl

@[simp] theorem adcDone_overrun (h : Hw p) (d : BitVec p.dataW) :
    (h.adcDone d).sched.overrun = h.sched.overrun := by
  cases hs : h.sched.sstate
  · rw [adcDone_idle d hs]
  · rw [adcDone_conv d hs, put_sched]

/-- A converter's report during IDLE is recorded (R173). -/
theorem adcDone_protoErr (h : Hw p) (d : BitVec p.dataW) :
    (h.adcDone d).sched.protoErr = (h.sched.protoErr || decide (h.sched.sstate = .idle)) := by
  cases hs : h.sched.sstate
  · rw [adcDone_idle d hs]; simp
  · rw [adcDone_conv d hs, put_sched]; simp

/-- ADC_DONE always ends in IDLE (R173). -/
@[simp] theorem adcDone_sstate (h : Hw p) (d : BitVec p.dataW) : (h.adcDone d).sched.sstate = .idle := by
  cases hs : h.sched.sstate
  · rw [adcDone_idle d hs]; exact hs
  · rw [adcDone_conv d hs, put_sched]

/-! ## exec -/

/-- What an operation other than RST leaves in `overrun`: a TICK during CONV may set it, nothing else touches it. -/
theorem exec_overrun {i : Instr} {h t : Hw p} (hi : i ≠ .rst) (he : exec i ⟨p, h⟩ = .next ⟨p, t⟩) :
    t.sched.overrun = h.sched.overrun ∨ (t.sched.overrun = true ∧ i = .tick ∧ h.sched.sstate = .conv) := by
  have port : ∀ f : Hw p → Hw p, (f h).sched.overrun = h.sched.overrun →
      (h.asScheduler f).sched.overrun = h.sched.overrun := by
    intro f hf
    obtain hx | hx := asScheduler_cases h f <;> rw [hx]
    exacts [hf, rfl]
  cases i with
  | rst => exact absurd rfl hi
  | tick =>
    cases he
    obtain hx | hx := asScheduler_cases h Hw.tick <;> rw [hx]
    · cases hs : h.sched.sstate with
      | idle => simp [tick_overrun, hs]
      | conv => simp [tick_overrun, hs]
    · exact .inl rfl
  | adcDone d => cases he; exact .inl (port _ (adcDone_overrun ..))
  | adcDoneTick d => cases he; exact .inl (port _ (by simp [tick_overrun]))
  | _ => exact .inl (congrArg Sched.overrun (exec_sched rfl he))

/-- What an operation other than RST leaves in `proto_err`: a converter's report during IDLE may set it, nothing else
touches it. -/
theorem exec_protoErr {i : Instr} {h t : Hw p} (hi : i ≠ .rst) (he : exec i ⟨p, h⟩ = .next ⟨p, t⟩) :
    t.sched.protoErr = h.sched.protoErr ∨
      (t.sched.protoErr = true ∧ (∃ d, i = .adcDone d ∨ i = .adcDoneTick d) ∧ h.sched.sstate = .idle) := by
  have report : ∀ f : Hw p → Hw p, (f h).sched.protoErr = (h.sched.protoErr || decide (h.sched.sstate = .idle)) →
      (h.asScheduler f).sched.protoErr = h.sched.protoErr ∨
        ((h.asScheduler f).sched.protoErr = true ∧ h.sched.sstate = .idle) := by
    intro f hf
    obtain hx | hx := asScheduler_cases h f <;> rw [hx]
    · cases hs : h.sched.sstate <;> simp [hf, hs]
    · exact .inl rfl
  cases i with
  | rst => exact absurd rfl hi
  | tick =>
    cases he
    obtain hx | hx := asScheduler_cases h Hw.tick <;> rw [hx]
    exacts [.inl (tick_protoErr h), .inl rfl]
  | adcDone d =>
    cases he
    exact (report _ (adcDone_protoErr ..)).imp_right fun ⟨ht, hs⟩ => ⟨ht, ⟨d, .inl rfl⟩, hs⟩
  | adcDoneTick d =>
    cases he
    exact (report _ (by rw [tick_protoErr, adcDone_protoErr])).imp_right fun ⟨ht, hs⟩ =>
      ⟨ht, ⟨d, .inr rfl⟩, hs⟩
  | _ => exact .inl (congrArg Sched.protoErr (exec_sched rfl he))

/-- Settles O50: RST aside, a flag keeps its value or its own event sets it. -/
theorem stickyFlagsAreClearedOnlyByRst : Obligations.StickyFlagsAreClearedOnlyByRst := by
  unfold Obligations.StickyFlagsAreClearedOnlyByRst
  intro p h t i he
  by_cases hi : i = .rst
  · subst hi
    cases he
    simp [Sched.reset]
  · refine ⟨fun h1 h0 => ?_, fun h1 h0 => ?_, fun h0 h1 => ?_, fun h0 h1 => ?_⟩
    · obtain hk | ⟨ht, -⟩ := exec_overrun hi he <;> simp_all
    · obtain hk | ⟨ht, -⟩ := exec_protoErr hi he <;> simp_all
    · obtain hk | ⟨-, hev⟩ := exec_overrun hi he
      · simp_all
      · exact hev
    · obtain hk | ⟨-, hev⟩ := exec_protoErr hi he
      · simp_all
      · exact hev

end Sys2Proof.Machine
end

section
/-!
O51. The model-only marks and the history (R44): each operation may set a mark and add an event, and does nothing else
to them; so does a step.
-/

namespace Sys2Proof.Machine

variable {p : Params}

/-! ## Growth -/

/-- Marks stay set and the history grows at its end only (R44). -/
structure ModelOnly.Grows (m n : ModelOnly p) : Prop where
  refused : m.refused = true → n.refused = true
  firUnbound : m.faults.firUnbound = true → n.faults.firUnbound = true
  readUnspec : m.faults.readUnspec = true → n.faults.readUnspec = true
  events : m.events <+: n.events

namespace ModelOnly.Grows

theorem refl (m : ModelOnly p) : m.Grows m := ⟨id, id, id, m.events.prefix_refl⟩

theorem trans {m n o : ModelOnly p} (h : m.Grows n) (g : n.Grows o) : m.Grows o :=
  ⟨g.refused ∘ h.refused, g.firUnbound ∘ h.firUnbound, g.readUnspec ∘ h.readUnspec, h.events.trans g.events⟩

theorem setSys (h : Hw p) (v : BitVec 2) : h.model.Grows (h.setSys v).model :=
  ⟨id, id, id, h.model.events.prefix_refl⟩

theorem setSchedule (h : Hw p) (ls : List Line) : h.model.Grows (h.setSchedule ls).model :=
  ⟨id, id, id, h.model.events.prefix_refl⟩

theorem take (h : Hw p) (i : Instr) (ls : List Line) : h.model.Grows (h.take i ls).model :=
  ⟨id, id, id, h.model.events.prefix_refl⟩

theorem recordFault (h : Hw p) (f : ModelFault) : h.model.Grows (h.recordFault f).model := by
  cases f
  · exact ⟨id, fun _ => rfl, id, h.model.events.prefix_refl⟩
  · exact ⟨id, id, fun _ => rfl, h.model.events.prefix_refl⟩

theorem refuse (h : Hw p) (r : RefusalName) : h.model.Grows (h.refuse r).model :=
  ⟨fun _ => rfl, id, id, h.model.events.prefix_refl⟩

theorem refuseIf (h : Hw p) (r : Option RefusalName) : h.model.Grows (h.refuseIf r).model := by
  cases r with
  | none => exact refl _
  | some r => exact refuse h r

theorem emit (h : Hw p) (e : Event p.dataW) : h.model.Grows (h.emit e).model :=
  ⟨id, id, id, List.prefix_append ..⟩

/-! ## Operations -/

theorem put (h : Hw p) (d : BitVec p.dataW) : h.model.Grows (h.put d).model := by
  obtain ⟨-, he⟩ | ⟨-, he⟩ := put_cases h d <;> rw [he] <;> exact emit { h with fifo := _ } _

theorem get (h : Hw p) : h.model.Grows h.get.model := by
  obtain ⟨-, he⟩ | ⟨-, -, he⟩ | ⟨d, -, -, he⟩ := get_cases h <;> rw [he]
  exacts [emit { h with fifo := _ } _, recordFault h _, emit { h with fifo := _ } _]

theorem firInit (h : Hw p) (k : BitVec p.klw) (taps : List F32) : h.model.Grows (h.firInit k taps).model := by
  obtain ⟨-, he⟩ | ⟨-, -, he⟩ | ⟨-, -, he⟩ := firInit_cases h k taps <;> rw [he]
  exacts [emit { h with fir := _ } _, refuse h _, emit { h with fir := _ } _]

theorem firUpdate {h t : Hw p} {d : BitVec p.dataW} (hu : h.firUpdate d = .ok t) : h.model.Grows t.model := by
  obtain ⟨-, rfl⟩ | ⟨-, -, rfl⟩ | ⟨pairs, -, -, -, -, -, rfl⟩ := firUpdate_cases hu
  exacts [recordFault h _, recordFault h _, ⟨id, id, id, List.prefix_append ..⟩]

theorem tick (h : Hw p) : h.model.Grows h.tick.model := by
  cases hs : h.sched.sstate
  · rw [tick_idle hs]; exact emit { h with sched := _ } _
  · rw [tick_conv hs]; exact emit { h with sched := _ } _

theorem adcDone (h : Hw p) (d : BitVec p.dataW) : h.model.Grows (h.adcDone d).model := by
  cases hs : h.sched.sstate
  · rw [adcDone_idle d hs]; exact refl _
  · rw [adcDone_conv d hs]; exact put { h with sched := { h.sched with sstate := .idle } } d

theorem asScheduler {h : Hw p} {f : Hw p → Hw p} (hf : h.model.Grows (f h).model) :
    h.model.Grows (h.asScheduler f).model := by
  obtain hx | hx := asScheduler_cases h f <;> rw [hx]
  exacts [hf, refuse h _]

theorem asProducer {h : Hw p} {f : Hw p → Hw p} (hf : h.model.Grows (f h).model) :
    h.model.Grows (h.asProducer f).model := by
  obtain hx | hx := asProducer_cases h f <;> rw [hx]
  exacts [hf, refuse h _]

/-! ## exec and step -/

/-- No operation clears a mark or an event, RST among them (R44). -/
theorem of_exec {i : Instr} {h t : Hw p} (he : exec i ⟨p, h⟩ = .next ⟨p, t⟩) : h.model.Grows t.model := by
  cases i with
  | put d => cases he; exact asProducer (put h _)
  | get => cases he; exact get h
  | firInit k taps => cases he; exact firInit h _ taps
  | firUpdate d => exact firUpdate (exec_firUpdate_next.mp he)
  | tick => cases he; exact asScheduler (tick h)
  | adcDone d => cases he; exact asScheduler (adcDone h _)
  | adcDoneTick d => cases he; exact asScheduler ((adcDone h _).trans (tick _))
  | sysNop | rst | fifoInit | wNop | rNop | fNop | sNop | rsync | wsync => cases he; exact refl _

/-- No step clears a mark or an event. -/
theorem of_step {h t : Hw p} (he : step ⟨p, h⟩ = .next ⟨p, t⟩) : h.model.Grows t.model := by
  obtain ⟨h', hn, hh⟩ | ⟨i, v, ls, -, -, -, -, hx⟩ := step_cases h
  · cases he.symm.trans hn
    obtain rfl | ⟨ls, r, rfl⟩ | ⟨ls, v, r, -, rfl⟩ | ⟨ls, rfl⟩ := hh
    · exact refl _
    · exact (setSchedule h ls).trans (refuse _ r)
    · exact ((setSys h v).trans (setSchedule _ ls)).trans (refuseIf _ r)
    · exact (take h _ ls).trans (recordFault _ _)
  · rw [hx] at he
    exact ((setSys h v).trans (take _ i ls)).trans (of_exec he)

end ModelOnly.Grows

/-- Settles O51, field by field from what a step does to the marks and the history. -/
theorem marksAndHistoryAreNeverCleared : Obligations.MarksAndHistoryAreNeverCleared := by
  unfold Obligations.MarksAndHistoryAreNeverCleared
  intro p h t he
  obtain ⟨hr, hb, hu, es, hes⟩ := ModelOnly.Grows.of_step he
  exact ⟨hr, hb, hu, es, hes.symm⟩

end Sys2Proof.Machine
end

section
/-!
O33, O34, O53. The state after reset, the base case of the invariants, and the output ports.
-/

namespace Sys2Proof.Machine

variable {p : Params}

/-! ## After reset -/

/-- RST of a machine just reset changes nothing (R230, R231). -/
theorem rst_reset (p : Params) : (Hw.reset p).rst = Hw.reset p := rfl

/-- The write view of a machine just reset has room (R104, R106). -/
theorem wfull_reset : (Fifo.reset Config.reference).wfull = false := by decide

/-- The read view of a machine just reset is empty (R105, R106). -/
theorem rempty_reset (p : Params) : (Fifo.reset p).rempty = true := beq_self_eq_true _

/-- Settles O33, field by field; the two flags are the Gray comparisons of equal pointers. -/
theorem resetLeavesTheListedValues : Obligations.ResetLeavesTheListedValues := by
  unfold Obligations.ResetLeavesTheListedValues
  exact ⟨rfl, rfl, read_nil, rfl, rfl, rfl, rfl, rfl, rfl, rfl, rfl, rfl, rfl, wfull_reset, rempty_reset _,
    _, rfl, rst_reset _⟩

/-- All pointers of a FIFO just reset are 0, and nothing is unread (R112, R113, R115). -/
theorem Fifo.inv_reset (p : Params) : (Fifo.reset p).Inv where
  wgray_eq := gray_zero.symm
  rgray_eq := gray_zero.symm
  arc := by simp [Fifo.pR2, Fifo.pR1, Fifo.pW2, Fifo.pW1, Fifo.reset]
  mem_wf := wf_reset _
  written k hk := by simp [Fifo.occ, Fifo.reset] at hk
  wst := .inl rfl
  gst := .inl rfl

/-- A filter just reset is unbound (R33, R47). -/
theorem Fir.inv_reset (p : Params) : (Fir.reset p).Inv where
  coef_wf := wf_reset _
  hist_wf := wf_reset _
  y_ne := nofun
  fst := .inl rfl
  range := nofun
  coefs := nofun
  hists := nofun
  bound_fst := nofun

/-- A scheduler just reset is as the wiring keeps it, and no refusal stands (R204, R210). -/
theorem Hw.wiringInv_reset (hl : p.legal = true) : (Hw.reset p).WiringInv := ⟨hl, fun _ => rfl, rfl⟩

theorem State.inv_reset (hl : p.legal = true) : State.Inv ⟨p, Hw.reset p⟩ :=
  ⟨Fifo.inv_reset p, Fir.inv_reset p, Hw.wiringInv_reset hl⟩

/-- Settles O34, block by block; the reference parameters are legal. -/
theorem invariantsHoldAtReset : Obligations.InvariantsHoldAtReset := by
  unfold Obligations.InvariantsHoldAtReset
  exact ⟨State.inv_reset (p := Config.reference) (by decide), fun _ hl => State.inv_reset hl⟩

/-! ## Output ports -/

/-- The full flag compares the next write pointer's Gray code (R104). -/
theorem wfull_eq_decide (f : Fifo p) : f.wfull = decide (gray (inc f.wbin) = f.wq2Rgray) := beq_eq_decide _ _

/-- The empty flag compares the Gray pointers of the read view (R105). -/
theorem rempty_eq_decide (f : Fifo p) : f.rempty = decide (f.rgray = f.rq2Wgray) := beq_eq_decide _ _

/-- Settles O53: each port is its element, the two flags their Gray comparisons. -/
theorem outputsShowTheState : Obligations.OutputsShowTheState := by
  unfold Obligations.OutputsShowTheState
  exact ⟨⟨rfl, rfl, rfl, rfl⟩, fun p h => by rw [Hw.outputs, wfull_eq_decide, rempty_eq_decide]⟩

end Sys2Proof.Machine
end

section
/-!
O48, O49. The domains of R70: what each operation leaves alone of the other domain's side of the FIFO, and that what it
writes depends on its own side only, but for the Gray pointer a synchroniser samples and the slot a GET reads.
-/

namespace Sys2Proof.Machine

variable {p : Params}

/-! ## Frames -/

/-- PUT is an operation of the write domain (R70). -/
@[simp] theorem put_readSide (h : Hw p) (d : BitVec p.dataW) : (h.put d).fifo.readSide = h.fifo.readSide := by
  obtain ⟨-, he⟩ | ⟨-, he⟩ := put_cases h d <;> rw [he] <;> rfl

/-- GET is an operation of the read domain (R70). -/
@[simp] theorem get_writeSide (h : Hw p) : h.get.fifo.writeSide = h.fifo.writeSide := by
  obtain ⟨-, he⟩ | ⟨-, -, he⟩ | ⟨d, -, -, he⟩ := get_cases h <;> rw [he] <;> rfl

@[simp] theorem tick_fifo (h : Hw p) : h.tick.fifo = h.fifo := by
  cases hs : h.sched.sstate
  · rw [tick_idle hs]; rfl
  · rw [tick_conv hs]; rfl

/-- ADC_DONE reaches the FIFO through PUT only (R173). -/
@[simp] theorem adcDone_readSide (h : Hw p) (d : BitVec p.dataW) :
    (h.adcDone d).fifo.readSide = h.fifo.readSide := by
  cases hs : h.sched.sstate
  · rw [adcDone_idle d hs]
  · rw [adcDone_conv d hs, put_readSide]

@[simp] theorem firInit_fifo (h : Hw p) (k : BitVec p.klw) (taps : List F32) : (h.firInit k taps).fifo = h.fifo := by
  obtain ⟨-, he⟩ | ⟨-, -, he⟩ | ⟨-, -, he⟩ := firInit_cases h k taps <;> rw [he] <;> rfl

theorem firUpdate_fifo {h t : Hw p} {d : BitVec p.dataW} (hu : h.firUpdate d = .ok t) : t.fifo = h.fifo := by
  obtain ⟨-, rfl⟩ | ⟨-, -, rfl⟩ | ⟨pairs, -, -, -, -, -, rfl⟩ := firUpdate_cases hu <;> rfl

/-- The write side is written by the write domain's operations, RST and FIFO_INIT only (R70). -/
theorem exec_writeSide {i : Instr} {h t : Hw p} (hi : writesWriteSide i = false) (he : exec i ⟨p, h⟩ = .next ⟨p, t⟩) :
    t.fifo.writeSide = h.fifo.writeSide := by
  cases i with
  | rst | fifoInit | put | adcDone | adcDoneTick | rsync => cases hi
  | get => cases he; exact get_writeSide h
  | firInit k taps => cases he; exact congrArg Fifo.writeSide (firInit_fifo ..)
  | firUpdate d => exact congrArg Fifo.writeSide (firUpdate_fifo (exec_firUpdate_next.mp he))
  | tick =>
    cases he
    obtain hx | hx := asScheduler_cases h Hw.tick <;> rw [hx]
    exacts [congrArg Fifo.writeSide (tick_fifo h), rfl]
  | sysNop | wNop | rNop | fNop | sNop | wsync => cases he; rfl

/-- The read side is written by the read domain's operations, RST and FIFO_INIT only (R70). -/
theorem exec_readSide {i : Instr} {h t : Hw p} (hi : writesReadSide i = false) (he : exec i ⟨p, h⟩ = .next ⟨p, t⟩) :
    t.fifo.readSide = h.fifo.readSide := by
  have sched : ∀ f : Hw p → Hw p, (f h).fifo.readSide = h.fifo.readSide →
      (h.asScheduler f).fifo.readSide = h.fifo.readSide := by
    intro f hf
    obtain hx | hx := asScheduler_cases h f <;> rw [hx]
    exacts [hf, rfl]
  cases i with
  | rst | fifoInit | get | wsync => cases hi
  | put d =>
    cases he
    obtain hx | hx := asProducer_cases h fun h => h.put (sampleIn p d) <;> rw [hx]
    exacts [put_readSide .., rfl]
  | firInit k taps => cases he; exact congrArg Fifo.readSide (firInit_fifo ..)
  | firUpdate d => exact congrArg Fifo.readSide (firUpdate_fifo (exec_firUpdate_next.mp he))
  | tick => cases he; exact sched _ (congrArg Fifo.readSide (tick_fifo h))
  | adcDone d => cases he; exact sched _ (adcDone_readSide ..)
  | adcDoneTick d =>
    cases he
    exact sched _ ((congrArg Fifo.readSide (tick_fifo _)).trans (adcDone_readSide ..))
  | sysNop | wNop | rNop | fNop | sNop | rsync => cases he; rfl

/-- Settles O48, by the frame of each element. -/
theorem eachDomainWritesOnlyItsOwnState : Obligations.EachDomainWritesOnlyItsOwnState := by
  unfold Obligations.EachDomainWritesOnlyItsOwnState
  exact fun p h t i he =>
    ⟨(exec_writeSide · he), (exec_readSide · he), (exec_fir · he), (exec_sched · he)⟩

/-! ## The write domain sees its own side -/

theorem writeSide_eq_iff {f g : Fifo p} : f.writeSide = g.writeSide ↔
    f.mem = g.mem ∧ f.wbin = g.wbin ∧ f.wgray = g.wgray ∧ f.wq1Rgray = g.wq1Rgray ∧ f.wq2Rgray = g.wq2Rgray ∧
      f.wstQ = g.wstQ := by
  simp [Fifo.writeSide]

/-- FIFO_INIT keeps the storage and clears the rest (R106). -/
theorem init_writeSide_congr {f g : Fifo p} (hs : f.writeSide = g.writeSide) : f.init.writeSide = g.init.writeSide := by
  obtain ⟨hm, -⟩ := writeSide_eq_iff.mp hs
  exact writeSide_eq_iff.mpr ⟨hm, rfl, rfl, rfl, rfl, rfl⟩

/-- Two machines agree in what the write domain sees: its side of the FIFO and the scheduler (R70, R212). -/
structure Hw.WriteAgree (h g : Hw p) : Prop where
  side : h.fifo.writeSide = g.fifo.writeSide
  sched : h.sched = g.sched

namespace Hw.WriteAgree

variable {h g : Hw p}

theorem refuse (ha : h.WriteAgree g) (r : RefusalName) : (h.refuse r).WriteAgree (g.refuse r) := ⟨ha.side, ha.sched⟩

/-- A change of the scheduler's state that depends on that state only. -/
theorem setSched (ha : h.WriteAgree g) (c : Sched → Sched) :
    { h with sched := c h.sched }.WriteAgree { g with sched := c g.sched } := ⟨ha.side, congrArg c ha.sched⟩

theorem put (ha : h.WriteAgree g) (d : BitVec p.dataW) : (h.put d).WriteAgree (g.put d) := by
  refine ⟨?_, by rw [put_sched, put_sched, ha.sched]⟩
  obtain ⟨hm, hb, hg, h1, h2, -⟩ := writeSide_eq_iff.mp ha.side
  have hfull : g.fifo.wfull = h.fifo.wfull := by rw [Fifo.wfull, Fifo.wfull, hb, h2]
  rw [writeSide_eq_iff]
  cases hf : h.fifo.wfull
  · rw [put_room d hf, put_room d (hfull.trans hf)]
    simp [hm, hb, h1, h2]
  · rw [put_full d hf, put_full d (hfull.trans hf)]
    simp [hm, hb, hg, h1, h2]

theorem tick (ha : h.WriteAgree g) : h.tick.WriteAgree g.tick := by
  refine ⟨by rw [tick_fifo, tick_fifo, ha.side], ?_⟩
  cases hs : h.sched.sstate
  · rw [tick_idle hs, tick_idle (ha.sched ▸ hs)]; simp [ha.sched]
  · rw [tick_conv hs, tick_conv (ha.sched ▸ hs)]; simp [ha.sched]

theorem adcDone (ha : h.WriteAgree g) (d : BitVec p.dataW) : (h.adcDone d).WriteAgree (g.adcDone d) := by
  cases hs : h.sched.sstate
  · rw [adcDone_idle d hs, adcDone_idle d (ha.sched ▸ hs)]
    exact ha.setSched fun sc => { sc with protoErr := true }
  · rw [adcDone_conv d hs, adcDone_conv d (ha.sched ▸ hs)]
    exact (ha.setSched fun sc => { sc with sstate := .idle }).put d

theorem asScheduler (ha : h.WriteAgree g) {f : Hw p → Hw p} (hf : (f h).WriteAgree (f g)) :
    (h.asScheduler f).WriteAgree (g.asScheduler f) := by
  unfold Hw.asScheduler
  split
  exacts [hf, ha.refuse _]

theorem asProducer (ha : h.WriteAgree g) {f : Hw p → Hw p} (hf : (f h).WriteAgree (f g)) :
    (h.asProducer f).WriteAgree (g.asProducer f) := by
  unfold Hw.asProducer
  split
  exacts [ha.refuse _, hf]

/-- RSYNC samples the read domain's Gray pointer, and nothing else crosses to the write domain (R70, R109). -/
theorem of_exec {i : Instr} {h' g' : Hw p} (ha : h.WriteAgree g) (hr : i = .rsync → h.fifo.rgray = g.fifo.rgray)
    (he : exec i ⟨p, h⟩ = .next ⟨p, h'⟩) (ge : exec i ⟨p, g⟩ = .next ⟨p, g'⟩) : h'.WriteAgree g' := by
  cases i with
  | rst => cases he; cases ge; exact ⟨init_writeSide_congr ha.side, rfl⟩
  | fifoInit => cases he; cases ge; exact ⟨init_writeSide_congr ha.side, ha.sched⟩
  | put d => cases he; cases ge; exact ha.asProducer (ha.put _)
  | tick => cases he; cases ge; exact ha.asScheduler ha.tick
  | adcDone d => cases he; cases ge; exact ha.asScheduler (ha.adcDone _)
  | adcDoneTick d => cases he; cases ge; exact ha.asScheduler (ha.adcDone _).tick
  | rsync =>
    cases he
    cases ge
    obtain ⟨hm, hb, hg, h1, -, hst⟩ := writeSide_eq_iff.mp ha.side
    exact ⟨writeSide_eq_iff.mpr ⟨hm, hb, hg, hr rfl, h1, hst⟩, ha.sched⟩
  | sysNop | wNop | rNop | get | fNop | firUpdate | firInit | sNop | wsync =>
    exact ⟨by rw [exec_writeSide rfl he, exec_writeSide rfl ge, ha.side],
      by rw [exec_sched rfl he, exec_sched rfl ge, ha.sched]⟩

end Hw.WriteAgree

/-! ## The read domain sees its own side -/

theorem readSide_eq_iff {f g : Fifo p} : f.readSide = g.readSide ↔
    f.rbin = g.rbin ∧ f.rgray = g.rgray ∧ f.rq1Wgray = g.rq1Wgray ∧ f.rq2Wgray = g.rq2Wgray ∧ f.rdataQ = g.rdataQ ∧
      f.gstQ = g.gstQ := by
  simp [Fifo.readSide]

/-- FIFO_INIT keeps the last value read and clears the rest (R106). -/
theorem init_readSide_congr {f g : Fifo p} (hs : f.readSide = g.readSide) : f.init.readSide = g.init.readSide := by
  obtain ⟨-, -, -, -, hd, -⟩ := readSide_eq_iff.mp hs
  exact readSide_eq_iff.mpr ⟨rfl, rfl, rfl, rfl, hd, rfl⟩

/-- GET while the read view is empty (R108). -/
theorem get_empty {h : Hw p} (he : h.fifo.rempty = true) :
    h.get = { h with fifo := { h.fifo with gstQ := .underflow } }.emit (.gstValid .underflow none) := by
  simp [Hw.get, he]

/-- GET of a slot that nothing has written (R203). -/
theorem get_unspec {h : Hw p} (he : h.fifo.rempty = false)
    (hr : Memory.read h.fifo.mem h.fifo.rbin.toNat = .unspec) : h.get = h.recordFault .readUnspec := by
  simp [Hw.get, he, hr]

/-- GET of a written slot (R108). -/
theorem get_val {h : Hw p} {d : BitVec p.dataW} (he : h.fifo.rempty = false)
    (hr : Memory.read h.fifo.mem h.fifo.rbin.toNat = .val d) :
    h.get = { h with fifo := { h.fifo with
        rdataQ := .val d
        rbin := inc h.fifo.rbin
        rgray := gray (inc h.fifo.rbin)
        gstQ := .success } }.emit (.gstValid .success (some d)) := by
  simp [Hw.get, he, hr]

/-- GET reads one slot of the write domain's storage, the one its own cursor names (R70, R108). -/
theorem get_readSide_congr {h g : Hw p} (hs : h.fifo.readSide = g.fifo.readSide)
    (hslot : Memory.read h.fifo.mem h.fifo.rbin.toNat = Memory.read g.fifo.mem h.fifo.rbin.toNat) :
    h.get.fifo.readSide = g.get.fifo.readSide := by
  obtain ⟨hb, hg, h1, h2, hd, -⟩ := readSide_eq_iff.mp hs
  have hempty : g.fifo.rempty = h.fifo.rempty := by rw [Fifo.rempty, Fifo.rempty, hg, h2]
  have hread : Memory.read g.fifo.mem g.fifo.rbin.toNat = Memory.read h.fifo.mem h.fifo.rbin.toNat := by rw [hslot, hb]
  cases he : h.fifo.rempty
  · cases hr : Memory.read h.fifo.mem h.fifo.rbin.toNat with
    | unspec =>
      rw [get_unspec he hr, get_unspec (hempty.trans he) (hread.trans hr)]
      exact hs
    | val d =>
      rw [get_val he hr, get_val (hempty.trans he) (hread.trans hr), readSide_eq_iff]
      simp [hb, h1, h2]
  · rw [get_empty he, get_empty (hempty.trans he), readSide_eq_iff]
    simp [hb, hg, h1, h2, hd]

/-- WSYNC samples the write domain's Gray pointer and GET reads a slot, and nothing else crosses to the read domain
(R70, R110). -/
theorem exec_readSide_congr {i : Instr} {h g h' g' : Hw p} (hs : h.fifo.readSide = g.fifo.readSide)
    (hw : i = .wsync → h.fifo.wgray = g.fifo.wgray)
    (hslot : i = .get → Memory.read h.fifo.mem h.fifo.rbin.toNat = Memory.read g.fifo.mem h.fifo.rbin.toNat)
    (he : exec i ⟨p, h⟩ = .next ⟨p, h'⟩) (ge : exec i ⟨p, g⟩ = .next ⟨p, g'⟩) :
    h'.fifo.readSide = g'.fifo.readSide := by
  cases i with
  | rst | fifoInit => cases he; cases ge; exact init_readSide_congr hs
  | get => cases he; cases ge; exact get_readSide_congr hs (hslot rfl)
  | wsync =>
    cases he
    cases ge
    obtain ⟨hb, hg, h1, -, hd, hst⟩ := readSide_eq_iff.mp hs
    exact readSide_eq_iff.mpr ⟨hb, hg, hw rfl, h1, hd, hst⟩
  | _ => rw [exec_readSide rfl he, exec_readSide rfl ge, hs]

/-- Settles O49, domain by domain. -/
theorem onlyGrayPointersAndTheReadSlotCross : Obligations.OnlyGrayPointersAndTheReadSlotCross := by
  unfold Obligations.OnlyGrayPointersAndTheReadSlotCross
  intro p h g h' g' i he ge
  refine ⟨fun hs hc hr => ?_, fun hs hw hslot => exec_readSide_congr hs hw hslot he ge⟩
  obtain ⟨hs', hc'⟩ := Hw.WriteAgree.of_exec ⟨hs, hc⟩ hr he ge
  exact ⟨hs', hc'⟩

end Sys2Proof.Machine
end

section
/-!
O1, O2, O3, O14. Decoder and encoder (R82, R83, R92): the check an operand passes, the two vectors of FIR_INIT, and that
the words of `coef_i` read off the bus are the words put on it.
-/

namespace Sys2Proof.Machine

variable {p : Params}

/-! ## Operands -/

/-- Both vectors of FIR_INIT's row: bit 0 is an `x` (R83). -/
theorem decode_fport_firInit {v : BitVec 2} (hv : v = 0b10 ∨ v = 0b11) (k c x : Nat) :
    decode p (.fport v k c x) =
      if fits p.klw k then checked (32 * p.lMax) c .coefI (.firInit k (unpackTaps p.lMax c)) else .reject .klenI := by
  obtain rfl | rfl := hv <;> rfl

theorem fits_eq_true {w x : Nat} : fits w x = true ↔ x < 2 ^ w := decide_eq_true_iff

/-- An operand that fits its field spells its operation (R92). -/
theorem checked_of_lt {w x : Nat} (f : Field) (i : Instr) (hx : x < 2 ^ w) : checked w x f i = .ok i :=
  checked_eq_ok.mpr ⟨fits_eq_true.mpr hx, rfl⟩

/-- An operand that does not fit its field spells none (R92). -/
theorem checked_of_le {w x : Nat} (f : Field) (i : Instr) (hx : 2 ^ w ≤ x) : checked w x f i = .reject f := by
  simp [checked, fits, hx]

/-- FIR_INIT with its operands in range (R82, R92). -/
theorem decode_fport_firInit_of_lt {v : BitVec 2} (hv : v = 0b10 ∨ v = 0b11) {k c : Nat} (x : Nat)
    (hk : k < 2 ^ p.klw) (hc : c < 2 ^ (32 * p.lMax)) :
    decode p (.fport v k c x) = .ok (.firInit k (unpackTaps p.lMax c)) := by
  rw [decode_fport_firInit hv, if_pos (fits_eq_true.mpr hk), checked_of_lt _ _ hc]

/-! ## The `coef_i` bus -/

/-- The words fit the bus they are put on (R63, R82). -/
theorem packTaps_lt (ts : List F32) : packTaps ts < 2 ^ (32 * ts.length) := by
  induction ts with
  | nil => simp [packTaps]
  | cons t ts ih =>
    have ht : t.toNat < 2 ^ 32 := t.isLt
    have hp : 2 ^ (32 * (t :: ts).length) = 2 ^ 32 * 2 ^ (32 * ts.length) := by
      rw [List.length_cons, Nat.mul_succ, Nat.add_comm, Nat.pow_add]
    rw [packTaps, hp]
    omega

/-- The words read off the bus are the words put on it, tap 0 in the low bits (R63). -/
theorem unpackTaps_packTaps (ts : List F32) : unpackTaps ts.length (packTaps ts) = ts := by
  induction ts with
  | nil => rfl
  | cons t ts ih =>
    have ht : t.toNat < 2 ^ 32 := t.isLt
    have hlow : BitVec.ofNat 32 (t.toNat + 2 ^ 32 * packTaps ts) = t := by
      apply BitVec.eq_of_toNat_eq
      rw [BitVec.toNat_ofNat, Nat.add_mul_mod_self_left, Nat.mod_eq_of_lt ht]
    have hhigh : (t.toNat + 2 ^ 32 * packTaps ts) / 2 ^ 32 = packTaps ts := by omega
    rw [List.length_cons, packTaps, unpackTaps, hlow, hhigh, ih]

/-! ## Round trip, rows, listings -/

/-- Settles O1, row by row: the vectors without an operand compute, an operand that fits passes its check, and the taps
come back off the bus. -/
theorem decodeOfEncodeGivesBackTheOperation : Obligations.DecodeOfEncodeGivesBackTheOperation := by
  unfold Obligations.DecodeOfEncodeGivesBackTheOperation
  intro p i hw
  cases i with
  | put x | firUpdate x | adcDone x | adcDoneTick x => exact checked_of_lt _ _ (fits_eq_true.mp hw)
  | firInit k taps =>
    obtain ⟨hk, hn⟩ := Bool.and_eq_true_iff.mp hw
    have hl : taps.length = p.lMax := of_decide_eq_true hn
    rw [encode, decode_fport_firInit_of_lt (.inl rfl) _ (fits_eq_true.mp hk) (hl ▸ packTaps_lt taps), ← hl,
      unpackTaps_packTaps]
  | sysNop | rst | fifoInit | wNop | rNop | get | fNop | sNop | tick | rsync | wsync => rfl

/-- In each port group every vector is selected by one row of the map and by no other (R83). -/
theorem exists_unique_row (g : Group) (v : BitVec 2) : ∃ r ∈ opcodeRows, r.group = g ∧ v &&& r.mask = r.pattern ∧
    ∀ r' ∈ opcodeRows, r'.group = g → v &&& r'.mask = r'.pattern → r' = r := by
  cases g <;> revert v <;> decide

/-- Settles O2: the rows partition the vectors of each group, and each vector computes to its row's operation, with the
check of the operand where the row uses one. -/
theorem everyVectorSelectsItsRow : Obligations.EveryVectorSelectsItsRow := by
  unfold Obligations.EveryVectorSelectsItsRow
  refine ⟨exists_unique_row, fun p wdata klenI coef fsample adcData => ?_⟩
  refine ⟨rfl, rfl, rfl, rfl, rfl, checked_of_lt _ _, rfl, rfl, rfl, checked_of_lt _ _, fun hk hc => ?_, rfl, rfl,
    checked_of_lt _ _, checked_of_lt _ _⟩
  exact ⟨unpackTaps p.lMax coef, unpackTaps_length _ _, fun i hi => unpackTaps_getElem? coef hi,
    decode_fport_firInit_of_lt (.inl rfl) _ hk hc, decode_fport_firInit_of_lt (.inr rfl) _ hk hc⟩

/-- Settles O3: each listed input is what the encoder presents for its operation, and the operations are well-formed. -/
theorem listedInputsDecodeAsListed : Obligations.ListedInputsDecodeAsListed := by
  unfold Obligations.ListedInputsDecodeAsListed
  have trip := decodeOfEncodeGivesBackTheOperation Config.reference
  exact ⟨trip (.put 0x11) rfl, trip (.adcDone 5) rfl, trip (.adcDoneTick 0) rfl, trip .rst rfl, trip .get rfl,
    trip (.firUpdate 4) rfl,
    trip (.firInit 3 ([0x3F000000#32, 0x3E99999A#32, 0x3E4CCCCD#32] ++ List.replicate 29 0x00000000#32)) rfl⟩

/-- Settles O14: each NOP row answers the state it was given. -/
theorem nopsChangeNothing : Obligations.NopsChangeNothing := by
  unfold Obligations.NopsChangeNothing
  refine ⟨fun s i hi => ?_, fun p wdata => rfl⟩
  obtain rfl | rfl | rfl | rfl | rfl := hi <;> exact ⟨rfl, rfl⟩

end Sys2Proof.Machine
end

section
/-!
O4, O30, O32, O54. What `step` does with a program line (R81, R91 to R97): a line refused for its operand, a line of a
port other than `SYS`, the two lines of a DRAIN, and any line while the block is held.
-/

namespace Sys2Proof.Machine

variable {p : Params} {h : Hw p} {l : Line} {rest : List Line}

/-! ## Lines -/

/-- A line whose operand does not fit is refused whatever stands on `SYS` (R92, R204). -/
theorem step_reject {st : Stimulus} {more : List Line} {f : Field} (hl : p.legal = true)
    (hs : h.model.schedule = l :: rest) (he : l.expand = (.stimulus st, more)) (hd : decode p st = .reject f) :
    step ⟨p, h⟩ = .next ⟨p, (h.setSchedule (more ++ rest)).refuse .operandRange⟩ := by
  simp only [step, fetch_line hl hs, he, fetchBasic, hd]

/-- A line of a port other than `SYS` leaves what stands on `SYS` and runs its operation (R81). -/
theorem step_port_run {st : Stimulus} {more : List Line} {i : Instr} (hl : p.legal = true)
    (hs : h.model.schedule = l :: rest) (he : l.expand = (.stimulus st, more)) (hn : ∀ v, st ≠ .sys v)
    (hd : decode p st = .ok i) (h0 : h.model.sysLevel = 0#2) :
    step ⟨p, h⟩ = exec i ⟨p, h.take i (more ++ rest)⟩ := by
  rw [step_stimulus_run hl hs he hd h0, sysAfter_of_ne_sys hn, setSys_self]

/-- The GET of a DRAIN; the feed is put next exactly when that GET succeeds (R97). -/
theorem step_drain {ok : Bool} (hl : p.legal = true) (hs : h.model.schedule = .basic .drain :: rest)
    (h0 : h.model.sysLevel = 0#2) (hg : h.getSucceeds = ok) :
    step ⟨p, h⟩ = exec .get ⟨p, h.take .get (if ok then .basic .feedRdata :: rest else rest)⟩ := by
  simp only [step, fetch_line hl hs, Line.expand, fetchBasic, offer_run h0, setSys_self, List.nil_append, hg]

/-- A DRAIN is passed over while the block is held (R81). -/
theorem step_drain_held (hl : p.legal = true) (hs : h.model.schedule = .basic .drain :: rest)
    (h0 : h.model.sysLevel ≠ 0#2) : step ⟨p, h⟩ = .next ⟨p, h.setSchedule rest⟩ := by
  simp only [step, fetch_line hl hs, Line.expand, fetchBasic, offer_held h0, setSys_self, List.nil_append, refusalOf,
    refuseIf_none]

/-- The feed of a value read is FIR_UPDATE of that value (R97). -/
theorem step_feed {d : BitVec p.dataW} (hl : p.legal = true) (hs : h.model.schedule = .basic .feedRdata :: rest)
    (h0 : h.model.sysLevel = 0#2) (hd : h.fifo.rdataQ = .val d) :
    step ⟨p, h⟩ = exec (.firUpdate d.toNat) ⟨p, h.take (.firUpdate d.toNat) rest⟩ := by
  simp only [step, fetch_line hl hs, Line.expand, fetchBasic, hd, offer_run h0, setSys_self, List.nil_append]

/-- Everything a step can do while the block is held: only what stands on `SYS` and the schedule move, with the refusal
met if one is, or the use of an `UNSPEC` `rdata_q` is recorded (R81, R203, R204). -/
theorem step_held (hl : p.legal = true) (hs : h.model.schedule = l :: rest) (h0 : h.model.sysLevel ≠ 0#2) :
    (∃ v r, ((∀ v, l.expand.1 ≠ .stimulus (.sys v)) → v = h.model.sysLevel) ∧
      step ⟨p, h⟩ = .next ⟨p, ((h.setSys v).setSchedule (l.expand.2 ++ rest)).refuseIf r⟩) ∨
    step ⟨p, h⟩ = .next ⟨p, (h.take (.firUpdate 0) (l.expand.2 ++ rest)).recordFault .readUnspec⟩ := by
  rcases he : l.expand with ⟨b, more⟩
  dsimp only
  have hf : fetch ⟨p, h⟩ = fetchBasic ⟨p, h⟩ (more ++ rest) b := by rw [fetch_line hl hs, he]
  cases b with
  | stimulus st =>
    cases hd : decode p st with
    | ok i =>
      exact .inl ⟨_, _, fun hn => sysAfter_of_ne_sys (fun v hv => hn v (by rw [hv])) _,
        step_stimulus_held hl hs he hd h0⟩
    | reject f => exact .inl ⟨h.model.sysLevel, some .operandRange, fun _ => rfl, step_reject hl hs he hd⟩
  | feedRdata =>
    cases hd : h.fifo.rdataQ with
    | val d =>
      exact .inl ⟨_, refusalOf p (.firUpdate d.toNat), fun _ => rfl,
        by simp only [step, hf, fetchBasic, hd, offer_held h0]⟩
    | unspec => exact .inr (by simp only [step, hf, fetchBasic, hd])
  | drain => exact .inl ⟨_, refusalOf p .get, fun _ => rfl, by simp only [step, hf, fetchBasic, offer_held h0]⟩

/-! ## Operand out of range -/

/-- The lines of R92 whose sample or kernel length does not fit are rejected by the decoder. -/
theorem decode_reject_of_le {st : Stimulus} {x klenI coef : Nat}
    (hst : (2 ^ p.dataW ≤ x ∧
        (st = .wport 0b1 x ∨ st = .sport 0b10 x ∨ st = .sport 0b11 x ∨ st = .fport 0b01 klenI coef x)) ∨
      (2 ^ p.klw ≤ klenI ∧ (st = .fport 0b10 klenI coef x ∨ st = .fport 0b11 klenI coef x))) :
    ∃ f, decode p st = .reject f := by
  obtain ⟨hx, hst⟩ | ⟨hk, hst⟩ := hst
  · obtain rfl | rfl | rfl | rfl := hst <;> exact ⟨_, checked_of_le _ _ hx⟩
  · have hf : ¬ fits p.klw klenI = true := by simp [fits, hk]
    obtain rfl | rfl := hst
    · exact ⟨_, (decode_fport_firInit (.inl rfl) _ _ _).trans (if_neg hf)⟩
    · exact ⟨_, (decode_fport_firInit (.inr rfl) _ _ _).trans (if_neg hf)⟩

/-- Settles O4: the decoder rejects the line, and a rejected line is refused whatever stands on `SYS`. -/
theorem operandOutOfRangeIsRefused : Obligations.OperandOutOfRangeIsRefused := by
  unfold Obligations.OperandOutOfRangeIsRefused
  intro p h rest x klenI coef hl st hst hs
  obtain ⟨f, hd⟩ := decode_reject_of_le hst
  exact step_reject hl hs rfl hd

/-! ## R.DRAIN -/

theorem exec_get_of_eq {g t : Hw p} (hg : g.get = t) : exec .get ⟨p, g⟩ = .next ⟨p, t⟩ := by
  rw [← hg]
  rfl

/-- Settles O30: the GET of the DRAIN in its three cases, then the feed of what it read. -/
theorem drainFeedsTheFilterAfterSuccess : Obligations.DrainFeedsTheFilterAfterSuccess := by
  unfold Obligations.DrainFeedsTheFilterAfterSuccess
  intro p h rest hl hs
  refine ⟨fun i ls hi => ?_, fun d h0 he hr => ?_, fun h0 he => ?_, fun h0 he hr => ?_, step_drain_held hl hs⟩
  · obtain rfl | ⟨x, rfl⟩ := hi <;> rfl
  · have hd := step_drain (ok := true) hl hs h0 (by simp [Hw.getSucceeds, he, hr])
    exact ⟨hd, _, hd.trans (exec_get_of_eq (get_val he hr)), rfl, step_feed hl rfl h0 rfl⟩
  · have hd := step_drain (ok := false) hl hs h0 (by simp [Hw.getSucceeds, he])
    exact ⟨hd, hd.trans (exec_get_of_eq (get_empty he))⟩
  · have hd := step_drain (ok := false) hl hs h0 (by simp [Hw.getSucceeds, hr])
    exact ⟨hd, hd.trans (exec_get_of_eq (get_unspec he hr))⟩

/-! ## Pseudo-operations -/

/-- A line that presents one edge twice runs its operation twice, when that operation only moves the FIFO by `f`
(R94, R95). -/
theorem step_edge_twice {st : Stimulus} {i : Instr} {f : Fifo p → Fifo p} {more : List Line} (hl : p.legal = true)
    (h0 : h.model.sysLevel = 0#2) (hs : h.model.schedule = l :: rest)
    (he : l.expand = (.stimulus st, Line.present st :: more)) (hn : ∀ v, st ≠ .sys v) (hd : decode p st = .ok i)
    (hx : ∀ g : Hw p, exec i ⟨p, g⟩ = .next ⟨p, { g with fifo := f g.fifo }⟩) :
    ∃ t u : Hw p, step ⟨p, h⟩ = .next ⟨p, t⟩ ∧ step ⟨p, t⟩ = .next ⟨p, u⟩ ∧ u.model.schedule = more ++ rest ∧
      u.fifo = f (f h.fifo) ∧ u.fir = h.fir ∧ u.sched = h.sched := by
  have first := (step_port_run hl hs he hn hd h0).trans (hx _)
  have second := (step_port_run (h := { h.take i (Line.present st :: more ++ rest) with fifo := f h.fifo })
    hl rfl rfl hn hd h0).trans (hx _)
  exact ⟨_, _, first, second, rfl, rfl, rfl, rfl⟩

/-- Settles O32: the SETTLE lines present an edge twice, and ACQUIRE presents TICK, which leaves `SYS` and the schedule,
before its ADC_DONE. -/
theorem pseudoOperationsExpand : Obligations.PseudoOperationsExpand := by
  unfold Obligations.PseudoOperationsExpand
  intro p h rest v hl h0
  refine ⟨fun hs => ?_, fun hs => ?_, fun hs => ?_, fun hs => ?_⟩
  · obtain ⟨t, u, h1, h2, hsch, hfifo, hfir, hsched⟩ :=
      step_edge_twice (f := Fifo.wsync) hl h0 hs rfl nofun rfl fun _ => rfl
    exact ⟨t, u, h1, h2, hsch, hfifo, by rw [hfifo]; rfl, hfir, hsched⟩
  · obtain ⟨t, u, h1, h2, hsch, hfifo, hfir, hsched⟩ :=
      step_edge_twice (f := Fifo.rsync) hl h0 hs rfl nofun rfl fun _ => rfl
    exact ⟨t, u, h1, h2, hsch, hfifo, by rw [hfifo]; rfl, hfir, hsched⟩
  · obtain ⟨t, u, h1, h2, hsch, hfifo, hfir, hsched⟩ :=
      step_edge_twice (f := Fifo.wsync) hl h0 hs rfl nofun rfl fun _ => rfl
    exact ⟨t, u, h1, h2, hfifo, hfir, hsched, hsch⟩
  · have htick := step_port_run hl hs rfl nofun rfl h0
    refine ⟨_, htick, fun t ht => ?_⟩
    obtain ⟨hsys, hsch, -⟩ := exec_model (htick.symm.trans ht)
    exact step_port_run hl hsch rfl nofun (checked_of_lt _ _ v.isLt) (hsys.trans h0)

/-! ## The SYS level -/

/-- A `SYS` line is the vector, then its release (R92). -/
theorem step_sysPulse {v : BitVec 2} (hl : p.legal = true) (hs : h.model.schedule = .sysPulse v :: rest) :
    step ⟨p, h⟩ = step ⟨p, h.setSchedule (Line.present (.sys v) :: Line.present (.sys 0b00) :: rest)⟩ := by
  have hd := decode_sys (p := p) v
  by_cases h0 : h.model.sysLevel = 0#2
  · rw [step_stimulus_run hl hs rfl hd h0]
    exact (step_stimulus_run (h := h.setSchedule _) (l := .present (.sys v)) hl rfl rfl hd h0).symm
  · rw [step_stimulus_held hl hs rfl hd h0]
    exact (step_stimulus_held (h := h.setSchedule _) (l := .present (.sys v)) hl rfl rfl hd h0).symm

/-- Settles O54: a `SYS` vector runs when it leaves `00`, whatever step a held block takes moves no block, and a `SYS`
line asserts and releases. -/
theorem heldSysHoldsTheBlocks : Obligations.HeldSysHoldsTheBlocks := by
  unfold Obligations.HeldSysHoldsTheBlocks
  intro p h l rest hl hs
  refine ⟨fun v hv => ?_, fun h0 => ?_, fun v hv => step_sysPulse hl (hv ▸ hs)⟩
  · subst hv
    have hd := decode_sys (p := p) v
    refine ⟨fun h0 hv => ?_, fun hor => ?_⟩
    · rw [if_neg hv] at hd
      refine ⟨_, rfl, hd, ?_⟩
      rw [step_stimulus_run hl hs rfl hd h0]
      by_cases h2 : v = 2#2 <;> simp only [h2, if_true, if_false] <;> rfl
    · by_cases h0 : h.model.sysLevel = 0#2
      · obtain rfl := hor.resolve_left (absurd h0)
        exact step_stimulus_run hl hs rfl hd h0
      · rw [step_stimulus_held hl hs rfl hd h0, refusalOf_of_decode_sys hd]; rfl
  · obtain ⟨v, r, hv, hx⟩ | hx := step_held hl hs h0
    · exact ⟨_, hx, by simp, by simp, by simp, by simp, by simp, by simp, by simpa using hv⟩
    · exact ⟨_, hx, rfl, rfl, rfl, rfl, rfl, rfl, fun _ => rfl⟩

end Sys2Proof.Machine
end

section
/-!
O5, O6. The pointer functions at every width (R100 to R103): `gray` and `bin` bit by bit, and the one bit in which
consecutive Gray values differ.
-/

namespace Sys2Proof.Machine

variable {w : Nat}

/-! ## `bin` -/

/-- One more shift is one more bit of `g` in front of those of the next place. -/
theorem getLsbD_xorShifts_succ (g : BitVec w) (k i : Nat) :
    (xorShifts g (k + 1)).getLsbD i = ((xorShifts g k).getLsbD (i + 1) ^^ g.getLsbD i) := by
  induction k with
  | zero => simp [xorShifts]
  | succ k ih =>
    rw [xorShifts, BitVec.getLsbD_xor, ih, xorShifts, BitVec.getLsbD_xor, BitVec.getLsbD_ushiftRight,
      BitVec.getLsbD_ushiftRight, show k + 1 + i = k + (i + 1) by omega, Bool.xor_right_comm]

/-- The recurrence of R101, which holds at the top bit too, with no bit above it. -/
theorem getLsbD_bin (g : BitVec w) (i : Nat) : (bin g).getLsbD i = ((bin g).getLsbD (i + 1) ^^ g.getLsbD i) := by
  have hw : (g >>> w).getLsbD i = false := by simp
  rw [bin, ← getLsbD_xorShifts_succ, xorShifts, BitVec.getLsbD_xor, hw, Bool.xor_false]

/-- The shifts of a Gray value telescope. -/
theorem getLsbD_xorShifts_gray (b : BitVec w) (k i : Nat) :
    (xorShifts (gray b) k).getLsbD i = (b.getLsbD i ^^ b.getLsbD (i + k)) := by
  induction k with
  | zero => simp [xorShifts]
  | succ k ih =>
    rw [xorShifts, BitVec.getLsbD_xor, ih, BitVec.getLsbD_ushiftRight, getLsbD_gray, Nat.add_comm k i,
      Nat.add_assoc i k 1, Bool.xor_assoc, ← Bool.xor_assoc (b.getLsbD (i + k)), Bool.xor_self, Bool.false_xor]

@[simp] theorem bin_gray (b : BitVec w) : bin (gray b) = b := by
  apply BitVec.eq_of_getLsbD_eq
  intro i _
  simp [bin, getLsbD_xorShifts_gray]

@[simp] theorem gray_bin (g : BitVec w) : gray (bin g) = g := by
  apply BitVec.eq_of_getLsbD_eq
  intro i _
  rw [getLsbD_gray, getLsbD_bin g i, Bool.xor_right_comm, Bool.xor_self, Bool.false_xor]

/-- Comparing Gray values is comparing the binary values they encode (R101). -/
theorem gray_inj {a b : BitVec w} : gray a = gray b ↔ a = b :=
  (Function.LeftInverse.injective bin_gray).eq_iff

theorem gray_eq_iff_eq_bin {g b : BitVec w} : gray b = g ↔ b = bin g := by
  rw [← gray_inj (b := bin g), gray_bin]

/-- Settles O5: the recurrence bit by bit, and `gray` and `bin` undo each other. -/
theorem grayAndBinAreInverse : Obligations.GrayAndBinAreInverse := by
  unfold Obligations.GrayAndBinAreInverse
  intro w v
  refine ⟨?_, fun i _ => getLsbD_bin v i, bin_gray v, gray_bin v, fun u => gray_inj⟩
  rw [getLsbD_bin, BitVec.getLsbD_of_ge _ (w - 1 + 1) (by omega), Bool.false_xor]

/-! ## `inc` -/

/-- An increment carries into bit `i` exactly when all lower bits are set. -/
theorem carry_one (b : BitVec w) (i : Nat) (hi : 0 < i) (hiw : i ≤ w) :
    BitVec.carry i b 1#w false = decide (∀ k < i, b.getLsbD k = true) := by
  induction i with
  | zero => omega
  | succ i ih =>
    rw [BitVec.carry_succ, BitVec.getLsbD_one]
    cases i with
    | zero => simp [Bool.atLeastTwo, show 0 < w by omega]
    | succ i =>
      have hsplit : (∀ k < i + 1 + 1, b.getLsbD k = true) ↔
          (∀ k < i + 1, b.getLsbD k = true) ∧ b.getLsbD (i + 1) = true := Nat.forall_lt_succ_right
      rw [ih (by omega) (by omega), Bool.eq_iff_iff, decide_eq_true_iff, hsplit]
      simp [Bool.atLeastTwo, and_comm]

/-- `inc` flips a bit exactly when all lower bits are set (R102). -/
theorem getLsbD_inc (b : BitVec w) {i : Nat} (hi : i < w) :
    (inc b).getLsbD i = (b.getLsbD i ^^ decide (∀ k < i, b.getLsbD k = true)) := by
  change (b + 1#w).getLsbD i = _
  rw [BitVec.getLsbD_add hi, BitVec.getLsbD_one]
  cases i with
  | zero => simp [show 0 < w from hi]
  | succ i => simp [carry_one b (i + 1) (by omega) (by omega)]

/-- The bit of the least clear position, or the top one, is the last that `inc` flips. -/
theorem exists_last_flipped (b : BitVec w) (hw : 1 ≤ w) :
    ∃ i < w, ∀ j < w, (∀ k < j, b.getLsbD k = true) ↔ j ≤ i := by
  by_cases hb : ∃ i, i < w ∧ b.getLsbD i = false
  · obtain ⟨hi, hclear⟩ := Nat.find_spec hb
    refine ⟨Nat.find hb, hi, fun j hj => ⟨fun hset => ?_, fun hji k hk => ?_⟩⟩
    · by_contra hlt
      simp [hset _ (by omega : Nat.find hb < j)] at hclear
    · have := Nat.find_min hb (hk.trans_le hji)
      simpa [show k < w by omega] using this
  · push Not at hb
    exact ⟨w - 1, by omega, fun j hj => ⟨fun _ => by omega, fun _ k hk => by simpa using hb k (by omega)⟩⟩

/-- Consecutive Gray values differ in the last bit that `inc` flips (R103). -/
theorem gray_inc_xor_gray (b : BitVec w) (hw : 1 ≤ w) : ∃ i < w, gray (inc b) ^^^ gray b = BitVec.twoPow w i := by
  obtain ⟨i, hi, hflip⟩ := exists_last_flipped b hw
  have hinc : ∀ j, ((inc b).getLsbD j ^^ b.getLsbD j) = decide (j ≤ i) := by
    intro j
    by_cases hj : j < w
    · rw [getLsbD_inc b hj, Bool.xor_right_comm, Bool.xor_self, Bool.false_xor]
      exact decide_eq_decide.mpr (hflip j hj)
    · rw [BitVec.getLsbD_of_ge _ _ (by omega), BitVec.getLsbD_of_ge _ _ (by omega)]
      exact (decide_eq_false (by omega)).symm
  refine ⟨i, hi, BitVec.eq_of_getLsbD_eq fun j hj => ?_⟩
  have hbits : (gray (inc b) ^^^ gray b).getLsbD j = (decide (j ≤ i) ^^ decide (j + 1 ≤ i)) := by
    rw [BitVec.getLsbD_xor, getLsbD_gray, getLsbD_gray, ← hinc, ← hinc]
    simp only [Bool.xor_assoc, Bool.xor_left_comm]
  rw [hbits, BitVec.getLsbD_twoPow]
  grind

/-- The last Gray value before the wrap has only the top bit set (R103). -/
theorem gray_allOnes (hw : 1 ≤ w) : gray (BitVec.allOnes w) = BitVec.twoPow w (w - 1) := by
  apply BitVec.eq_of_getLsbD_eq
  intro j hj
  rw [getLsbD_gray, BitVec.getLsbD_allOnes, BitVec.getLsbD_allOnes, BitVec.getLsbD_twoPow]
  grind

/-- `inc` wraps (R102). -/
theorem inc_allOnes : inc (BitVec.allOnes w) = 0 := by
  rw [inc, ← BitVec.neg_one_eq_allOnes]
  exact neg_add_cancel 1

/-- Settles O6: the last bit that `inc` flips is the one that differs, and the wrap is computed. -/
theorem consecutiveGrayValuesDifferInOneBit : Obligations.ConsecutiveGrayValuesDifferInOneBit := by
  unfold Obligations.ConsecutiveGrayValuesDifferInOneBit
  exact fun w b hw => ⟨gray_inc_xor_gray b hw, gray_allOnes hw, inc_allOnes, gray_zero⟩

end Sys2Proof.Machine
end

section
/-!
Distances between pointers (R113): along an arc that does not wrap they add up, and `inc` moves an end by one.
-/

namespace Sys2Proof.Machine

variable {w : Nat} {a b c : BitVec w}

/-- Distances along an arc that does not wrap add up. -/
theorem ptrDist_add (h : ptrDist a b + ptrDist b c < 2 ^ w) : ptrDist a c = ptrDist a b + ptrDist b c := by
  have hsplit : c - a = (b - a) + (c - b) := by ring
  rw [ptrDist, hsplit]
  exact BitVec.toNat_add_of_lt h

/-- Advancing the far end of an arc. -/
theorem ptrDist_inc (a b : BitVec w) : ptrDist a (inc b) = (ptrDist a b + 1) % 2 ^ w := by
  have hsplit : inc b - a = (b - a) + 1 := by rw [inc]; ring
  rw [ptrDist, hsplit, BitVec.toNat_add, ptrDist]
  simp

/-- Advancing the far end of an arc that has room lengthens it by one. -/
theorem ptrDist_inc_right (h : ptrDist a b + 1 < 2 ^ w) : ptrDist a (inc b) = ptrDist a b + 1 := by
  rw [ptrDist_inc, Nat.mod_eq_of_lt h]

/-- The slot after `b` is `a` exactly when all other slots lie between them. -/
theorem inc_eq_iff : inc b = a ↔ ptrDist a b + 1 = 2 ^ w := by
  have hlt := ptrDist_lt a b
  rw [eq_comm, ← ptrDist_eq_zero, ptrDist_inc]
  constructor
  · intro h
    by_contra hne
    rw [Nat.mod_eq_of_lt (by omega)] at h
    omega
  · intro h
    rw [h, Nat.mod_self]

/-- Advancing the near end of an arc that is not empty shortens it by one. -/
theorem ptrDist_inc_left (h : 0 < ptrDist a b) : ptrDist (inc a) b + 1 = ptrDist a b := by
  have hne : inc b ≠ inc a := by
    intro he
    obtain rfl : b = a := add_right_cancel he
    simp at h
  have hlt := ptrDist_lt (inc a) b
  have hroom := mt inc_eq_iff.mpr hne
  rw [← ptrDist_inc_right (by omega), ptrDist, ptrDist, inc, inc, add_sub_add_right_eq_sub]

end Sys2Proof.Machine
end

section
/-!
The FIFO by itself: what each operation can do to it (R106 to R110), as a move labelled with the values offered, stored
and delivered, and runs of such moves. Every operation of the machine is such a move of its FIFO.
-/

namespace Sys2Proof.Machine

variable {p : Params}

/-! ## Moves -/

/-- A PUT that finds room (R107). -/
def Fifo.store (f : Fifo p) (d : BitVec p.dataW) : Fifo p :=
  { f with mem := Memory.write f.mem f.wbin.toNat d, wbin := inc f.wbin, wgray := gray (inc f.wbin), wstQ := .success }

/-- A PUT that meets a full write view (R107). -/
def Fifo.overflow (f : Fifo p) : Fifo p := { f with wstQ := .overflow }

/-- A GET that finds an entry (R108). -/
def Fifo.deliver (f : Fifo p) (d : BitVec p.dataW) : Fifo p :=
  { f with rdataQ := .val d, rbin := inc f.rbin, rgray := gray (inc f.rbin), gstQ := .success }

/-- A GET that meets an empty read view (R108). -/
def Fifo.underflow (f : Fifo p) : Fifo p := { f with gstQ := .underflow }

/-- `f.Moves i os as ds g`: operation `i` may take the FIFO from `f` to `g`, being offered the values `os`, storing `as`
and delivering `ds`. -/
inductive Fifo.Moves (f : Fifo p) (i : Instr) : List Nat → List Nat → List Nat → Fifo p → Prop
  | reset (hi : i = .rst ∨ i = .fifoInit) : f.Moves i [] [] [] f.init
  | store (d : BitVec p.dataW) (hroom : f.wfull = false) : f.Moves i [d.toNat] [d.toNat] [] (f.store d)
  | overflow (d : BitVec p.dataW) (hfull : f.wfull = true) : f.Moves i [d.toNat] [] [] f.overflow
  | deliver (d : BitVec p.dataW) (hready : f.rempty = false) (hread : Memory.read f.mem f.rbin.toNat = .val d) :
      f.Moves i [] [] [d.toNat] (f.deliver d)
  | underflow (hempty : f.rempty = true) : f.Moves i [] [] [] f.underflow
  | rsync : f.Moves i [] [] [] f.rsync
  | wsync (hi : i = .wsync) : f.Moves i [] [] [] f.wsync
  | stay : f.Moves i [] [] [] f

/-- A run of moves in order, with all the values offered, stored and delivered. -/
inductive Fifo.Run : Fifo p → List Instr → List Nat → List Nat → List Nat → Fifo p → Prop
  | nil (f : Fifo p) : Fifo.Run f [] [] [] [] f
  | cons {f g k : Fifo p} {i : Instr} {is : List Instr} {o a d os as ds : List Nat} (hm : f.Moves i o a d g)
      (hr : Fifo.Run g is os as ds k) : Fifo.Run f (i :: is) (o ++ os) (a ++ as) (d ++ ds) k

/-! ## Every operation moves the FIFO -/

theorem asProducer_of_fifoUnit (hc : p.cfg = .fifoUnit) (h : Hw p) (f : Hw p → Hw p) : h.asProducer f = f h := by
  unfold Hw.asProducer
  split
  · next hi => simp [hc] at hi
  · rfl

theorem asProducer_of_integrated (hc : p.cfg = .integrated) (h : Hw p) (f : Hw p → Hw p) :
    h.asProducer f = h.refuse .secondProducer := by
  unfold Hw.asProducer
  split
  · rfl
  · next hu => simp [hc] at hu

theorem asScheduler_of_integrated (hc : p.cfg = .integrated) (h : Hw p) (f : Hw p → Hw p) :
    h.asScheduler f = f h := by
  unfold Hw.asScheduler
  split
  · rfl
  · next hu => simp [hc] at hu

theorem asScheduler_of_fifoUnit (hc : p.cfg = .fifoUnit) (h : Hw p) (f : Hw p → Hw p) :
    h.asScheduler f = h.refuse .secondProducer := by
  unfold Hw.asScheduler
  split
  · next hi => simp [hc] at hi
  · rfl

/-- What is not offered is not stored (R107). -/
theorem acceptedBy_of_not_offered {s : State} {i : Instr} (ho : offeredBy s i = []) : acceptedBy s i = [] := by
  simp [acceptedBy, ho]

/-- PUT as a move: the value offered is stored unless the write view is full (R107). -/
theorem put_moves (h : Hw p) (i : Instr) (d : BitVec p.dataW) :
    h.fifo.Moves i [d.toNat] (if h.fifo.wfull then [] else [d.toNat]) [] (h.put d).fifo := by
  obtain ⟨hf, he⟩ | ⟨hf, he⟩ := put_cases h d <;> rw [he, hf]
  exacts [.overflow d hf, .store d hf]

/-- GET as a move (R108, R203). -/
theorem get_moves (h : Hw p) : h.fifo.Moves .get [] [] (deliveredBy ⟨p, h⟩ .get) h.get.fifo := by
  obtain ⟨hq, he⟩ | ⟨hq, hr, he⟩ | ⟨d, hq, hr, he⟩ := get_cases h <;> rw [he]
  · have hd : deliveredBy ⟨p, h⟩ .get = [] := by
      simp only [deliveredBy]
      split <;> simp [hq]
    rw [hd]; exact .underflow hq
  · have hd : deliveredBy ⟨p, h⟩ .get = [] := by simp [deliveredBy, hr]
    rw [hd]; exact .stay
  · have hd : deliveredBy ⟨p, h⟩ .get = [d.toNat] := by simp [deliveredBy, hq, hr]
    rw [hd]; exact .deliver d hq hr

/-- ADC_DONE as a move, with `CFG = INTEGRATED`: it offers its value during CONV only (R173). -/
theorem adcDone_moves (h : Hw p) (i : Instr) (d : BitVec p.dataW) :
    h.fifo.Moves i (if h.sched.sstate = .conv then [d.toNat] else [])
      (if h.fifo.wfull then [] else if h.sched.sstate = .conv then [d.toNat] else []) [] (h.adcDone d).fifo := by
  cases hs : h.sched.sstate
  · rw [adcDone_idle d hs]
    simpa using .stay
  · rw [adcDone_conv d hs]
    rw [if_pos rfl]
    exact put_moves { h with sched := { h.sched with sstate := .idle } } i d

/-- An operation that offers and delivers nothing and leaves the FIFO as it was. -/
theorem Fifo.Moves.of_eq {h t : Hw p} {i : Instr} (ho : offeredBy ⟨p, h⟩ i = []) (hd : deliveredBy ⟨p, h⟩ i = [])
    (ht : t.fifo = h.fifo) :
    h.fifo.Moves i (offeredBy ⟨p, h⟩ i) (acceptedBy ⟨p, h⟩ i) (deliveredBy ⟨p, h⟩ i) t.fifo := by
  rw [acceptedBy_of_not_offered ho, ho, hd, ht]
  exact .stay

/-- An operation of the converter, which does to the FIFO what ADC_DONE does, or is refused (R173, R174, R243). -/
theorem Fifo.Moves.of_adcDone {h : Hw p} {i : Instr} {x : Nat} {f : Hw p → Hw p}
    (ho : offeredBy ⟨p, h⟩ i = offeredBy ⟨p, h⟩ (.adcDone x)) (hd : deliveredBy ⟨p, h⟩ i = [])
    (hf : (f h).fifo = (h.adcDone (sampleIn p x)).fifo) :
    h.fifo.Moves i (offeredBy ⟨p, h⟩ i) (acceptedBy ⟨p, h⟩ i) (deliveredBy ⟨p, h⟩ i) (h.asScheduler f).fifo := by
  cases hc : p.cfg with
  | fifoUnit =>
    rw [asScheduler_of_fifoUnit hc]
    exact .of_eq (ho.trans (by simp [offeredBy, hc])) hd rfl
  | integrated =>
    rw [asScheduler_of_integrated hc, hf, acceptedBy, hd, ho]
    simpa [offeredBy, hc] using adcDone_moves h i (sampleIn p x)

/-- Every operation moves the FIFO by the values it offers, stores and delivers. -/
theorem exec_moves {i : Instr} {h t : Hw p} (he : exec i ⟨p, h⟩ = .next ⟨p, t⟩) :
    h.fifo.Moves i (offeredBy ⟨p, h⟩ i) (acceptedBy ⟨p, h⟩ i) (deliveredBy ⟨p, h⟩ i) t.fifo := by
  cases i with
  | rst => cases he; rw [acceptedBy_of_not_offered rfl]; exact .reset (.inl rfl)
  | fifoInit => cases he; rw [acceptedBy_of_not_offered rfl]; exact .reset (.inr rfl)
  | put x =>
    cases he
    cases hc : p.cfg with
    | integrated =>
      simp only [asProducer_of_integrated hc]
      exact .of_eq (by simp [offeredBy, hc]) rfl rfl
    | fifoUnit =>
      simp only [asProducer_of_fifoUnit hc, acceptedBy]
      simpa [offeredBy, deliveredBy, hc] using put_moves h (.put x) (sampleIn p x)
  | get => cases he; rw [acceptedBy_of_not_offered rfl]; exact get_moves h
  | firInit k taps => cases he; exact .of_eq rfl rfl (firInit_fifo ..)
  | firUpdate x => exact .of_eq rfl rfl (firUpdate_fifo (exec_firUpdate_next.mp he))
  | tick =>
    cases he
    refine .of_eq rfl rfl ?_
    obtain hx | hx := asScheduler_cases h Hw.tick <;> rw [hx]
    exacts [tick_fifo h, rfl]
  | adcDone x => cases he; exact .of_adcDone rfl rfl rfl
  | adcDoneTick x => cases he; exact .of_adcDone (x := x) rfl rfl (tick_fifo _)
  | rsync => cases he; rw [acceptedBy_of_not_offered rfl]; exact .rsync
  | wsync => cases he; rw [acceptedBy_of_not_offered rfl]; exact .wsync rfl
  | sysNop | wNop | rNop | fNop | sNop => cases he; exact .of_eq rfl rfl rfl

/-! ## Runs -/

/-- A run that answers a state is its first operation, then the rest. -/
theorem runOps_cons_next {i : Instr} {is : List Instr} {s t : State} :
    runOps (i :: is) s = .next t ↔ ∃ u, exec i s = .next u ∧ runOps is u = .next t := by
  rw [runOps]
  cases exec i s <;> simp

theorem alongRun_cons {f : State → Instr → List Nat} {i : Instr} {is : List Instr} {s u : State}
    (he : exec i s = .next u) : alongRun f (i :: is) s = f s i ++ alongRun f is u := by
  rw [alongRun, he]

/-- A run of `a ++ b` is a run of `a`, then one of `b`, and what is collected along it likewise. -/
theorem runOps_append {a b : List Instr} {s t : State} (hr : runOps (a ++ b) s = .next t) :
    ∃ u, runOps a s = .next u ∧ runOps b u = .next t ∧
      ∀ f, alongRun f (a ++ b) s = alongRun f a s ++ alongRun f b u := by
  induction a generalizing s with
  | nil => exact ⟨s, rfl, hr, fun f => rfl⟩
  | cons i is ih =>
    obtain ⟨v, he, hv⟩ := runOps_cons_next.mp hr
    obtain ⟨u, ha, hb, hf⟩ := ih hv
    exact ⟨u, runOps_cons_next.mpr ⟨v, he, ha⟩, hb, fun f => by
      rw [List.cons_append, alongRun_cons he, alongRun_cons he, hf, List.append_assoc]⟩

/-- A run through the operation `i` is cut before and after it. -/
theorem runOps_through {a b : List Instr} {i : Instr} {s t : State} (hr : runOps (a ++ i :: b) s = .next t) :
    ∃ u v, runOps a s = .next u ∧ exec i u = .next v ∧ runOps b v = .next t ∧
      ∀ f, alongRun f (a ++ i :: b) s = alongRun f a s ++ (f u i ++ alongRun f b v) := by
  obtain ⟨u, ha, hb, hf⟩ := runOps_append hr
  obtain ⟨v, he, hv⟩ := runOps_cons_next.mp hb
  exact ⟨u, v, ha, he, hv, fun f => by rw [hf, alongRun_cons he]⟩

/-- A run of operations runs the FIFO, at the same parameters. -/
theorem runOps_run {ops : List Instr} {h : Hw p} {t : State} (hr : runOps ops ⟨p, h⟩ = .next t) :
    ∃ g : Hw p, t = ⟨p, g⟩ ∧ h.fifo.Run ops (alongRun offeredBy ops ⟨p, h⟩) (alongRun acceptedBy ops ⟨p, h⟩)
      (alongRun deliveredBy ops ⟨p, h⟩) g.fifo := by
  induction ops generalizing h with
  | nil => cases hr; exact ⟨h, rfl, .nil _⟩
  | cons i is ih =>
    obtain ⟨u, he, hu⟩ := runOps_cons_next.mp hr
    obtain ⟨k, rfl⟩ := exec_params he
    obtain ⟨g, rfl, hg⟩ := ih hu
    simp only [alongRun_cons he]
    exact ⟨g, rfl, .cons (exec_moves he) hg⟩

end Sys2Proof.Machine
end

section
/-!
O35, O39, O40. The arc (R113) and what it says of the views (R114, R115); every move of the FIFO keeps its invariant,
hence `exec` and `step` do.
-/

namespace Sys2Proof.Machine

variable {p : Params} {f : Fifo p}

/-! ## The copies each move leaves -/

@[simp] theorem store_pR2 (f : Fifo p) (d : BitVec p.dataW) : (f.store d).pR2 = f.pR2 := rfl
@[simp] theorem store_pR1 (f : Fifo p) (d : BitVec p.dataW) : (f.store d).pR1 = f.pR1 := rfl
@[simp] theorem store_rbin (f : Fifo p) (d : BitVec p.dataW) : (f.store d).rbin = f.rbin := rfl
@[simp] theorem store_pW2 (f : Fifo p) (d : BitVec p.dataW) : (f.store d).pW2 = f.pW2 := rfl
@[simp] theorem store_pW1 (f : Fifo p) (d : BitVec p.dataW) : (f.store d).pW1 = f.pW1 := rfl
@[simp] theorem store_wbin (f : Fifo p) (d : BitVec p.dataW) : (f.store d).wbin = inc f.wbin := rfl

@[simp] theorem deliver_pR2 (f : Fifo p) (d : BitVec p.dataW) : (f.deliver d).pR2 = f.pR2 := rfl
@[simp] theorem deliver_pR1 (f : Fifo p) (d : BitVec p.dataW) : (f.deliver d).pR1 = f.pR1 := rfl
@[simp] theorem deliver_rbin (f : Fifo p) (d : BitVec p.dataW) : (f.deliver d).rbin = inc f.rbin := rfl
@[simp] theorem deliver_pW2 (f : Fifo p) (d : BitVec p.dataW) : (f.deliver d).pW2 = f.pW2 := rfl
@[simp] theorem deliver_pW1 (f : Fifo p) (d : BitVec p.dataW) : (f.deliver d).pW1 = f.pW1 := rfl
@[simp] theorem deliver_wbin (f : Fifo p) (d : BitVec p.dataW) : (f.deliver d).wbin = f.wbin := rfl

@[simp] theorem rsync_pR2 (f : Fifo p) : f.rsync.pR2 = f.pR1 := rfl
@[simp] theorem rsync_pW2 (f : Fifo p) : f.rsync.pW2 = f.pW2 := rfl
@[simp] theorem rsync_pW1 (f : Fifo p) : f.rsync.pW1 = f.pW1 := rfl
@[simp] theorem wsync_pR2 (f : Fifo p) : f.wsync.pR2 = f.pR2 := rfl
@[simp] theorem wsync_pR1 (f : Fifo p) : f.wsync.pR1 = f.pR1 := rfl
@[simp] theorem wsync_pW2 (f : Fifo p) : f.wsync.pW2 = f.pW1 := rfl

/-- RSYNC captures the read cursor itself (R109, R112). -/
theorem Fifo.Inv.rsync_pR1 (hi : f.Inv) : f.rsync.pR1 = f.rbin := by
  rw [Fifo.pR1, rsync_wq1Rgray, hi.rgray_eq, bin_gray]

/-- WSYNC captures the write cursor itself (R110, R112). -/
theorem Fifo.Inv.wsync_pW1 (hi : f.Inv) : f.wsync.pW1 = f.wbin := by
  rw [Fifo.pW1, wsync_rq1Wgray, hi.wgray_eq, bin_gray]

/-! ## Views -/

/-- What the write view becomes at the next RSYNC. -/
def Fifo.occWNext (f : Fifo p) : Nat := ptrDist f.pR1 f.wbin

/-- What the read view becomes at the next WSYNC. -/
def Fifo.occRNext (f : Fifo p) : Nat := ptrDist f.rbin f.pW1

theorem rsync_occW (f : Fifo p) : f.rsync.occW = f.occWNext := rfl

theorem wsync_occR (f : Fifo p) : f.wsync.occR = f.occRNext := rfl

theorem Fifo.Inv.rsync_occWNext (hi : f.Inv) : f.rsync.occWNext = f.occ := by
  rw [Fifo.occWNext, hi.rsync_pR1, rsync_wbin, Fifo.occ]

theorem Fifo.Inv.wsync_occRNext (hi : f.Inv) : f.wsync.occRNext = f.occ := by
  rw [Fifo.occRNext, hi.wsync_pW1, wsync_rbin, Fifo.occ]

/-- The arc (R113) in terms of the views: each is the one inside it and the piece of arc between them. -/
theorem Fifo.Inv.views_eq (hi : f.Inv) :
    f.occRNext = f.occR + ptrDist f.pW2 f.pW1 ∧ f.occ = f.occRNext + ptrDist f.pW1 f.wbin ∧
      f.occWNext = ptrDist f.pR1 f.rbin + f.occ ∧ f.occW = ptrDist f.pR2 f.pR1 + f.occWNext := by
  have harc : ptrDist f.pR2 f.pR1 + ptrDist f.pR1 f.rbin + f.occR + ptrDist f.pW2 f.pW1 + ptrDist f.pW1 f.wbin =
      f.occW := hi.arc
  have hlt : f.occW < 2 ^ p.addrW := ptrDist_lt _ _
  have h1 : f.occRNext = f.occR + ptrDist f.pW2 f.pW1 :=
    ptrDist_add (show f.occR + ptrDist f.pW2 f.pW1 < _ by omega)
  have h2 : f.occ = f.occRNext + ptrDist f.pW1 f.wbin :=
    ptrDist_add (show f.occRNext + ptrDist f.pW1 f.wbin < _ by omega)
  have h3 : f.occWNext = ptrDist f.pR1 f.rbin + f.occ :=
    ptrDist_add (show ptrDist f.pR1 f.rbin + f.occ < _ by omega)
  have h4 : f.occW = ptrDist f.pR2 f.pR1 + f.occWNext :=
    ptrDist_add (show ptrDist f.pR2 f.pR1 + f.occWNext < _ by omega)
  exact ⟨h1, h2, h3, h4⟩

/-- The views bound the unread entries, and so do those of the next synchroniser steps (R114). -/
theorem Fifo.Inv.views_le (hi : f.Inv) :
    f.occR ≤ f.occRNext ∧ f.occRNext ≤ f.occ ∧ f.occ ≤ f.occWNext ∧ f.occWNext ≤ f.occW := by
  obtain ⟨h1, h2, h3, h4⟩ := hi.views_eq
  omega

/-- The write view leaves one slot free (R114). -/
theorem occW_lt (f : Fifo p) : f.occW < p.n := ptrDist_lt _ _

/-- The write view is full exactly when it leaves no more than the one free slot (R104, R114). -/
theorem wfull_iff : f.wfull = true ↔ f.occW + 1 = p.n := by
  rw [Fifo.wfull, beq_iff_eq, gray_eq_iff_eq_bin, ← Fifo.pR2, inc_eq_iff, Fifo.occW, Params.n]

theorem wfull_eq_false_iff : f.wfull = false ↔ f.occW + 1 < p.n := by
  have := occW_lt f
  rw [← Bool.not_eq_true, wfull_iff]
  omega

/-- The read view is empty exactly when it counts nothing (R105, R114). -/
theorem Fifo.Inv.rempty_iff (hi : f.Inv) : f.rempty = true ↔ f.occR = 0 := by
  rw [Fifo.rempty, beq_iff_eq, hi.rgray_eq, gray_eq_iff_eq_bin, ← Fifo.pW2, Fifo.occR, ptrDist_eq_zero]

theorem Fifo.Inv.rempty_eq_false_iff (hi : f.Inv) : f.rempty = false ↔ 0 < f.occR := by
  rw [← Bool.not_eq_true, hi.rempty_iff, Nat.pos_iff_ne_zero]

/-! ## Slots -/

theorem slotAt_zero (f : Fifo p) : f.slotAt 0 = f.rbin.toNat := by simp [Fifo.slotAt]

/-- The slot as many places after `rbin` as there are unread entries is `wbin`. -/
theorem slotAt_occ (f : Fifo p) : f.slotAt f.occ = f.wbin.toNat := by
  have hcast : BitVec.ofNat p.addrW f.occ = f.wbin - f.rbin := by
    rw [Fifo.occ, ptrDist, BitVec.ofNat_toNat, BitVec.setWidth_eq]
  rw [Fifo.slotAt, hcast, add_sub_cancel]

/-- An unread slot is not `wbin` (R115). -/
theorem slotAt_ne_wbin {k : Nat} (hk : k < f.occ) : f.slotAt k ≠ f.wbin.toNat := by
  have hlt : f.occ < 2 ^ p.addrW := ptrDist_lt _ _
  intro he
  have hoff : BitVec.ofNat p.addrW k = BitVec.ofNat p.addrW f.occ :=
    add_left_cancel (BitVec.eq_of_toNat_eq (he.trans (slotAt_occ f).symm))
  have := congrArg BitVec.toNat hoff
  rw [BitVec.toNat_ofNat, BitVec.toNat_ofNat, Nat.mod_eq_of_lt (hk.trans hlt), Nat.mod_eq_of_lt hlt] at this
  omega

/-- After a delivery the slots are counted from the next place. -/
theorem deliver_slotAt (f : Fifo p) (d : BitVec p.dataW) (k : Nat) : (f.deliver d).slotAt k = f.slotAt (k + 1) := by
  rw [Fifo.slotAt, Fifo.slotAt, deliver_rbin, inc, BitVec.ofNat_add, ← add_assoc, add_right_comm]
  rfl

/-! ## Moves -/

/-- A PUT that finds room adds an unread entry (R107, R113). -/
theorem Fifo.Inv.store_occ (hi : f.Inv) (hroom : f.wfull = false) (d : BitVec p.dataW) :
    (f.store d).occ = f.occ + 1 := by
  have hle := hi.views_le
  have hlt := wfull_eq_false_iff.mp hroom
  exact ptrDist_inc_right (show f.occ + 1 < p.n by omega)

/-- A GET that finds an entry takes one away (R108, R113). -/
theorem Fifo.Inv.deliver_occ (hi : f.Inv) (hready : f.rempty = false) (d : BitVec p.dataW) :
    (f.deliver d).occ + 1 = f.occ := by
  have hle := hi.views_le
  have hpos := hi.rempty_eq_false_iff.mp hready
  exact ptrDist_inc_left (show 0 < f.occ by omega)

/-- A value stored takes the free slot after the unread ones. -/
theorem Fifo.Inv.store (hi : f.Inv) (hroom : f.wfull = false) (d : BitVec p.dataW) : (f.store d).Inv where
  wgray_eq := rfl
  rgray_eq := hi.rgray_eq
  arc := by
    have harc := hi.arc
    have hlt : ptrDist f.pR2 f.wbin + 1 < 2 ^ p.addrW := wfull_eq_false_iff.mp hroom
    simp only [store_pR2, store_pR1, store_rbin, store_pW2, store_pW1, store_wbin]
    rw [ptrDist_inc_right hlt, ptrDist_inc_right (by omega)]
    omega
  mem_wf := wf_write d hi.mem_wf f.wbin.isLt
  written k hk := by
    rw [hi.store_occ hroom] at hk
    change Memory.read (Memory.write f.mem f.wbin.toNat d) (f.slotAt k) ≠ .unspec
    rw [read_write]
    split
    · nofun
    · next hne =>
      have : k ≠ f.occ := fun hk => hne (hk ▸ slotAt_occ f)
      exact hi.written k (by omega)
  wst := .inl rfl
  gst := hi.gst

theorem Fifo.Inv.deliver (hi : f.Inv) (hready : f.rempty = false) (d : BitVec p.dataW) : (f.deliver d).Inv where
  wgray_eq := hi.wgray_eq
  rgray_eq := rfl
  arc := by
    have harc := hi.arc
    have hlt := ptrDist_lt f.pR2 f.wbin
    have hpos : 0 < ptrDist f.rbin f.pW2 := hi.rempty_eq_false_iff.mp hready
    have hnear := ptrDist_inc_left hpos
    simp only [deliver_pR2, deliver_pR1, deliver_rbin, deliver_pW2, deliver_pW1, deliver_wbin]
    rw [ptrDist_inc_right (by omega)]
    omega
  mem_wf := hi.mem_wf
  written k hk := by
    have hocc := hi.deliver_occ hready d
    rw [deliver_slotAt]
    exact hi.written (k + 1) (by omega)
  wst := hi.wst
  gst := .inl rfl

theorem Fifo.Inv.rsync (hi : f.Inv) : f.rsync.Inv where
  wgray_eq := hi.wgray_eq
  rgray_eq := hi.rgray_eq
  arc := by
    obtain ⟨h1, h2, h3, -⟩ := hi.views_eq
    rw [hi.rsync_pR1]
    simp only [rsync_pR2, rsync_rbin, rsync_pW2, rsync_pW1, rsync_wbin, ptrDist_self]
    change ptrDist f.pR1 f.rbin + 0 + f.occR + ptrDist f.pW2 f.pW1 + ptrDist f.pW1 f.wbin = f.occWNext
    omega
  mem_wf := hi.mem_wf
  written := hi.written
  wst := hi.wst
  gst := hi.gst

theorem Fifo.Inv.wsync (hi : f.Inv) : f.wsync.Inv where
  wgray_eq := hi.wgray_eq
  rgray_eq := hi.rgray_eq
  arc := by
    obtain ⟨-, h2, h3, h4⟩ := hi.views_eq
    rw [hi.wsync_pW1]
    simp only [wsync_pR2, wsync_pR1, wsync_rbin, wsync_pW2, wsync_wbin, ptrDist_self]
    change ptrDist f.pR2 f.pR1 + ptrDist f.pR1 f.rbin + f.occRNext + ptrDist f.pW1 f.wbin + 0 = f.occW
    omega
  mem_wf := hi.mem_wf
  written := hi.written
  wst := hi.wst
  gst := hi.gst

/-- RST and FIFO_INIT bring all pointers to slot 0 (R106). -/
theorem init_occ (f : Fifo p) : f.init.occ = 0 := ptrDist_self _

theorem Fifo.Inv.init (hi : f.Inv) : f.init.Inv where
  wgray_eq := gray_zero.symm
  rgray_eq := gray_zero.symm
  arc := by simp [Fifo.pR2, Fifo.pR1, Fifo.pW2, Fifo.pW1]
  mem_wf := hi.mem_wf
  written k hk := by simp [init_occ] at hk
  wst := .inl rfl
  gst := .inl rfl

theorem Fifo.Inv.overflow (hi : f.Inv) : f.overflow.Inv :=
  ⟨hi.wgray_eq, hi.rgray_eq, hi.arc, hi.mem_wf, hi.written, .inr rfl, hi.gst⟩

theorem Fifo.Inv.underflow (hi : f.Inv) : f.underflow.Inv :=
  ⟨hi.wgray_eq, hi.rgray_eq, hi.arc, hi.mem_wf, hi.written, hi.wst, .inr rfl⟩

/-- Every move keeps the FIFO's invariant. -/
theorem Fifo.Moves.inv {g : Fifo p} {i : Instr} {o a d : List Nat} (hm : f.Moves i o a d g) (hi : f.Inv) : g.Inv := by
  cases hm with
  | reset => exact hi.init
  | store d hroom => exact hi.store hroom d
  | overflow => exact hi.overflow
  | deliver d hready => exact hi.deliver hready d
  | underflow => exact hi.underflow
  | rsync => exact hi.rsync
  | wsync => exact hi.wsync
  | stay => exact hi

/-! ## Settled here -/

/-- Settles O35, by what a step can do: the FIFO is left as it was, or one operation runs, which moves it. -/
theorem stepKeepsTheFifoInvariant : Obligations.StepKeepsTheFifoInvariant := by
  unfold Obligations.StepKeepsTheFifoInvariant
  rintro ⟨p, h⟩ t hi he
  obtain ⟨h', hn, hh⟩ | ⟨i, v, ls, -, -, -, -, hx⟩ := step_cases h
  · obtain rfl := Host.Outcome.next.inj (he.symm.trans hn)
    have hsame : h'.fifo = h.fifo := by
      obtain rfl | ⟨ls, r, rfl⟩ | ⟨ls, v, r, -, rfl⟩ | ⟨ls, rfl⟩ := hh <;> simp
    exact hsame ▸ hi
  · rw [hx] at he
    obtain ⟨h', rfl⟩ := exec_params he
    exact (exec_moves he).inv hi

/-- The reference parameters with two slots, the least FIFO of R6. -/
def twoSlots : Params := { Config.reference with addrW := 1 }

/-- One value stored in a FIFO of two slots just reset. -/
def Fifo.oneStored : Fifo twoSlots := (Fifo.reset _).store 0

/-- The value stored crossed to the read domain and was delivered, which the write domain has not yet seen. -/
def Fifo.oneDelivered : Fifo twoSlots := Fifo.oneStored.wsync.wsync.deliver 0

theorem Fifo.inv_oneStored : Fifo.oneStored.Inv := (Fifo.inv_reset _).store (by decide) 0

theorem Fifo.inv_oneDelivered : Fifo.oneDelivered.Inv := Fifo.inv_oneStored.wsync.wsync.deliver (by decide) 0

/-- Settles O39: the bounds of the arc, and a view that lags on each side. -/
theorem viewsAreConservative : Obligations.ViewsAreConservative := by
  unfold Obligations.ViewsAreConservative
  refine ⟨⟨_, _, by decide, Fifo.inv_oneDelivered, by decide, by decide⟩,
    ⟨_, _, by decide, Fifo.inv_oneStored, by decide, by decide⟩, fun p f _ hi => ?_⟩
  have hle := hi.views_le
  have hlt := occW_lt f
  refine ⟨by omega, by omega, by omega, ?_, hi.rempty_iff, fun hroom => ?_, fun hready => ?_⟩
  · rw [wfull_iff]; omega
  · have := wfull_eq_false_iff.mp hroom; omega
  · have := hi.rempty_eq_false_iff.mp hready; omega

/-- The slot a GET reads is written (R115). -/
theorem Fifo.Inv.exists_read (hi : f.Inv) (hready : f.rempty = false) :
    ∃ d, Memory.read f.mem f.rbin.toNat = .val d := by
  have hle := hi.views_le
  have hpos := hi.rempty_eq_false_iff.mp hready
  have hne := hi.written 0 (by omega)
  rw [slotAt_zero] at hne
  cases hr : Memory.read f.mem f.rbin.toNat with
  | unspec => exact absurd hr hne
  | val d => exact ⟨d, rfl⟩

/-- Settles O40: slot `wbin` is the first after the unread ones. -/
theorem noSlotIsWrittenWhileItMayBeRead : Obligations.NoSlotIsWrittenWhileItMayBeRead := by
  unfold Obligations.NoSlotIsWrittenWhileItMayBeRead
  intro p f hi
  have hle := hi.views_le
  exact ⟨fun _ => ⟨fun k hk => slotAt_ne_wbin hk, fun k hk => slotAt_ne_wbin (by omega)⟩, hi.exists_read⟩

end Sys2Proof.Machine
end

section
/-!
O41, O42, O43. The queue (R116, R117): what each move does to it, then a run of moves.
-/

namespace Sys2Proof.Machine

variable {p : Params} {f g : Fifo p}

/-! ## Moves -/

theorem init_queue (f : Fifo p) : f.init.queue = [] := by simp [Fifo.queue, init_occ]

/-- A value stored joins the end: the slots before it are others than the one written (R115). -/
theorem Fifo.Inv.store_queue (hi : f.Inv) (hroom : f.wfull = false) (d : BitVec p.dataW) :
    (f.store d).queue = f.queue ++ [.val d] := by
  have hslot : ∀ k, Memory.read (f.store d).mem ((f.store d).slotAt k) =
      if f.slotAt k = f.wbin.toNat then .val d else Memory.read f.mem (f.slotAt k) := fun k => read_write ..
  rw [Fifo.queue, hi.store_occ hroom, List.range_succ, List.map_append, List.map_singleton, hslot,
    if_pos (slotAt_occ f), Fifo.queue]
  congr 1
  refine List.map_congr_left fun k hk => ?_
  rw [hslot, if_neg (slotAt_ne_wbin (List.mem_range.mp hk))]

/-- The value delivered was the head. -/
theorem Fifo.Inv.queue_deliver (hi : f.Inv) (hready : f.rempty = false) {d : BitVec p.dataW}
    (hread : Memory.read f.mem f.rbin.toNat = .val d) : f.queue = .val d :: (f.deliver d).queue := by
  rw [Fifo.queue, ← hi.deliver_occ hready d, List.range_succ_eq_map, List.map_cons, List.map_map, slotAt_zero, hread,
    Fifo.queue]
  congr 1
  refine List.map_congr_left fun k _ => ?_
  rw [deliver_slotAt]
  rfl

theorem queueNat_length (f : Fifo p) : f.queueNat.length = f.occ := by simp [Fifo.queueNat, Fifo.queue]

/-- A move other than a reset stores at the queue's end and delivers its head (R116). -/
theorem Fifo.Moves.queueNat {i : Instr} {o a d : List Nat} (hm : f.Moves i o a d g) (hi : f.Inv)
    (hn : i ≠ .rst ∧ i ≠ .fifoInit) : f.queueNat ++ a.map some = d.map some ++ g.queueNat := by
  cases hm with
  | reset hr => exact absurd hr (not_or.mpr hn)
  | store d hroom => simp [Fifo.queueNat, hi.store_queue hroom]
  | deliver d hready hread => simp [Fifo.queueNat, hi.queue_deliver hready hread]
  | overflow | underflow | rsync | wsync | stay => exact List.append_nil _

/-- The unread entries grow by those stored and shrink by those delivered. -/
theorem Fifo.Moves.occ {i : Instr} {o a d : List Nat} (hm : f.Moves i o a d g) (hi : f.Inv)
    (hn : i ≠ .rst ∧ i ≠ .fifoInit) : f.occ + a.length = d.length + g.occ := by
  simpa [queueNat_length] using congrArg List.length (hm.queueNat hi hn)

/-! ## Runs -/

/-- Every run keeps the FIFO's invariant. -/
theorem Fifo.Run.inv {ops : List Instr} {o a d : List Nat} (hr : f.Run ops o a d g) (hi : f.Inv) : g.Inv := by
  induction hr with
  | nil => exact hi
  | cons hm _ ih => exact ih (hm.inv hi)

/-- Over a run without resets what was queued and stored is what was delivered and is queued (R116). -/
theorem Fifo.Run.queueNat {ops : List Instr} {o a d : List Nat} (hr : f.Run ops o a d g) (hi : f.Inv)
    (hn : ∀ i ∈ ops, i ≠ .rst ∧ i ≠ .fifoInit) : f.queueNat ++ a.map some = d.map some ++ g.queueNat := by
  induction hr with
  | nil => simp
  | @cons f g k i is o a d os as ds hm _ ih =>
    obtain ⟨hn1, hns⟩ := List.forall_mem_cons.mp hn
    calc f.queueNat ++ (a ++ as).map some
        = (f.queueNat ++ a.map some) ++ as.map some := by simp
      _ = d.map some ++ (g.queueNat ++ as.map some) := by rw [hm.queueNat hi hn1, List.append_assoc]
      _ = (d ++ ds).map some ++ k.queueNat := by rw [ih (hm.inv hi) hns]; simp

/-! ## Settled here -/

/-- Settles O41: the operation is a move of the FIFO. -/
theorem eachOperationActsOnTheQueueAsOnAList : Obligations.EachOperationActsOnTheQueueAsOnAList := by
  unfold Obligations.EachOperationActsOnTheQueueAsOnAList
  rintro ⟨p, h⟩ t i hi he
  obtain ⟨t, rfl⟩ := exec_params he
  refine ⟨fun hr => ?_, fun hn1 hn2 => (exec_moves he).queueNat hi ⟨hn1, hn2⟩⟩
  obtain rfl | rfl := hr <;> cases he <;> exact congrArg (List.map _) (init_queue _)

/-- Settles O42, by induction on the run. -/
theorem nothingIsLostOrDuplicated : Obligations.NothingIsLostOrDuplicated := by
  unfold Obligations.NothingIsLostOrDuplicated
  rintro ⟨p, h⟩ t ops hi hn hr
  obtain ⟨g, rfl, hg⟩ := runOps_run hr
  exact hg.queueNat hi hn

/-- A value offered to a full write view moves the FIFO by an overflow only (R107). -/
theorem Fifo.Moves.eq_overflow {i : Instr} {o a d : List Nat} (hm : f.Moves i o a d g) (hfull : f.wfull = true)
    (ho : o ≠ []) : g = f.overflow := by
  cases hm with
  | store d hroom => simp [hfull] at hroom
  | overflow => rfl
  | reset | deliver | underflow | rsync | wsync | stay => exact absurd rfl ho

/-- Settles O43: an overflow leaves the storage and the pointers. -/
theorem rejectedValueIsStoredNowhere : Obligations.RejectedValueIsStoredNowhere := by
  unfold Obligations.RejectedValueIsStoredNowhere
  intro p h t i hfull ho he
  have ht : t.fifo = h.fifo.overflow := (exec_moves he).eq_overflow hfull ho
  exact ⟨ht, ht ▸ rfl⟩

end Sys2Proof.Machine
end

section
/-!
O44, O45, O46, O47. The synchronisers (R118 to R121): what two steps of one make exact, and what each view counts at
most or at least along a run.
-/

namespace Sys2Proof.Machine

variable {p : Params} {f g : Fifo p} {i : Instr} {ops : List Instr} {o a d : List Nat}

/-! ## Views along a run -/

/-- What a move other than a reset can do to the views: the write views grow by the values stored at most, the read
views shrink by those delivered at most. -/
theorem Fifo.Moves.views (hm : f.Moves i o a d g) (hi : f.Inv) (hn : i ≠ .rst ∧ i ≠ .fifoInit) :
    f.occR ≤ g.occR + d.length ∧ f.occRNext ≤ g.occRNext + d.length ∧
      g.occW ≤ f.occW + a.length ∧ g.occWNext ≤ f.occWNext + a.length := by
  obtain ⟨hR, hR', hW', hW⟩ := hi.views_le
  cases hm with
  | reset hr => exact absurd hr (not_or.mpr hn)
  | store d hroom =>
    have hlt : f.occW + 1 < 2 ^ p.addrW := wfull_eq_false_iff.mp hroom
    have h1 : (f.store d).occW = f.occW + 1 := ptrDist_inc_right hlt
    have h2 : (f.store d).occWNext = f.occWNext + 1 := ptrDist_inc_right (show f.occWNext + 1 < 2 ^ p.addrW by omega)
    exact ⟨Nat.le_refl _, Nat.le_refl _, h1.le, h2.le⟩
  | deliver d hready =>
    have hpos := hi.rempty_eq_false_iff.mp hready
    have h1 : (f.deliver d).occR + 1 = f.occR := ptrDist_inc_left hpos
    have h2 : (f.deliver d).occRNext + 1 = f.occRNext := ptrDist_inc_left (show 0 < f.occRNext by omega)
    exact ⟨h1.ge, h2.ge, Nat.le_refl _, Nat.le_refl _⟩
  | rsync => exact ⟨Nat.le_refl _, Nat.le_refl _, rsync_occW f ▸ hW, hi.rsync_occWNext ▸ hW'⟩
  | wsync => exact ⟨wsync_occR f ▸ hR, hi.wsync_occRNext ▸ hR', Nat.le_refl _, Nat.le_refl _⟩
  | overflow | underflow | stay => exact ⟨Nat.le_refl _, Nat.le_refl _, Nat.le_refl _, Nat.le_refl _⟩

theorem Fifo.Run.views (hr : f.Run ops o a d g) (hi : f.Inv) (hn : ∀ i ∈ ops, i ≠ .rst ∧ i ≠ .fifoInit) :
    f.occR ≤ g.occR + d.length ∧ f.occRNext ≤ g.occRNext + d.length ∧
      g.occW ≤ f.occW + a.length ∧ g.occWNext ≤ f.occWNext + a.length := by
  induction hr with
  | nil => simp
  | cons hm _ ih =>
    obtain ⟨hn1, hns⟩ := List.forall_mem_cons.mp hn
    have h1 := hm.views hi hn1
    have h2 := ih (hm.inv hi) hns
    simp only [List.length_append]
    omega

/-! ## Exact views -/

/-- A move that delivers nothing leaves the copies of the read cursor as exact as they were (R118). -/
theorem Fifo.Moves.keeps_wq (hm : f.Moves i o a [] g) (h1 : f.wq1Rgray = f.rgray) :
    g.wq1Rgray = g.rgray ∧ (f.wq2Rgray = f.rgray → g.wq2Rgray = g.rgray) := by
  cases hm with
  | reset => exact ⟨rfl, fun _ => rfl⟩
  | rsync => exact ⟨rfl, fun _ => h1⟩
  | store | overflow | underflow | wsync | stay => exact ⟨h1, id⟩

/-- A move that stores nothing leaves the copies of the write cursor as exact as they were (R118). -/
theorem Fifo.Moves.keeps_rq (hm : f.Moves i o [] d g) (h1 : f.rq1Wgray = f.wgray) :
    g.rq1Wgray = g.wgray ∧ (f.rq2Wgray = f.wgray → g.rq2Wgray = g.wgray) := by
  cases hm with
  | reset => exact ⟨rfl, fun _ => rfl⟩
  | wsync => exact ⟨rfl, fun _ => h1⟩
  | overflow | deliver | underflow | rsync | stay => exact ⟨h1, id⟩

theorem Fifo.Run.keeps_wq (hr : f.Run ops o a d g) (hd : d = []) (h1 : f.wq1Rgray = f.rgray) :
    g.wq1Rgray = g.rgray ∧ (f.wq2Rgray = f.rgray → g.wq2Rgray = g.rgray) := by
  induction hr with
  | nil => exact ⟨h1, id⟩
  | cons hm _ ih =>
    obtain ⟨rfl, hds⟩ := List.append_eq_nil_iff.mp hd
    obtain ⟨hm1, hm2⟩ := hm.keeps_wq h1
    obtain ⟨hr1, hr2⟩ := ih hds hm1
    exact ⟨hr1, hr2 ∘ hm2⟩

theorem Fifo.Run.keeps_rq (hr : f.Run ops o a d g) (ha : a = []) (h1 : f.rq1Wgray = f.wgray) :
    g.rq1Wgray = g.wgray ∧ (f.rq2Wgray = f.wgray → g.rq2Wgray = g.wgray) := by
  induction hr with
  | nil => exact ⟨h1, id⟩
  | cons hm _ ih =>
    obtain ⟨rfl, has⟩ := List.append_eq_nil_iff.mp ha
    obtain ⟨hm1, hm2⟩ := hm.keeps_rq h1
    obtain ⟨hr1, hr2⟩ := ih has hm1
    exact ⟨hr1, hr2 ∘ hm2⟩

/-- An exact write view counts the unread entries (R118). -/
theorem Fifo.Inv.occW_eq (hi : f.Inv) (hx : f.wq2Rgray = f.rgray) : f.occW = f.occ := by
  rw [Fifo.occW, Fifo.pR2, hx, hi.rgray_eq, bin_gray, Fifo.occ]

/-- An exact read view counts the unread entries (R118). -/
theorem Fifo.Inv.occR_eq (hi : f.Inv) (hx : f.rq2Wgray = f.wgray) : f.occR = f.occ := by
  rw [Fifo.occR, Fifo.pW2, hx, hi.wgray_eq, bin_gray, Fifo.occ]

/-- An exact view leaves the stage before it nothing else to hold (R113). -/
theorem Fifo.Inv.wq1_eq (hi : f.Inv) (hx : f.wq2Rgray = f.rgray) : f.wq1Rgray = f.rgray := by
  obtain ⟨-, -, h3, h4⟩ := hi.views_eq
  have hW := hi.occW_eq hx
  have : f.pR1 = f.rbin := ptrDist_eq_zero.mp (by omega)
  rw [hi.rgray_eq, ← this, Fifo.pR1, gray_bin]

theorem Fifo.Inv.rq1_eq (hi : f.Inv) (hx : f.rq2Wgray = f.wgray) : f.rq1Wgray = f.wgray := by
  obtain ⟨h1, h2, -, -⟩ := hi.views_eq
  have hR := hi.occR_eq hx
  have : f.pW1 = f.wbin := ptrDist_eq_zero.mp (by omega)
  rw [hi.wgray_eq, ← this, Fifo.pW1, gray_bin]

/-! ## Two steps of a synchroniser -/

/-- An edge of a synchroniser, which moves the FIFO by `sync`, a run of `as`, a second edge and a run of `bs`, with the
values stored and delivered from the first edge on. -/
inductive Fifo.TwoEdges (sync : Fifo p → Fifo p) (f : Fifo p) (as bs : List Instr) :
    List Nat → List Nat → Fifo p → Prop
  | mk {k g : Fifo p} {oa aa da ob ab db : List Nat} (first : (sync f).Run as oa aa da k)
      (second : (sync k).Run bs ob ab db g) : TwoEdges sync f as bs (aa ++ ab) (da ++ db) g

variable {as bs : List Instr}

/-- A run through two edges of one synchroniser. -/
theorem runOps_twoEdges {h : Hw p} {u t : State} {e : Instr} {sync : Fifo p → Fifo p}
    (hx : ∀ k : Hw p, exec e ⟨p, k⟩ = .next ⟨p, { k with fifo := sync k.fifo }⟩) (ho : ∀ s, offeredBy s e = [])
    (hd : ∀ s, deliveredBy s e = []) (he : exec e ⟨p, h⟩ = .next u) (hr : runOps (as ++ e :: bs) u = .next t) :
    ∃ t' : Hw p, t = ⟨p, t'⟩ ∧ h.fifo.TwoEdges sync as bs (alongRun acceptedBy (as ++ e :: bs) u)
      (alongRun deliveredBy (as ++ e :: bs) u) t'.fifo := by
  obtain ⟨v, w, ha, hv, hb, hf⟩ := runOps_through hr
  cases (hx h).symm.trans he
  obtain ⟨v, rfl, first⟩ := runOps_run ha
  cases (hx v).symm.trans hv
  obtain ⟨t', rfl, second⟩ := runOps_run hb
  rw [hf, hf, acceptedBy_of_not_offered (ho _), hd]
  exact ⟨t', rfl, first, second⟩

theorem runOps_two_rsync {h : Hw p} {u t : State} (he : exec .rsync ⟨p, h⟩ = .next u)
    (hr : runOps (as ++ .rsync :: bs) u = .next t) :
    ∃ t' : Hw p, t = ⟨p, t'⟩ ∧ h.fifo.TwoEdges Fifo.rsync as bs (alongRun acceptedBy (as ++ .rsync :: bs) u)
      (alongRun deliveredBy (as ++ .rsync :: bs) u) t'.fifo :=
  runOps_twoEdges (fun _ => rfl) (fun _ => rfl) (fun _ => rfl) he hr

theorem runOps_two_wsync {h : Hw p} {u t : State} (he : exec .wsync ⟨p, h⟩ = .next u)
    (hr : runOps (as ++ .wsync :: bs) u = .next t) :
    ∃ t' : Hw p, t = ⟨p, t'⟩ ∧ h.fifo.TwoEdges Fifo.wsync as bs (alongRun acceptedBy (as ++ .wsync :: bs) u)
      (alongRun deliveredBy (as ++ .wsync :: bs) u) t'.fifo :=
  runOps_twoEdges (fun _ => rfl) (fun _ => rfl) (fun _ => rfl) he hr

/-- The first RSYNC makes the first stage exact and the second the view, if nothing is delivered (R118). -/
theorem Fifo.TwoEdges.wq2_eq (he : f.TwoEdges Fifo.rsync as bs a d g) (hd : d = []) : g.wq2Rgray = g.rgray := by
  obtain ⟨first, second⟩ := he
  obtain ⟨hda, hdb⟩ := List.append_eq_nil_iff.mp hd
  exact (second.keeps_wq hdb rfl).2 (first.keeps_wq hda rfl).1

/-- The first WSYNC makes the first stage exact and the second the view, if nothing is stored (R118). -/
theorem Fifo.TwoEdges.rq2_eq (he : f.TwoEdges Fifo.wsync as bs a d g) (ha : a = []) : g.rq2Wgray = g.wgray := by
  obtain ⟨first, second⟩ := he
  obtain ⟨haa, hab⟩ := List.append_eq_nil_iff.mp ha
  exact (second.keeps_rq hab rfl).2 (first.keeps_rq haa rfl).1

/-- After the second RSYNC the write view counts at most what was unread at the first and stored since (R121). -/
theorem Fifo.TwoEdges.occW_le (he : f.TwoEdges Fifo.rsync as bs a d g) (hi : f.Inv)
    (hn : ∀ i ∈ as ++ bs, i ≠ .rst ∧ i ≠ .fifoInit) : g.occW ≤ f.occ + a.length := by
  obtain ⟨first, second⟩ := he
  obtain ⟨hna, hnb⟩ := List.forall_mem_append.mp hn
  obtain ⟨-, -, -, h1⟩ := first.views hi.rsync hna
  obtain ⟨-, -, h2, -⟩ := second.views (first.inv hi.rsync).rsync hnb
  rw [hi.rsync_occWNext] at h1
  rw [rsync_occW] at h2
  rw [List.length_append]
  omega

/-- The entries unread at the first WSYNC and not delivered since stand in the read view after the second, so the next
of them is readable (R121). -/
theorem Fifo.TwoEdges.readable (he : f.TwoEdges Fifo.wsync as bs a d g) (hi : f.Inv)
    (hn : ∀ i ∈ as ++ bs, i ≠ .rst ∧ i ≠ .fifoInit) (hlt : d.length < f.occ) :
    g.rempty = false ∧ f.occ - d.length ≤ g.occR := by
  obtain ⟨first, second⟩ := he
  obtain ⟨hna, hnb⟩ := List.forall_mem_append.mp hn
  have hik := (first.inv hi.wsync).wsync
  obtain ⟨-, h1, -, -⟩ := first.views hi.wsync hna
  obtain ⟨h2, -, -, -⟩ := second.views hik hnb
  rw [hi.wsync_occRNext] at h1
  rw [wsync_occR] at h2
  rw [List.length_append] at hlt ⊢
  rw [(second.inv hik).rempty_eq_false_iff]
  omega

/-- Settles O44: two steps of each synchroniser, what an exact view counts, and the pointers after a reset. -/
theorem twoSynchroniserStepsMakeAViewExact : Obligations.TwoSynchroniserStepsMakeAViewExact := by
  unfold Obligations.TwoSynchroniserStepsMakeAViewExact
  refine ⟨?_, ?_, fun p f _ hi => ⟨fun hx => ⟨hi.occW_eq hx, ?_⟩, fun hx => ⟨hi.occR_eq hx, ?_⟩⟩,
    fun p h t i hr he => ?_⟩
  · rintro ⟨p, h⟩ u t as bs he hr hd
    obtain ⟨t, rfl, hte⟩ := runOps_two_rsync he hr
    exact hte.wq2_eq hd
  · rintro ⟨p, h⟩ u t as bs he hr ha
    obtain ⟨t, rfl, hte⟩ := runOps_two_wsync he hr
    exact hte.rq2_eq ha
  · have := occW_lt f
    rw [wfull_iff, hi.occW_eq hx]
    omega
  · rw [hi.rempty_iff, hi.occR_eq hx]
  · obtain rfl | rfl := hr <;> cases he <;> exact ⟨rfl, rfl⟩

/-- Settles O47: the bounds of the two views after the second step. -/
theorem twoSynchroniserStepsPublish : Obligations.TwoSynchroniserStepsPublish := by
  unfold Obligations.TwoSynchroniserStepsPublish
  rintro ⟨p, h⟩ u t as bs - (hi : h.fifo.Inv) hn
  refine ⟨fun he hr hlt => ?_, fun he hr hlt => ?_⟩
  · obtain ⟨t, rfl, hte⟩ := runOps_two_wsync he hr
    exact hte.readable hi hn hlt
  · obtain ⟨t, rfl, hte⟩ := runOps_two_rsync he hr
    have hle := hte.occW_le hi hn
    dsimp only at hlt
    exact ⟨(wfull_eq_false_iff (f := t.fifo)).mpr (by omega), hle⟩

/-! ## Capacity -/

/-- Through an exact write view, as long as nothing is delivered, exactly the values that find a free slot are stored,
and once there are as many the view is full (R119). -/
theorem Fifo.Run.fills (hr : f.Run ops o a d g) (hd : d = []) (hi : f.Inv) (hx : f.wq2Rgray = f.rgray)
    (hn : ∀ i ∈ ops, i ≠ .rst ∧ i ≠ .fifoInit) :
    a = o.take (p.n - 1 - f.occ) ∧ (p.n - 1 - f.occ ≤ o.length → g.wfull = true) := by
  induction hr with
  | nil f =>
    have hlt := occW_lt f
    rw [hi.occW_eq hx] at hlt
    refine ⟨List.take_nil.symm, fun hle => ?_⟩
    rw [List.length_nil] at hle
    rw [wfull_iff, hi.occW_eq hx]
    omega
  | @cons f g k i is o a d os as ds hm _ ih =>
    obtain ⟨rfl, hds⟩ := List.append_eq_nil_iff.mp hd
    obtain ⟨hn1, hns⟩ := List.forall_mem_cons.mp hn
    have hocc := hm.occ hi hn1
    obtain ⟨ihs, ihf⟩ := ih hds (hm.inv hi) ((hm.keeps_wq (hi.wq1_eq hx)).2 hx) hns
    have hW := hi.occW_eq hx
    cases hm with
    | store d hroom =>
      have hlt := wfull_eq_false_iff.mp hroom
      have hfree : p.n - 1 - f.occ = p.n - 1 - (f.store d).occ + 1 := by simp at hocc; omega
      rw [hfree]
      exact ⟨by rw [ihs]; rfl, fun hle => ihf (Nat.le_of_succ_le_succ hle)⟩
    | overflow d hfull =>
      have heq := wfull_iff.mp hfull
      have hfree : p.n - 1 - f.occ = 0 := by omega
      have hfree' : p.n - 1 - f.overflow.occ = 0 := hfree
      rw [hfree'] at ihs ihf
      rw [hfree]
      exact ⟨ihs, fun _ => ihf (Nat.zero_le _)⟩
    | reset hr => exact absurd hr (not_or.mpr hn1)
    | underflow | rsync | wsync | stay => exact ⟨ihs, ihf⟩

/-- Settles O45: an empty FIFO has all slots but one free. -/
theorem capacityIsOneLessThanTheSlots : Obligations.CapacityIsOneLessThanTheSlots := by
  unfold Obligations.CapacityIsOneLessThanTheSlots
  rintro ⟨p, h⟩ t ops - hi h0 hx hn hr hd
  obtain ⟨g, rfl, hg⟩ := runOps_run hr
  have hfill := hg.fills hd hi hx hn
  rwa [show h.fifo.occ = 0 from h0, Nat.sub_zero] at hfill

/-! ## Empty after drain -/

/-- An initialised FIFO has an empty read view (R105, R106). -/
theorem init_rempty (f : Fifo p) : f.init.rempty = true := beq_self_eq_true _

/-- The read domain sees no entry, and none is on its way: the write cursor is the read domain's own. -/
structure Fifo.Drained (f : Fifo p) : Prop where
  empty : f.rempty = true
  next : f.rq1Wgray = f.rgray
  last : f.wgray = f.rgray

/-- A move that stores nothing delivers nothing from a drained FIFO and leaves it drained (R120). -/
theorem Fifo.Moves.drained (hm : f.Moves i o [] d g) (hf : f.Drained) : d = [] ∧ g.Drained := by
  obtain ⟨hempty, hnext, hlast⟩ := hf
  cases hm with
  | reset => exact ⟨rfl, init_rempty f, rfl, rfl⟩
  | deliver d hready => simp [hempty] at hready
  | wsync => exact ⟨rfl, by simp [Fifo.rempty, hnext], hlast, hlast⟩
  | overflow | underflow | rsync | stay => exact ⟨rfl, hempty, hnext, hlast⟩

theorem Fifo.Run.drained (hr : f.Run ops o a d g) (ha : a = []) (hf : f.Drained) : d = [] ∧ g.Drained := by
  induction hr with
  | nil => exact ⟨rfl, hf⟩
  | cons hm _ ih =>
    obtain ⟨rfl, has⟩ := List.append_eq_nil_iff.mp ha
    obtain ⟨rfl, hg⟩ := hm.drained hf
    exact ih has hg

/-- A move delivers nothing through an empty read view and leaves it empty, provided a WSYNC finds no other pointer in
the next stage; a move other than WSYNC leaves that stage. -/
theorem Fifo.Moves.keeps_rempty (hm : f.Moves i o a d g) (he : f.rempty = true)
    (hw : i = .wsync → f.rq1Wgray = f.rgray) :
    d = [] ∧ g.rempty = true ∧ (i ≠ .wsync → f.rq1Wgray = f.rgray → g.rq1Wgray = g.rgray) := by
  cases hm with
  | reset => exact ⟨rfl, init_rempty f, fun _ _ => rfl⟩
  | deliver d hready => simp [he] at hready
  | wsync hi => exact ⟨rfl, by simp [Fifo.rempty, hw hi], fun hne => absurd hi hne⟩
  | store | overflow | underflow | rsync | stay => exact ⟨rfl, he, fun _ => id⟩

/-- Through an empty read view a run delivers nothing before a WSYNC brings another pointer: that takes two of them when
the next stage holds none (R120). -/
theorem Fifo.Run.keeps_rempty (hr : f.Run ops o a d g) (he : f.rempty = true)
    (hc : ops.count .wsync = 0 ∨ (ops.count .wsync ≤ 1 ∧ f.rq1Wgray = f.rgray)) : d = [] ∧ g.rempty = true := by
  induction hr with
  | nil => exact ⟨rfl, he⟩
  | @cons f g k i is o a d os as ds hm _ ih =>
    have hw : i = .wsync → f.rq1Wgray = f.rgray := by
      rintro rfl
      exact (hc.resolve_left (by simp)).2
    obtain ⟨rfl, hg, hnext⟩ := hm.keeps_rempty he hw
    refine ih hg ?_
    by_cases hi : i = .wsync
    · subst hi
      rw [List.count_cons_self] at hc
      omega
    · rw [List.count_cons_of_ne hi] at hc
      exact hc.imp_right fun ⟨hle, h1⟩ => ⟨hle, hnext hi h1⟩

/-- An empty read view that is exact has been drained (R118, R120). -/
theorem Fifo.Inv.drained (hi : f.Inv) (he : f.rempty = true) (hx : f.rq2Wgray = f.wgray) : f.Drained := by
  have hr : f.rgray = f.rq2Wgray := by rwa [Fifo.rempty, beq_iff_eq] at he
  exact ⟨he, by rw [hi.rq1_eq hx, hr, hx], by rw [hr, hx]⟩

/-- An empty read view that is not exact misses an entry (R114, R118). -/
theorem Fifo.Inv.occ_pos (hi : f.Inv) (he : f.rempty = true) (hx : f.rq2Wgray ≠ f.wgray) : 1 ≤ f.occ := by
  rw [Nat.one_le_iff_ne_zero]
  intro h0
  have hr : f.rgray = f.rq2Wgray := by rwa [Fifo.rempty, beq_iff_eq] at he
  exact hx (by rw [← hr, hi.rgray_eq, hi.wgray_eq, ptrDist_eq_zero.mp h0])

/-- Settles O46: a drained FIFO stays drained while nothing is stored, and then one WSYNC brings nothing to the view
itself; an entry missed is one unread at the first of two WSYNC steps. -/
theorem emptyAfterDrainUntilAValueIsStored : Obligations.EmptyAfterDrainUntilAValueIsStored := by
  unfold Obligations.EmptyAfterDrainUntilAValueIsStored
  refine ⟨?_, ?_⟩
  · rintro ⟨p, h⟩ t as bs (hi : h.fifo.Inv) he hx hr ha hc
    obtain ⟨v, hra, hrb, hf⟩ := runOps_append hr
    obtain ⟨v, rfl, ra⟩ := runOps_run hra
    obtain ⟨t, rfl, rb⟩ := runOps_run hrb
    obtain ⟨hda, hempty, hnext, -⟩ := ra.drained ha (hi.drained he hx)
    obtain ⟨hdb, hg⟩ := rb.keeps_rempty hempty (.inr ⟨hc, hnext⟩)
    exact ⟨_, rfl, by rw [get_empty hg]; rfl, by rw [hf, hda, hdb]; rfl⟩
  · rintro ⟨p, h⟩ u t as bs (hi : h.fifo.Inv) he hx hn hs hr hd
    obtain ⟨t, rfl, hte⟩ := runOps_two_wsync hs hr
    have hpos := hi.occ_pos he hx
    rw [hd] at hte
    exact ⟨hpos, (hte.readable hi hn hpos).1⟩

end Sys2Proof.Machine
end

section
/-!
O7, O9, O10, O11, O12. The effects of the FIFO's own operations (R106 to R110), each with its row and its agent.
-/

namespace Sys2Proof.Machine

variable {p : Params}

/-- The wires carry a sample of their own width as it is (R82). -/
theorem sampleIn_toNat (d : BitVec p.dataW) : sampleIn p d.toNat = d := by
  rw [sampleIn, BitVec.ofNat_toNat, BitVec.setWidth_eq]

/-- With `CFG = FIFO_UNIT` PUT stores or overflows (R107, R243). -/
theorem exec_put_of_fifoUnit (hc : p.cfg = .fifoUnit) (h : Hw p) (d : BitVec p.dataW) :
    exec (.put d.toNat) ⟨p, h⟩ = .next ⟨p, h.put d⟩ := by
  have hx : exec (.put d.toNat) ⟨p, h⟩ = .next ⟨p, h.asProducer fun h => h.put (sampleIn p d.toNat)⟩ := rfl
  rw [hx, asProducer_of_fifoUnit hc, sampleIn_toNat]

/-- Settles O7: PUT in its two cases. -/
theorem putStoresOrOverflows : Obligations.PutStoresOrOverflows := by
  unfold Obligations.PutStoresOrOverflows
  intro p h d hc
  refine ⟨checked_of_lt _ _ d.isLt, rfl, fun hfull => ?_, fun hroom => ?_⟩
  · rw [exec_put_of_fifoUnit hc, put_full d (beq_iff_eq.mpr hfull)]
    rfl
  · refine ⟨_, fun i => read_write _ _ i d, ?_⟩
    rw [exec_put_of_fifoUnit hc, put_room d (beq_eq_false_iff_ne.mpr hroom)]
    rfl

/-- Settles O9: GET in its three cases. -/
theorem getDeliversOrUnderflows : Obligations.GetDeliversOrUnderflows := by
  unfold Obligations.GetDeliversOrUnderflows
  intro p h
  refine ⟨rfl, rfl, fun he => ?_, fun hne d hr => ?_, fun hne hr => ?_⟩
  · exact exec_get_of_eq (get_empty (beq_iff_eq.mpr he))
  · exact exec_get_of_eq (get_val (beq_eq_false_iff_ne.mpr hne) hr)
  · exact exec_get_of_eq (get_unspec (beq_eq_false_iff_ne.mpr hne) hr)

/-- Settles O10: the step is `Fifo.rsync`. -/
theorem rsyncShiftsTheWriteSynchroniser : Obligations.RsyncShiftsTheWriteSynchroniser := by
  unfold Obligations.RsyncShiftsTheWriteSynchroniser
  exact fun p h => ⟨rfl, rfl, rfl⟩

/-- Settles O11: the step is `Fifo.wsync`. -/
theorem wsyncShiftsTheReadSynchroniser : Obligations.WsyncShiftsTheReadSynchroniser := by
  unfold Obligations.WsyncShiftsTheReadSynchroniser
  exact fun p h => ⟨rfl, rfl, rfl⟩

/-- With at least two slots an initialised FIFO has room in its write view (R104, R106). -/
theorem init_wfull (hw : 1 ≤ p.addrW) (f : Fifo p) : f.init.wfull = false := by
  have hocc : f.init.occW = 0 := by simp [Fifo.occW, Fifo.pR2]
  rw [wfull_eq_false_iff, hocc, Params.n]
  exact Nat.one_lt_two_pow (by omega)

/-- Settles O12: the writes, then the flags of equal pointers. -/
theorem fifoInitEmptiesTheFifo : Obligations.FifoInitEmptiesTheFifo := by
  unfold Obligations.FifoInitEmptiesTheFifo
  intro p h hw
  refine ⟨rfl, rfl, _, rfl, rfl, init_wfull hw h.fifo, init_rempty h.fifo, _, exec_get_of_eq rfl, ?_⟩
  rw [get_empty (init_rempty h.fifo)]
  rfl

end Sys2Proof.Machine
end

section
/-!
O15, O17. FIR_INIT in its three cases, with what it leaves in each slot (R144, R206), and what each operation leaves in
`y` (R146).
-/

namespace Sys2Proof.Machine

variable {p : Params} {k : Nat} {taps : List F32}

/-! ## The length operand -/

/-- A length that fits its field stands on its wires as it is (R82). -/
theorem klenIn_toNat (hk : k < 2 ^ p.klw) : (klenIn p k).toNat = k := by
  rw [klenIn, BitVec.toNat_ofNat, Nat.mod_eq_of_lt hk]

/-- A FIR_INIT fits its fields when its length does and it carries a whole `coef_i` bus (R82). -/
theorem wf_firInit_iff : (Instr.firInit k taps).wf p = true ↔ k < 2 ^ p.klw ∧ taps.length = p.lMax := by
  rw [Instr.wf, Bool.and_eq_true, fits_eq_true, decide_eq_true_iff]

theorem badLength_klenIn_eq_true (hk : k < 2 ^ p.klw) : badLength p (klenIn p k) = true ↔ k = 0 ∨ p.lMax < k := by
  simp [badLength, klenIn_toNat hk]

theorem badLength_klenIn_eq_false (hk : k < 2 ^ p.klw) (h1 : 1 ≤ k) (hL : k ≤ p.lMax) :
    badLength p (klenIn p k) = false := by
  rw [badLength_eq_false, klenIn_toNat hk]
  exact ⟨h1, hL⟩

/-! ## The taps -/

/-- A finite word's exponent is not 255 (R140). -/
theorem fIsFinite_iff {w : F32} : fIsFinite w = true ↔ fExp w ≠ 255 := bne_iff_ne

/-- Slot by slot, the taps of a legal length are the first words of `coef_i`. -/
theorem mem_boundTaps {w : F32} : w ∈ boundTaps k taps ↔ ∃ i, ∃ (_ : i < k) (hi : i < taps.length), taps[i] = w := by
  simp only [boundTaps, List.mem_take_iff_getElem, Nat.lt_min]
  exact ⟨fun ⟨i, ⟨hk, hi⟩, he⟩ => ⟨i, hk, hi, he⟩, fun ⟨i, hk, hi, he⟩ => ⟨i, ⟨hk, hi⟩, he⟩⟩

theorem anyNonfinite_boundTaps_eq_false :
    anyNonfinite (boundTaps k taps) = false ↔ ∀ i (hi : i < taps.length), i < k → fIsFinite taps[i] = true := by
  simp only [anyNonfinite_eq_false, mem_boundTaps]
  exact ⟨fun h i hi hk => h _ ⟨i, hk, hi, rfl⟩, fun h w ⟨i, hk, hi, he⟩ => he ▸ h i hi hk⟩

theorem anyNonfinite_boundTaps_eq_true : anyNonfinite (boundTaps k taps) = true ↔
    ∃ i, ∃ (_ : i < k) (hi : i < taps.length), fExp taps[i] = 255 := by
  rw [← Bool.not_eq_false, anyNonfinite_boundTaps_eq_false]
  simp [fIsFinite_iff]

/-! ## FIR_INIT, case by case -/

/-- FIR_INIT is `Hw.firInit` (R144). -/
theorem exec_firInit (h : Hw p) (k : Nat) (taps : List F32) :
    exec (.firInit k taps) ⟨p, h⟩ = .next ⟨p, h.firInit (klenIn p k) taps⟩ := rfl

/-- FIR_INIT of a bad length, whatever the taps (R144, R206). -/
theorem firInit_badLength {K : BitVec p.klw} (h : Hw p) (taps : List F32) (hb : badLength p K = true) :
    h.firInit K taps =
      { h with fir := { h.fir with bound := false, fstQ := .allocError } }.emit (.firInitResult .allocError) := by
  simp [Hw.firInit, hb]

/-- FIR_INIT of a legal length with a tap that is not finite (R144, R204). -/
theorem firInit_nonfinite {K : BitVec p.klw} (h : Hw p) (hb : badLength p K = false)
    (hn : anyNonfinite (boundTaps K.toNat taps) = true) : h.firInit K taps = h.refuse .nonfiniteTap := by
  simp [Hw.firInit, hb, hn]

/-- FIR_INIT of a legal length with finite taps (R144). -/
theorem firInit_binds {K : BitVec p.klw} (h : Hw p) (hb : badLength p K = false)
    (hn : anyNonfinite (boundTaps K.toNat taps) = false) :
    h.firInit K taps = { h with fir := h.fir.bind K taps }.emit (.firInitResult .success) := by
  simp [Hw.firInit, hb, hn]

/-- The taps below the length are latched (R144). -/
theorem read_bind_coef {f : Fir p} {K : BitVec p.klw} {i : Nat} (hi : i < taps.length) (hk : i < K.toNat) :
    Memory.read (f.bind K taps).coef i = .val taps[i] := by
  have hlen : i - 0 < (boundTaps K.toNat taps).length := by rw [boundTaps, List.length_take]; omega
  rw [bind_coef, read_writeFrom, dif_pos ⟨Nat.zero_le i, hlen⟩]
  simp [boundTaps]

/-- No coefficient slot from the length on is written (R144). -/
theorem read_bind_coef_of_le {f : Fir p} {K : BitVec p.klw} {i : Nat} (hk : K.toNat ≤ i) :
    Memory.read (f.bind K taps).coef i = Memory.read f.coef i := by
  have hlen : ¬ i - 0 < (boundTaps K.toNat taps).length := by rw [boundTaps, List.length_take]; omega
  rw [bind_coef, read_writeFrom, dif_neg fun h => hlen h.2]

/-- The history is cleared below the length (R144). -/
theorem read_bind_hist (f : Fir p) (K : BitVec p.klw) (taps : List F32) (i : Nat) :
    Memory.read (f.bind K taps).hist i = if i < K.toNat then .val 0 else Memory.read f.hist i := by
  rw [bind_hist, read_writeFrom]
  by_cases hi : i < K.toNat
  · rw [if_pos hi, dif_pos ⟨Nat.zero_le i, by simpa using hi⟩, List.getElem_replicate]
  · rw [if_neg hi, dif_neg fun h => hi (by simpa using h.2)]

/-- Settles O15: FIR_INIT in its three cases, and the slots a success writes. -/
theorem firInitBindsOrFails : Obligations.FirInitBindsOrFails := by
  unfold Obligations.FirInitBindsOrFails
  intro p h k taps hw
  obtain ⟨hk, hlen⟩ := wf_firInit_iff.mp hw
  have hdec : ∀ v : BitVec 2, v = 0b10 ∨ v = 0b11 → decode p (.fport v k (packTaps taps) 0) = .ok (.firInit k taps) := by
    intro v hv
    rw [decode_fport_firInit_of_lt hv _ hk (hlen ▸ packTaps_lt taps), ← hlen, unpackTaps_packTaps]
  have hK := klenIn_toNat hk
  refine ⟨hdec _ (.inl rfl), hdec _ (.inr rfl), rfl, fun hbad => ?_, fun h1 hL hinf => ?_, fun h1 hL hfin => ?_⟩
  · rw [exec_firInit, firInit_badLength h taps ((badLength_klenIn_eq_true hk).mpr hbad)]
    rfl
  · rw [exec_firInit, firInit_nonfinite h (badLength_klenIn_eq_false hk h1 hL)
      (by rw [hK]; exact anyNonfinite_boundTaps_eq_true.mpr hinf)]
    rfl
  · have hn : anyNonfinite (boundTaps (klenIn p k).toNat taps) = false := by
      rw [hK]
      exact anyNonfinite_boundTaps_eq_false.mpr fun i hi hik => fIsFinite_iff.mpr (hfin i hi hik)
    refine ⟨(h.fir.bind (klenIn p k) taps).coef, (h.fir.bind (klenIn p k) taps).hist,
      fun i hi hik => read_bind_coef hi (hK.symm ▸ hik), fun i hki => read_bind_coef_of_le (hK.symm ▸ hki),
      fun i => by rw [read_bind_hist, hK], ?_⟩
    rw [exec_firInit, firInit_binds h (badLength_klenIn_eq_false hk h1 hL) hn]
    rfl

/-! ## The output -/

/-- Settles O17: only FIR_INIT and FIR_UPDATE write `y`, with `+0.0` and with a sum that starts there. -/
theorem outputIsNeverNegativeZero : Obligations.OutputIsNeverNegativeZero := by
  unfold Obligations.OutputIsNeverNegativeZero
  intro p h t i he hy
  cases hi : writesFir i with
  | false => rwa [exec_fir hi he]
  | true =>
    cases i with
    | rst => cases he; exact hy
    | firInit k taps =>
      cases he
      obtain ⟨-, hx⟩ | ⟨-, -, hx⟩ | ⟨-, -, hx⟩ := firInit_cases h (klenIn p k) taps <;> rw [hx]
      exacts [hy, hy, by simp]
    | firUpdate d =>
      obtain ⟨-, rfl⟩ | ⟨-, -, rfl⟩ | ⟨pairs, -, -, -, -, -, rfl⟩ := firUpdate_cases (exec_firUpdate_next.mp he)
      · exact hy
      · exact hy
      · simpa using macLoop_ne_negZero pairs h.model.nanDraws (by decide)
    | _ => cases hi

end Sys2Proof.Machine
end

section
/-!
O16, O22. FIR_UPDATE as the sum over the taps (R145, R149): what the filter answers is a function of the words that
stand in the slots below the length.
-/

namespace Sys2Proof.Machine

variable {p : Params}

/-! ## The sum over the taps -/

/-- The rounded sum over `k` taps, tap 0 first: tap `i` is `c i` and multiplies `x i`; NaN bits are the draws from
`draw` on, two per tap (R145, R150). -/
def tapSum (draw k : Nat) (c x : Nat → F32) : F32 :=
  (List.range k).foldl (fun acc i =>
    fadd32 (Config.freeNan (draw + 2 * i + 1)) acc (fmul32 (Config.freeNan (draw + 2 * i)) (c i) (x i))) 0x00000000#32

/-- One more tap at the end of the sum. -/
theorem macLoop_append (l : List (F32 × F32)) (c x acc : F32) (draw : Nat) :
    macLoop (l ++ [(c, x)]) acc draw = fadd32 (Config.freeNan (draw + 2 * l.length + 1)) (macLoop l acc draw)
      (fmul32 (Config.freeNan (draw + 2 * l.length)) c x) := by
  induction l generalizing acc draw with
  | nil => rfl
  | cons e l ih =>
    have hd : draw + 2 + 2 * l.length = draw + 2 * (e :: l).length := by rw [List.length_cons]; omega
    rw [List.cons_append, macLoop, macLoop, ih, hd]

/-- FIR_UPDATE's loop computes the sum over the taps. -/
theorem macLoop_range (draw k : Nat) (c x : Nat → F32) :
    macLoop ((List.range k).map fun i => (c i, x i)) 0 draw = tapSum draw k c x := by
  rw [tapSum]
  induction k with
  | zero => rfl
  | succ k ih =>
    rw [List.range_succ, List.map_append, List.map_singleton, macLoop_append, ih, List.foldl_append, List.length_map,
      List.length_range]
    rfl

/-! ## What the taps multiply -/

/-- The history slot that stands `i` places before the cursor, as the model and as R145 count it. -/
theorem tapSlot_eq {k i : Nat} (cur : Nat) (hi : i < k) : (cur + k - i) % k = (((cur : Int) - i) % (k : Int)).toNat := by
  have hc : ((cur + k - i : Nat) : Int) = (cur : Int) - i + k := by omega
  rw [← Int.toNat_natCast ((cur + k - i) % k), Int.natCast_emod, hc, Int.add_emod_right]

/-- A slot before the cursor is one of the kernel's. -/
theorem tapSlot_lt {k : Nat} (hk : 0 < k) (z : Int) : (z % (k : Int)).toNat < k := by
  have h0 := Int.emod_nonneg z (b := k) (by omega)
  have h1 := Int.emod_lt_of_pos z (b := k) (by omega)
  omega

/-- When every slot read holds a word, the taps are paired with the words of their slots. -/
theorem firPairs_eq {coef hist : Memory 32} {k cur : Nat} {c x : Nat → F32} (is : List Nat)
    (hc : ∀ i ∈ is, Memory.read coef i = .val (c i))
    (hx : ∀ i ∈ is, Memory.read hist ((cur + k - i) % k) = .val (x i)) :
    firPairs coef hist k cur is = .val (is.map fun i => (c i, x i)) := by
  induction is with
  | nil => rfl
  | cons i is ih =>
    simp only [List.forall_mem_cons] at hc hx
    simp only [firPairs, hc.1, hx.1, ih hc.2 hx.2, List.map_cons]

/-! ## FIR_UPDATE -/

/-- FIR_UPDATE of sample `x` with the words `c` in the taps' slots and `y` in the slots they multiply, read after the
write (R145). -/
structure Fir.Reads (f : Fir p) (x : F32) (c y : Nat → F32) : Prop where
  bound : f.bound = true
  pos : 0 < f.klen.toNat
  len : f.klen.toNat ≤ p.lMax
  cur : f.wcur.toNat < p.lMax
  coef : ∀ i, i < f.klen.toNat → Memory.read f.coef i = .val (c i)
  hist : ∀ i, i < f.klen.toNat →
    Memory.read (f.histAfter x) (((f.wcur.toNat : Int) - i) % (f.klen.toNat : Int)).toNat = .val (y i)

/-- FIR_UPDATE's answer for sample `x`, with the sum `acc` (R145). -/
def Hw.updated (h : Hw p) (x acc : F32) : Hw p :=
  { h with
    fir := h.fir.advance x acc
    model := { h.model with nanDraws := h.model.nanDraws + 2 * h.fir.klen.toNat } }.emit (.yValid acc)

/-- While no kernel is bound FIR_UPDATE records `F_FIR_UNBOUND` (R145, R202). -/
theorem firUpdate_unbound {h : Hw p} (d : BitVec p.dataW) (hb : h.fir.bound = false) :
    h.firUpdate d = .ok (h.recordFault .firUnbound) := by
  simp [Hw.firUpdate, hb]

/-- A FIR_UPDATE that reads a word in every slot answers the rounded sum over the taps (R145). -/
theorem Fir.Reads.firUpdate {h : Hw p} {d : BitVec p.dataW} {c y : Nat → F32} (hr : h.fir.Reads (u2f d) c y) :
    h.firUpdate d = .ok (h.updated (u2f d) (tapSum h.model.nanDraws h.fir.klen.toNat c y)) := by
  have hpairs : h.fir.pairsAfter (u2f d) = .val ((List.range h.fir.klen.toNat).map fun i => (c i, y i)) :=
    firPairs_eq _ (fun i hi => hr.coef i (List.mem_range.mp hi)) fun i hi => by
      rw [tapSlot_eq _ (List.mem_range.mp hi)]
      exact hr.hist i (List.mem_range.mp hi)
  have hrange : ¬ (p.lMax < h.fir.klen.toNat ∨ p.lMax ≤ h.fir.wcur.toNat) := by
    have := hr.len
    have := hr.cur
    omega
  simp [Hw.firUpdate, hr.bound, hr.pos.ne', hrange, hpairs, ← macLoop_range, Hw.updated]

/-- The word in a slot, `+0.0` for a slot that is `UNSPEC`. -/
def Memory.word (m : Memory 32) (i : Nat) : F32 :=
  match Memory.read m i with
  | .val v => v
  | .unspec => 0

theorem read_eq_val_word {m : Memory 32} {i : Nat} (h : ∃ v, Memory.read m i = .val v) :
    Memory.read m i = .val (Memory.word m i) := by
  obtain ⟨v, hv⟩ := h
  rw [Memory.word, hv]

/-- A bound filter with its invariant reads a word in every slot (R144, R149). -/
theorem Fir.Inv.reads {f : Fir p} (hf : f.Inv) (hb : f.bound = true) (x : F32) :
    f.Reads x (Memory.word f.coef) fun i =>
      Memory.word (f.histAfter x) (((f.wcur.toNat : Int) - i) % (f.klen.toNat : Int)).toNat := by
  obtain ⟨hk1, hkL, hcur⟩ := hf.range hb
  refine ⟨hb, hk1, hkL, hcur.trans_le hkL, fun i hi => ?_, fun i hi => read_eq_val_word ?_⟩
  · obtain ⟨c, hc, -⟩ := hf.coefs hb i hi
    exact read_eq_val_word ⟨c, hc⟩
  · rw [Fir.histAfter, read_write]
    split
    · exact ⟨x, rfl⟩
    · obtain ⟨v, hv, -⟩ := hf.hists hb _ (tapSlot_lt hk1 ((f.wcur.toNat : Int) - i))
      exact ⟨v, hv⟩

/-- Other contents from slot `klen` on are not read (R149). -/
theorem Fir.Reads.congr {f : Fir p} {x : F32} {c y : Nat → F32} (hr : f.Reads x c y) {coef hist : Memory 32}
    (hsame : ∀ i, i < f.klen.toNat →
      Memory.read coef i = Memory.read f.coef i ∧ Memory.read hist i = Memory.read f.hist i) :
    Fir.Reads { f with coef := coef, hist := hist } x c y := by
  refine ⟨hr.bound, hr.pos, hr.len, hr.cur, fun i hi => (hsame i hi).1.trans (hr.coef i hi), fun i hi => ?_⟩
  rw [← hr.hist i hi, Fir.histAfter, Fir.histAfter, read_write, read_write,
    (hsame _ (tapSlot_lt hr.pos ((f.wcur.toNat : Int) - i))).2]

/-- Settles O16: FIR_UPDATE in its two cases; with the invariant every slot it reads holds a word. -/
theorem firUpdateComputesTheConvolution : Obligations.FirUpdateComputesTheConvolution := by
  unfold Obligations.FirUpdateComputesTheConvolution
  intro p h x
  refine ⟨checked_of_lt _ _ x.isLt, rfl, fun hb => ?_, fun hf hb => ?_⟩
  · rw [exec_firUpdate_next, firUpdate_unbound _ hb]
    rfl
  · have hr := hf.reads hb (u2f x)
    refine ⟨_, _, _, fun i => read_write _ _ i _, fun i hi => ⟨hr.coef i hi, hr.hist i hi⟩, ?_⟩
    rw [exec_firUpdate_next, sampleIn_toNat, hr.firUpdate]
    rfl

/-- Settles O22: unbound, both runs record the fault; bound, both read the same words and write slot `wcur` only. -/
theorem firUpdateStaysInsideTheKernelLength : Obligations.FirUpdateStaysInsideTheKernelLength := by
  unfold Obligations.FirUpdateStaysInsideTheKernelLength
  intro p h t x coef hist hf hsame he
  rw [exec_firUpdate_next] at he
  cases hb : h.fir.bound with
  | false =>
    rw [firUpdate_unbound _ hb] at he
    cases he
    exact ⟨fun _ _ => rfl, rfl, _, exec_firUpdate_next.mpr (firUpdate_unbound _ hb), rfl, rfl, rfl, rfl, rfl,
      fun i hi => (hsame i hi).2, fun _ _ => rfl⟩
  | true =>
    have hr := hf.reads hb (u2f (sampleIn p x))
    rw [hr.firUpdate] at he
    cases he
    obtain ⟨-, -, hcur⟩ := hf.range hb
    have keeps : ∀ (m : Memory 32) i, h.fir.klen.toNat ≤ i →
        Memory.read (Memory.write m h.fir.wcur.toNat (u2f (sampleIn p x))) i = Memory.read m i :=
      fun m i hi => read_write_other _ _ (hcur.trans_le hi).ne'
    refine ⟨keeps _, rfl, _, exec_firUpdate_next.mpr (hr.congr hsame).firUpdate, rfl, rfl, rfl, rfl, rfl,
      fun i hi => ?_, keeps _⟩
    change Memory.read (Memory.write hist _ _) i = Memory.read (Memory.write h.fir.hist _ _) i
    rw [read_write, read_write, (hsame i hi).2]

end Sys2Proof.Machine
end

section
/-!
O23, O24. Runs of the filter (R147, R148): what stands in it after a FIR_INIT and the samples of the FIR_UPDATEs since,
kept by every operation of such a run.
-/

namespace Sys2Proof.Machine

variable {p : Params}

/-! ## Operations that write no FIR state -/

/-- PUT draws no NaN and records no model fault. -/
theorem put_draws_faults (h : Hw p) (d : BitVec p.dataW) :
    (h.put d).model.nanDraws = h.model.nanDraws ∧ (h.put d).model.faults = h.model.faults := by
  obtain ⟨-, he⟩ | ⟨-, he⟩ := put_cases h d <;> rw [he] <;> exact ⟨rfl, rfl⟩

/-- TICK draws no NaN and records no model fault. -/
theorem tick_draws_faults (h : Hw p) :
    h.tick.model.nanDraws = h.model.nanDraws ∧ h.tick.model.faults = h.model.faults := by
  cases hs : h.sched.sstate
  · rw [tick_idle hs]; exact ⟨rfl, rfl⟩
  · rw [tick_conv hs]; exact ⟨rfl, rfl⟩

/-- ADC_DONE draws no NaN and records no model fault. -/
theorem adcDone_draws_faults (h : Hw p) (d : BitVec p.dataW) :
    (h.adcDone d).model.nanDraws = h.model.nanDraws ∧ (h.adcDone d).model.faults = h.model.faults := by
  cases hs : h.sched.sstate
  · rw [adcDone_idle d hs]; exact ⟨rfl, rfl⟩
  · rw [adcDone_conv d hs]; exact put_draws_faults _ d

/-- An operation that writes no FIR state draws no NaN and records no `F_FIR_UNBOUND`. -/
theorem exec_draws_unbound {i : Instr} {h t : Hw p} (hi : writesFir i = false) (he : exec i ⟨p, h⟩ = .next ⟨p, t⟩) :
    t.model.nanDraws = h.model.nanDraws ∧ t.model.faults.firUnbound = h.model.faults.firUnbound := by
  have sched : ∀ f : Hw p → Hw p,
      (f h).model.nanDraws = h.model.nanDraws ∧ (f h).model.faults = h.model.faults →
      (h.asScheduler f).model.nanDraws = h.model.nanDraws ∧
        (h.asScheduler f).model.faults.firUnbound = h.model.faults.firUnbound := by
    intro f hf
    obtain hx | hx := asScheduler_cases h f <;> rw [hx]
    exacts [⟨hf.1, congrArg _ hf.2⟩, ⟨rfl, rfl⟩]
  cases i with
  | rst | firInit | firUpdate => cases hi
  | put d =>
    cases he
    obtain hx | hx := asProducer_cases h fun h => h.put (sampleIn p d) <;> rw [hx]
    · obtain ⟨hd, hf⟩ := put_draws_faults h (sampleIn p d)
      exact ⟨hd, congrArg _ hf⟩
    · exact ⟨rfl, rfl⟩
  | get =>
    cases he
    obtain ⟨-, hg⟩ | ⟨-, -, hg⟩ | ⟨d, -, -, hg⟩ := get_cases h <;> rw [hg] <;> exact ⟨rfl, rfl⟩
  | tick => cases he; exact sched _ (tick_draws_faults h)
  | adcDone d => cases he; exact sched _ (adcDone_draws_faults h _)
  | adcDoneTick d =>
    cases he
    obtain ⟨hd, hf⟩ := adcDone_draws_faults h (sampleIn p d)
    obtain ⟨hd', hf'⟩ := tick_draws_faults (h.adcDone (sampleIn p d))
    exact sched (fun h => (h.adcDone (sampleIn p d)).tick) ⟨hd'.trans hd, hf'.trans hf⟩
  | sysNop | fifoInit | wNop | rNop | fNop | sNop | rsync | wsync => cases he; exact ⟨rfl, rfl⟩

/-- Only FIR_UPDATE can stop (log entry 12). -/
theorem exists_exec_next {i : Instr} (hi : writesFir i = false) (h : Hw p) : ∃ t, exec i ⟨p, h⟩ = .next ⟨p, t⟩ := by
  obtain hn | ⟨d, -, rfl, -, -⟩ := exec_cases i h
  · exact hn
  · cases hi

/-! ## Samples -/

theorem samplesOf_cons (i : Instr) (is : List Instr) : samplesOf (i :: is) = samplesOf [i] ++ samplesOf is := by
  cases i <;> rfl

/-- An operation that writes no FIR state brings no sample. -/
theorem samplesOf_singleton {i : Instr} (hi : writesFir i = false) : samplesOf [i] = [] := by
  cases i with
  | rst | firInit | firUpdate => cases hi
  | _ => rfl

/-- Sample `j` as the filter holds it, counted from 1; a sample before the first counts as `+0.0` (R147). -/
def sampleAt (p : Params) (xs : List Nat) (j : Nat) : F32 :=
  if hj : 1 ≤ j ∧ j ≤ xs.length then u2f (sampleIn p (xs[j - 1]'(by omega))) else 0x00000000#32

@[simp] theorem sampleAt_zero (xs : List Nat) : sampleAt p xs 0 = 0x00000000#32 := rfl

/-- The newest sample. -/
theorem sampleAt_append_newest (xs : List Nat) (x : Nat) :
    sampleAt p (xs ++ [x]) (xs.length + 1) = u2f (sampleIn p x) := by
  simp [sampleAt]

/-- A new sample leaves those before it. -/
theorem sampleAt_append {xs : List Nat} {x j : Nat} (hj : j ≤ xs.length) :
    sampleAt p (xs ++ [x]) j = sampleAt p xs j := by
  by_cases h1 : 1 ≤ j
  · rw [sampleAt, sampleAt, dif_pos ⟨h1, by simp; omega⟩, dif_pos ⟨h1, hj⟩, List.getElem_append_left]
  · rw [Nat.lt_one_iff.mp (Nat.not_le.mp h1), sampleAt_zero, sampleAt_zero]

/-! ## The filter along a run -/

/-- What stands in the filter after a FIR_INIT from `start` with `k` of the taps, and the samples `xs` since: each of
the `k` places before the cursor holds its sample, and `y` is the sum of the last FIR_UPDATE (R147, R148). -/
structure Hw.Filtering (start : Hw p) (k : Nat) (taps : List F32) (xs : List Nat) (h : Hw p) : Prop where
  bound : h.fir.bound = true
  klen : h.fir.klen.toNat = k
  pos : 1 ≤ k
  len : k ≤ p.lMax
  coef : ∀ i, i < k → Memory.read h.fir.coef i = .val (taps.getD i 0)
  cur : h.fir.wcur.toNat = xs.length % k
  hist : ∀ i : Nat, i < k →
    Memory.read h.fir.hist (((xs.length : Int) - 1 - i) % k).toNat = .val (sampleAt p xs (xs.length - i))
  y : xs ≠ [] → h.fir.y = .val (tapSum (start.model.nanDraws + 2 * k * (xs.length - 1)) k (fun i => taps.getD i 0)
    fun i => sampleAt p xs (xs.length - i))
  draws : h.model.nanDraws = start.model.nanDraws + 2 * k * xs.length
  unbound : h.model.faults.firUnbound = start.model.faults.firUnbound

variable {start h : Hw p} {k : Nat} {taps : List F32} {xs : List Nat}

/-- A successful FIR_INIT clears the history (R144). -/
theorem Hw.Filtering.init (start : Hw p) (hw : (Instr.firInit k taps).wf p = true) (h1 : 1 ≤ k) (hL : k ≤ p.lMax) :
    Hw.Filtering start k taps []
      ({ start with fir := start.fir.bind (klenIn p k) taps }.emit (.firInitResult .success)) := by
  obtain ⟨hk, hlen⟩ := wf_firInit_iff.mp hw
  have hK := klenIn_toNat hk
  refine ⟨rfl, hK, h1, hL, fun i hi => ?_, by simp, fun i hi => ?_, fun hne => absurd rfl hne, rfl, rfl⟩
  · have hi' : i < taps.length := by omega
    rw [emit_fir, read_bind_coef hi' (hK.symm ▸ hi), List.getD_eq_getElem _ _ hi']
  · rw [emit_fir, read_bind_hist, hK, if_pos (tapSlot_lt h1 _), List.length_nil, Nat.zero_sub, sampleAt_zero]
    rfl

/-- An operation that writes no FIR state keeps it (R148). -/
theorem Hw.Filtering.other {i : Instr} {t : Hw p} (hf : Hw.Filtering start k taps xs h) (hi : writesFir i = false)
    (he : exec i ⟨p, h⟩ = .next ⟨p, t⟩) : Hw.Filtering start k taps xs t := by
  have hfir := exec_fir hi he
  obtain ⟨hd, hu⟩ := exec_draws_unbound hi he
  exact ⟨hfir ▸ hf.bound, hfir ▸ hf.klen, hf.pos, hf.len, hfir ▸ hf.coef, hfir ▸ hf.cur, hfir ▸ hf.hist, hfir ▸ hf.y,
    hd.trans hf.draws, hu.trans hf.unbound⟩

/-- A slot less than a whole turn before another is not the same. -/
theorem tapSlot_ne {i : Nat} (m : Nat) (h0 : 0 < i) (hi : i < k) : (((m : Int) - i) % (k : Int)).toNat ≠ m % k := by
  intro he
  have hz : ((m : Int) - i) % k = (m : Int) % k := by
    have := Int.emod_nonneg ((m : Int) - i) (b := (k : Int)) (by omega)
    omega
  have hd : (k : Int) ∣ i := by simpa using Int.ModEq.dvd hz
  exact absurd (Nat.le_of_dvd h0 (Int.natCast_dvd_natCast.mp hd)) (by omega)

/-- After FIR_UPDATE's write each place up to the cursor holds its sample, counted with the new one (R145, R147). -/
theorem Hw.Filtering.read_histAfter (hf : Hw.Filtering start k taps xs h) (x : Nat) {i : Nat} (hi : i < k) :
    Memory.read (h.fir.histAfter (u2f (sampleIn p x))) (((xs.length : Int) - i) % (k : Int)).toNat =
      .val (sampleAt p (xs ++ [x]) (xs.length + 1 - i)) := by
  rw [Fir.histAfter, hf.cur]
  obtain rfl | h0 := Nat.eq_zero_or_pos i
  · have hslot : (((xs.length : Int) - (0 : Nat)) % (k : Int)).toNat = xs.length % k := by simp; omega
    rw [hslot, read_write_same, Nat.sub_zero, sampleAt_append_newest]
  · have hplace : ((xs.length : Int) - i) = (xs.length : Int) - 1 - (i - 1 : Nat) := by omega
    have hage : xs.length + 1 - i = xs.length - (i - 1) := by omega
    rw [read_write_other _ _ (tapSlot_ne _ h0 hi), hplace, hf.hist (i - 1) (by omega), hage,
      sampleAt_append (Nat.sub_le _ _)]

/-- FIR_UPDATE finds each tap and each sample in its slot. -/
theorem Hw.Filtering.reads (hf : Hw.Filtering start k taps xs h) (x : Nat) :
    h.fir.Reads (u2f (sampleIn p x)) (fun i => taps.getD i 0) fun i => sampleAt p (xs ++ [x]) (xs.length + 1 - i) := by
  have hlt : xs.length % k < k := Nat.mod_lt _ hf.pos
  refine ⟨hf.bound, hf.klen.symm ▸ hf.pos, hf.klen.symm ▸ hf.len, hf.cur.symm ▸ hlt.trans_le hf.len,
    hf.klen.symm ▸ hf.coef, fun i hi => ?_⟩
  rw [hf.klen] at hi
  rw [hf.klen, hf.cur, Int.natCast_mod, Int.emod_sub_emod, hf.read_histAfter x hi]

/-- FIR_UPDATE runs and takes in its sample; it records no model fault and no refusal (R145, R147). -/
theorem Hw.Filtering.update (hf : Hw.Filtering start k taps xs h) (x : Nat) :
    ∃ t : Hw p, exec (.firUpdate x) ⟨p, h⟩ = .next ⟨p, t⟩ ∧ Hw.Filtering start k taps (xs ++ [x]) t ∧
      t.model.faults = h.model.faults ∧ t.model.refused = h.model.refused := by
  refine ⟨_, exec_firUpdate_next.mpr (hf.reads x).firUpdate, ?_, rfl, rfl⟩
  have hlen : (xs ++ [x]).length = xs.length + 1 := by simp
  refine ⟨hf.bound, hf.klen, hf.pos, hf.len, hf.coef, ?_, fun i hi => ?_, fun _ => ?_, ?_, hf.unbound⟩
  · have hlt : (xs.length + 1) % k < 2 ^ p.klw := (Nat.mod_lt _ hf.pos).trans (hf.klen ▸ h.fir.klen.isLt)
    rw [Hw.updated, emit_fir, advance_wcur, hf.klen, hf.cur, Nat.mod_add_mod, BitVec.toNat_ofNat,
      Nat.mod_eq_of_lt hlt, hlen]
  · have hplace : (((xs ++ [x]).length : Int) - 1 - i) = (xs.length : Int) - i := by omega
    rw [hplace, hlen, ← hf.read_histAfter x hi]
    rfl
  · rw [Hw.updated, emit_fir, advance_y, hf.klen, hf.draws, hlen, Nat.add_sub_cancel]
  · have hd : (h.updated (u2f (sampleIn p x)) (tapSum h.model.nanDraws h.fir.klen.toNat (fun i => taps.getD i 0)
        fun i => sampleAt p (xs ++ [x]) (xs.length + 1 - i))).model.nanDraws =
        h.model.nanDraws + 2 * h.fir.klen.toNat := rfl
    rw [hd, hf.klen, hf.draws, hlen]
    ring

/-- A run of FIR_UPDATEs and operations that write no FIR state completes and takes in its samples (R148). -/
theorem Hw.Filtering.run {ops : List Instr} (hf : Hw.Filtering start k taps xs h)
    (hops : ∀ i ∈ ops, (∃ x, i = .firUpdate x) ∨ writesFir i = false) :
    ∃ t : Hw p, runOps ops ⟨p, h⟩ = .next ⟨p, t⟩ ∧ Hw.Filtering start k taps (xs ++ samplesOf ops) t := by
  induction ops generalizing h xs with
  | nil => exact ⟨h, rfl, by simpa [samplesOf] using hf⟩
  | cons i is ih =>
    obtain ⟨hi, his⟩ := List.forall_mem_cons.mp hops
    have hstep : ∃ u : Hw p, exec i ⟨p, h⟩ = .next ⟨p, u⟩ ∧ Hw.Filtering start k taps (xs ++ samplesOf [i]) u := by
      obtain ⟨x, rfl⟩ | hi := hi
      · obtain ⟨u, he, hu, -⟩ := hf.update x
        exact ⟨u, he, hu⟩
      · obtain ⟨u, he⟩ := exists_exec_next hi h
        rw [samplesOf_singleton hi, List.append_nil]
        exact ⟨u, he, hf.other hi he⟩
    obtain ⟨u, he, hu⟩ := hstep
    obtain ⟨t, hr, ht⟩ := ih hu his
    rw [List.append_assoc, ← samplesOf_cons] at ht
    exact ⟨t, runOps_cons_next.mpr ⟨_, he, hr⟩, ht⟩

/-- A run of FIR_UPDATEs only records no model fault and no refusal (R148). -/
theorem Hw.Filtering.run_updates {ops : List Instr} {t : Hw p} (hf : Hw.Filtering start k taps xs h)
    (hops : ∀ i ∈ ops, ∃ x, i = .firUpdate x) (hr : runOps ops ⟨p, h⟩ = .next ⟨p, t⟩) :
    t.model.faults = h.model.faults ∧ t.model.refused = h.model.refused := by
  induction ops generalizing h xs with
  | nil => cases hr; exact ⟨rfl, rfl⟩
  | cons i is ih =>
    obtain ⟨⟨x, rfl⟩, his⟩ := List.forall_mem_cons.mp hops
    obtain ⟨u, he, hu, hfault, href⟩ := hf.update x
    obtain ⟨v, he', hr'⟩ := runOps_cons_next.mp hr
    cases he.symm.trans he'
    obtain ⟨h1, h2⟩ := ih hu his hr'
    exact ⟨h1.trans hfault, h2.trans href⟩

/-- A FIR_INIT with finite taps of a legal length binds them, from every state (R144). -/
theorem exec_firInit_filtering (start : Hw p) (hw : (Instr.firInit k taps).wf p = true) (h1 : 1 ≤ k) (hL : k ≤ p.lMax)
    (hfin : ∀ i (hi : i < taps.length), i < k → fIsFinite taps[i] = true) :
    ∃ h : Hw p, exec (.firInit k taps) ⟨p, start⟩ = .next ⟨p, h⟩ ∧ Hw.Filtering start k taps [] h ∧
      h.model.faults = start.model.faults ∧ h.model.refused = start.model.refused := by
  have hk := (wf_firInit_iff.mp hw).1
  have hn : anyNonfinite (boundTaps (klenIn p k).toNat taps) = false := by
    rw [klenIn_toNat hk]
    exact anyNonfinite_boundTaps_eq_false.mpr hfin
  refine ⟨_, ?_, .init start hw h1 hL, rfl, rfl⟩
  rw [exec_firInit, firInit_binds _ (badLength_klenIn_eq_false hk h1 hL) hn]

/-- Settles O23, by the run that FIR_INIT starts; a slot not yet reached is a place older than the first sample. -/
theorem steadyStateIsTheConvolution : Obligations.SteadyStateIsTheConvolution := by
  unfold Obligations.SteadyStateIsTheConvolution
  rintro p ⟨_, start⟩ t k taps ops rfl - hw h1 hL hfin hops hne hr
  obtain ⟨h, he, hf, -⟩ := exec_firInit_filtering start hw h1 hL hfin
  obtain ⟨g, hg, hrun⟩ := hf.run hops
  cases (runOps_cons_next.mpr ⟨_, he, hg⟩).symm.trans hr
  rw [List.nil_append] at hrun
  refine ⟨hrun.cur, fun i hi => hrun.hist i (by omega), fun i hmi hik => ?_, hrun.y hne⟩
  have hplace := hrun.hist (k + (samplesOf ops).length - 1 - i) (by omega)
  have hslot : ((samplesOf ops).length : Int) - 1 - (k + (samplesOf ops).length - 1 - i : Nat) = (i : Int) - k := by omega
  have hold : (samplesOf ops).length - (k + (samplesOf ops).length - 1 - i) = 0 := by omega
  rwa [hslot, hold, sampleAt_zero, Int.sub_emod_right, ← Int.natCast_mod, Int.toNat_natCast, Nat.mod_eq_of_lt hik]
    at hplace

/-- Settles O24: FIR_INIT binds, and the run that it starts completes. -/
theorem everyFilterRunCompletes : Obligations.EveryFilterRunCompletes := by
  unfold Obligations.EveryFilterRunCompletes
  rintro ⟨p, start⟩ k taps ops - hw h1 hL hfin hops
  obtain ⟨h, he, hf, hfault, href⟩ := exec_firInit_filtering start hw h1 hL hfin
  obtain ⟨t, hr, ht⟩ := hf.run hops
  refine ⟨⟨p, t⟩, runOps_cons_next.mpr ⟨_, he, hr⟩, ht.bound, ht.unbound, fun hup => ?_⟩
  obtain ⟨h1, h2⟩ := hf.run_updates hup hr
  exact ⟨h1.trans hfault, h2.trans href⟩

end Sys2Proof.Machine
end

section
/-!
O18, O19, O20. One rounding to nearest, ties to even (R140 to R143). A rounded word is a whole number of units of
`2^dropBits`; every other finite word is such a multiple too, or lies below the binade of the exact value.
-/

namespace Sys2Proof.Machine

/-! ## Words -/

theorem fExp_signWord {neg : Bool} {low : Nat} (hl : low < 2 ^ 31) : fExp (signWord neg low) = low / 2 ^ 23 := by
  rw [fExp, signWord_toNat hl]
  cases neg
  · simp; omega
  · simp; omega

theorem fFrac_signWord {neg : Bool} {low : Nat} (hl : low < 2 ^ 31) : fFrac (signWord neg low) = low % 2 ^ 23 := by
  rw [fFrac, signWord_toNat hl]
  cases neg
  · simp
  · simp; omega

/-- The finite words are those with low bits under an infinity's (R140). -/
theorem fIsFinite_signWord_iff {neg : Bool} {low : Nat} (hl : low < 2 ^ 31) (hinf : low ≤ 0x7F800000) :
    fIsFinite (signWord neg low) = true ↔ low < 0x7F800000 := by
  rw [fIsFinite_iff, fExp_signWord hl]
  omega

/-- Adding a significand to its exponent gives its word, also where it carries into the next binade (R140). -/
theorem fMag_signWord {neg : Bool} {e q : Nat} (hq : q ≤ 2 ^ 24) (hn : e = 0 ∨ 2 ^ 23 ≤ q)
    (hfin : e * 2 ^ 23 + q < 0x7F800000) : fMag (signWord neg (e * 2 ^ 23 + q)) = q * 2 ^ e := by
  have hl : e * 2 ^ 23 + q < 2 ^ 31 := by omega
  rw [fMag, fSig, fScale, fExp_signWord hl, fFrac_signWord hl]
  obtain hsub | ⟨hlo, hhi⟩ | rfl : q < 2 ^ 23 ∨ (2 ^ 23 ≤ q ∧ q < 2 ^ 24) ∨ q = 2 ^ 24 := by omega
  · obtain rfl : e = 0 := by omega
    have hexp : (0 * 2 ^ 23 + q) / 2 ^ 23 = 0 := by omega
    have hfrac : (0 * 2 ^ 23 + q) % 2 ^ 23 = q := by omega
    rw [hexp, hfrac, if_pos rfl]
  · have hexp : (e * 2 ^ 23 + q) / 2 ^ 23 = e + 1 := by omega
    have hfrac : 2 ^ 23 + (e * 2 ^ 23 + q) % 2 ^ 23 = q := by omega
    rw [if_neg (by omega), hexp, hfrac, Nat.add_sub_cancel]
  · have hexp : (e * 2 ^ 23 + 2 ^ 24) / 2 ^ 23 = e + 2 := by omega
    have hfrac : 2 ^ 23 + (e * 2 ^ 23 + 2 ^ 24) % 2 ^ 23 = 2 ^ 23 := by omega
    rw [if_neg (by omega), hexp, hfrac, Nat.add_succ_sub_one, Nat.pow_succ]
    omega

/-- A finite word has 24 significant bits (R140). -/
theorem fSig_lt (w : F32) : fSig w < 2 ^ 24 := by
  unfold fSig fFrac
  split <;> omega

/-- In units of `2^-(149+d)` a finite word is a multiple of `2^s`, or lies below the words whose last place is `2^s`. -/
theorem dvd_fMag_or_lt (w : F32) (d s : Nat) : 2 ^ s ∣ fMag w * 2 ^ d ∨ (d < s ∧ fMag w * 2 ^ d < 2 ^ 23 * 2 ^ s) := by
  have hw : fMag w * 2 ^ d = fSig w * 2 ^ (fScale w + d) := by rw [fMag, Nat.mul_assoc, ← Nat.pow_add]
  rw [hw]
  by_cases hs : s ≤ fScale w + d
  · exact .inl ((Nat.pow_dvd_pow 2 hs).mul_left _)
  · refine .inr ⟨by omega, ?_⟩
    calc fSig w * 2 ^ (fScale w + d) < 2 ^ 24 * 2 ^ (fScale w + d) := by gcongr; exact fSig_lt w
      _ = 2 ^ 23 * 2 ^ (fScale w + d + 1) := by ring
      _ ≤ 2 ^ 23 * 2 ^ s := by gcongr <;> omega

/-! ## Signs -/

/-- A value from its sign and what it is without it. -/
def signed (neg : Bool) (z : Int) : Int := if neg then -z else z

theorem fUnits_eq_signed (w : F32) : fUnits w = signed (fSign w) (fMag w) := rfl

@[simp] theorem signed_signed (neg : Bool) (z : Int) : signed neg (signed neg z) = z := by cases neg <;> simp [signed]

@[simp] theorem abs_signed (neg : Bool) (z : Int) : |signed neg z| = |z| := by cases neg <;> simp [signed]

theorem signed_sub (neg : Bool) (y z : Int) : signed neg (y - z) = signed neg y - signed neg z := by
  cases neg
  · rfl
  · simp only [signed, if_true]; omega

theorem signed_mul (neg : Bool) (y z : Int) : signed neg (y * z) = signed neg y * z := by
  cases neg <;> simp [signed]

/-- The sign of a product is the exclusive or of its factors' (R142). -/
theorem signed_mul_signed (a b : Bool) (y z : Int) : signed a y * signed b z = signed (a ^^ b) (y * z) := by
  cases a <;> cases b <;> simp [signed]

/-- A value is its sign and its magnitude. -/
theorem signed_natAbs (z : Int) : signed (decide (z < 0)) z.natAbs = z := by
  by_cases hz : z < 0
  · simp only [signed, hz, decide_true, if_true]; omega
  · simp only [signed, hz, decide_false, Bool.false_eq_true, if_false]; omega

/-- Two values of one sign differ by what they differ by without it. -/
theorem abs_sub_signed (neg : Bool) (y z : Int) : |y - signed neg z| = |signed neg y - z| := by
  rw [← abs_signed neg (y - signed neg z), signed_sub, signed_signed]

/-! ## Rounding to a multiple of `2^s` -/

/-- What is rounded up: more than half a unit, and half a unit above an odd number (R142, R143). -/
theorem roundShift_cases (m s : Nat) :
    (2 ^ s < m % 2 ^ s * 2 ∨ (m % 2 ^ s * 2 = 2 ^ s ∧ m / 2 ^ s % 2 = 1)) ∧ roundShift m s = m / 2 ^ s + 1 ∨
      ¬ (2 ^ s < m % 2 ^ s * 2 ∨ (m % 2 ^ s * 2 = 2 ^ s ∧ m / 2 ^ s % 2 = 1)) ∧ roundShift m s = m / 2 ^ s :=
  (ite_eq_iff.mp rfl).imp (.imp_right Eq.symm) (.imp_right Eq.symm)

/-- No multiple of `2^s` is nearer than the rounded one, and only an even one is as near as another. -/
theorem roundShift_nearest (m s : Nat) (z : Int) :
    |(roundShift m s : Int) * 2 ^ s - m| ≤ |z * 2 ^ s - m| ∧
      (z ≠ roundShift m s → |(roundShift m s : Int) * 2 ^ s - m| = |z * 2 ^ s - m| → roundShift m s % 2 = 0) := by
  have hm : ((m / 2 ^ s : Nat) : Int) * 2 ^ s + (m % 2 ^ s : Nat) = m := by
    exact_mod_cast Nat.div_add_mod' m (2 ^ s)
  have hr : m % 2 ^ s < 2 ^ s := Nat.mod_lt _ (by positivity)
  have hP : ((2 : Int) ^ s) = (2 ^ s : Nat) := by norm_cast
  have hq := roundShift_cases m s
  rw [hP] at hm ⊢
  generalize m % 2 ^ s = r at hm hr hq
  generalize m / 2 ^ s = a at hm hq
  generalize roundShift m s = q at hq ⊢
  generalize 2 ^ s = P at hm hr hq ⊢
  -- where `z * P` lies from `a * P`, the last multiple up to `m`
  have hz : z * P = a * P + (z - a) * P := by ring
  have hlow : z < a → (z - a) * P ≤ -P := fun h => by nlinarith
  have hzero : z = a → (z - a) * P = 0 := fun h => by rw [h]; ring
  have hone : z = a + 1 → (z - a) * P = P := fun h => by rw [h]; ring
  have hhigh : a + 1 < z → 2 * P ≤ (z - a) * P := fun h => by nlinarith
  have hup : ((a + 1 : Nat) : Int) * P = a * P + P := by push_cast; ring
  simp only [abs_eq_max_neg]
  rw [hz]
  generalize (z - a) * (P : Int) = u at *
  obtain ⟨hc, hq⟩ | ⟨hc, hq⟩ := hq
  · rw [hq, hup]
    generalize (a : Int) * P = A at *
    omega
  · rw [hq]
    generalize (a : Int) * P = A at *
    omega

/-- A multiple of `2^s` is not rounded. -/
theorem roundShift_of_dvd {m s : Nat} (h : 2 ^ s ∣ m) : roundShift m s * 2 ^ s = m := by
  have h0 : m % 2 ^ s = 0 := Nat.mod_eq_zero_of_dvd h
  have hp : 0 < 2 ^ s := by positivity
  rw [roundShift, h0, if_neg (by omega), Nat.div_mul_cancel h]

/-- Numbers below `A + 1` that round up to it, with `A` odd, begin half a unit below it (R142, R143). -/
theorem succ_le_roundShift_iff {m s A : Nat} (hodd : A % 2 = 1) (hm : m / 2 ^ s ≤ A) :
    A + 1 ≤ roundShift m s ↔ (2 * A + 1) * 2 ^ s ≤ 2 * m := by
  have hdiv : m / 2 ^ s * 2 ^ s + m % 2 ^ s = m := Nat.div_add_mod' m (2 ^ s)
  have hr : m % 2 ^ s < 2 ^ s := Nat.mod_lt _ (by positivity)
  have hq := roundShift_cases m s
  rw [Nat.add_mul, Nat.one_mul, Nat.mul_assoc]
  obtain ha | ha := hm.eq_or_lt
  · rw [ha] at hdiv hq
    omega
  · have hmul : (m / 2 ^ s + 1) * 2 ^ s ≤ A * 2 ^ s := Nat.mul_le_mul_right _ ha
    rw [Nat.add_mul, Nat.one_mul] at hmul
    omega

/-! ## The place of the last bit -/

/-- The last place is at most `2^s` when `2^s` is no place below the least one and 24 bits from it hold the number. -/
theorem dropBits_le_iff {m d s : Nat} : dropBits m d ≤ s ↔ d ≤ s ∧ m < 2 ^ 24 * 2 ^ s := by
  rw [← Nat.pow_add]
  obtain rfl | hm := Nat.eq_zero_or_pos m
  · simp [dropBits]
  · rw [← Nat.log2_lt hm.ne', dropBits]
    omega

theorem le_dropBits (m d : Nat) : d ≤ dropBits m d := (dropBits_le_iff.mp le_rfl).1

/-- Above the least place the number fills its 24 bits. -/
theorem two_pow_23_mul_le {m d : Nat} (hd : d < dropBits m d) : 2 ^ 23 * 2 ^ dropBits m d ≤ m := by
  have hn : ¬ dropBits m d ≤ dropBits m d - 1 := by omega
  rw [dropBits_le_iff] at hn
  have hs : 2 ^ dropBits m d = 2 * 2 ^ (dropBits m d - 1) := by rw [← Nat.pow_succ']; congr 1; omega
  omega

/-- The rounded significand has 24 bits, or has just carried into the 25th. -/
theorem roundShift_dropBits_le (m d : Nat) : roundShift m (dropBits m d) ≤ 2 ^ 24 := by
  have := roundShift_le m (dropBits m d)
  have := div_dropBits_lt m d
  omega

/-- Above the least place the rounded significand has its top bit. -/
theorem le_roundShift_dropBits (m d : Nat) : dropBits m d - d = 0 ∨ 2 ^ 23 ≤ roundShift m (dropBits m d) := by
  obtain hd | hd := (le_dropBits m d).eq_or_lt
  · exact .inl (by omega)
  · have hq : 2 ^ 23 ≤ m / 2 ^ dropBits m d := (Nat.le_div_iff_mul_le (by positivity)).mpr (two_pow_23_mul_le hd)
    right
    rw [roundShift]
    split <;> omega

/-! ## The rounded word -/

/-- The low 31 bits of a rounded word before an overflow is cut to an infinity. -/
def roundLow (m d : Nat) : Nat := (dropBits m d - d) * 2 ^ 23 + roundShift m (dropBits m d)

theorem roundPack_eq (neg : Bool) (m d : Nat) : roundPack neg m d = signWord neg (min (roundLow m d) 0x7F800000) := rfl

@[simp] theorem fSign_roundPack (neg : Bool) (m d : Nat) : fSign (roundPack neg m d) = neg := by
  rw [roundPack_eq, fSign_signWord (by omega)]

theorem fIsFinite_roundPack_iff {neg : Bool} {m d : Nat} :
    fIsFinite (roundPack neg m d) = true ↔ roundLow m d < 0x7F800000 := by
  rw [roundPack_eq, fIsFinite_signWord_iff (by omega) (by omega)]
  omega

/-- Zero is exact. -/
theorem roundPack_zero : roundPack false 0 0 = 0x00000000#32 := by decide

/-- A result that is not finite is the infinity of its sign. -/
theorem roundPack_of_not_finite {neg : Bool} {m d : Nat} (h : fIsFinite (roundPack neg m d) = false) :
    roundPack neg m d = signWord neg 0x7F800000 := by
  rw [← Bool.not_eq_true, fIsFinite_roundPack_iff] at h
  rw [roundPack_eq, Nat.min_eq_right (by omega)]

/-- A finite result is the rounded multiple of its last place. -/
theorem fMag_roundPack {neg : Bool} {m d : Nat} (h : fIsFinite (roundPack neg m d) = true) :
    fMag (roundPack neg m d) * 2 ^ d = roundShift m (dropBits m d) * 2 ^ dropBits m d := by
  rw [fIsFinite_roundPack_iff] at h
  rw [roundPack_eq, Nat.min_eq_left (by omega), roundLow,
    fMag_signWord (roundShift_dropBits_le m d) (le_roundShift_dropBits m d) h, Nat.mul_assoc, ← Nat.pow_add,
    Nat.sub_add_cancel (le_dropBits m d)]

/-- The last bit of a finite result is that of its significand. -/
theorem roundPack_toNat_mod_two {neg : Bool} {m d : Nat} (h : fIsFinite (roundPack neg m d) = true) :
    (roundPack neg m d).toNat % 2 = roundShift m (dropBits m d) % 2 := by
  rw [fIsFinite_roundPack_iff] at h
  rw [roundPack_eq, Nat.min_eq_left (by omega), signWord_toNat (by omega), roundLow]
  cases neg
  · simp; omega
  · simp; omega

/-- The result overflows exactly from half a unit below `2^128` on (R142, R143). -/
theorem roundPack_not_finite_iff {neg : Bool} {m d : Nat} :
    fIsFinite (roundPack neg m d) = false ↔ 0x1FFFFFF * 2 ^ (252 + d) ≤ m := by
  rw [← Bool.not_eq_true, fIsFinite_roundPack_iff, roundLow]
  have hd := le_dropBits m d
  have hdiv := div_dropBits_lt m d
  have hq := roundShift_dropBits_le m d
  obtain hs | hs | hs : dropBits m d ≤ 252 + d ∨ dropBits m d = 252 + d + 1 ∨ 252 + d + 2 ≤ dropBits m d := by omega
  · have hm := (dropBits_le_iff.mp hs).2
    omega
  · have hcarry := succ_le_roundShift_iff (A := 0xFFFFFF) (by decide) (Nat.le_of_lt_succ hdiv)
    rw [hs, Nat.pow_succ] at hcarry
    rw [hs] at hq ⊢
    omega
  · have hm := two_pow_23_mul_le (m := m) (d := d) (by omega)
    have hpow : 2 ^ (252 + d) * 2 ^ 2 ≤ 2 ^ dropBits m d := by
      rw [← Nat.pow_add]
      exact Nat.pow_le_pow_right (by decide) hs
    have hlow := (le_roundShift_dropBits m d).resolve_left (by omega)
    omega

/-- No finite word is nearer to the exact value than a finite result, and a result that is only as near as another word
is even (R142, R143). -/
theorem roundPack_nearest {neg : Bool} {m d : Nat} (h : fIsFinite (roundPack neg m d) = true) (w : F32) :
    |fUnits (roundPack neg m d) * 2 ^ d - signed neg m| ≤ |fUnits w * 2 ^ d - signed neg m| ∧
      (fUnits w ≠ fUnits (roundPack neg m d) →
        |fUnits (roundPack neg m d) * 2 ^ d - signed neg m| = |fUnits w * 2 ^ d - signed neg m| →
        (roundPack neg m d).toNat % 2 = 0) := by
  have hr : signed neg (fUnits (roundPack neg m d) * 2 ^ d) =
      (roundShift m (dropBits m d) : Int) * 2 ^ dropBits m d := by
    rw [fUnits_eq_signed, fSign_roundPack, signed_mul, signed_signed]
    exact_mod_cast fMag_roundPack h
  have hw : |signed neg (fUnits w * 2 ^ d)| = ((fMag w * 2 ^ d : Nat) : Int) := by
    rw [abs_signed, abs_mul, fUnits_eq_signed, abs_signed]
    simp
  rw [abs_sub_signed neg, abs_sub_signed neg (fUnits w * 2 ^ d), hr, roundPack_toNat_mod_two h]
  obtain hdvd | ⟨hds, hlt⟩ := dvd_fMag_or_lt w d (dropBits m d)
  · -- `w` is a multiple of the last place
    obtain ⟨z, hz⟩ : (2 : Int) ^ dropBits m d ∣ signed neg (fUnits w * 2 ^ d) := by
      rw [← dvd_abs, hw]
      exact_mod_cast hdvd
    rw [Int.mul_comm (2 ^ _) z] at hz
    rw [hz]
    refine ⟨(roundShift_nearest m _ z).1, fun hne => (roundShift_nearest m _ z).2 fun hzq => hne ?_⟩
    have hsame : signed neg (fUnits w * 2 ^ d) = signed neg (fUnits (roundPack neg m d) * 2 ^ d) := by rw [hz, hr, hzq]
    have hsame' := congrArg (signed neg) hsame
    rw [signed_signed, signed_signed] at hsame'
    exact mul_right_cancel₀ (by positivity) hsame'
  · -- `w` lies below the binade of the exact value, whose least word is a nearer multiple
    have hnear := (roundShift_nearest m (dropBits m d) (2 ^ 23)).1
    have hlow : ((2 ^ 23 * 2 ^ dropBits m d : Nat) : Int) ≤ m := by exact_mod_cast two_pow_23_mul_le hds
    have hw' : |signed neg (fUnits w * 2 ^ d)| < ((2 ^ 23 * 2 ^ dropBits m d : Nat) : Int) := by
      rw [hw]
      exact_mod_cast hlt
    push_cast at hlow hw'
    have hfar : |(2 : Int) ^ 23 * 2 ^ dropBits m d - m| < |signed neg (fUnits w * 2 ^ d) - m| := by
      rw [abs_lt] at hw'
      rw [abs_of_nonpos (by omega), abs_of_nonpos (by omega)]
      omega
    exact ⟨(hnear.trans_lt hfar).le, fun _ he => absurd he (hnear.trans_lt hfar).ne⟩

/-- The overflow threshold as the statements write it: `2^128 - 2^103` in units of `2^-149`. -/
theorem overflow_threshold : (2 : Int) ^ 277 - 2 ^ 252 = (0x1FFFFFF * 2 ^ 252 : Nat) := by
  have h : (2 : Int) ^ 277 = 2 ^ 25 * 2 ^ 252 := by rw [← pow_add]
  rw [h]
  push_cast

/-- The two infinities. -/
theorem signWord_infinity (neg : Bool) : signWord neg 0x7F800000 = if neg then 0xFF800000#32 else 0x7F800000#32 := by
  cases neg <;> rfl

/-- The two zeros (R140). -/
theorem signWord_zero (neg : Bool) : fUnits (signWord neg 0) = 0 ∧ fIsFinite (signWord neg 0) = true := by
  revert neg
  decide

/-! ## Finite operands -/

theorem not_nan_inf_of_finite {w : F32} (h : fIsFinite w = true) : fIsNan w = false ∧ fIsInf w = false := by
  have he := fIsFinite_iff.mp h
  simp [fIsNan, fIsInf, he]

/-- A sum of finite words (R143). -/
theorem fadd32_of_finite (free : BitVec 23) {a b : F32} (ha : fIsFinite a = true) (hb : fIsFinite b = true) :
    fadd32 free a b = if fUnits a + fUnits b = 0 then signWord (fSign a && fSign b) 0
      else roundPack (decide (fUnits a + fUnits b < 0)) (fUnits a + fUnits b).natAbs 0 := by
  simp [fadd32, not_nan_inf_of_finite ha, not_nan_inf_of_finite hb]

/-- A product of finite words (R142). -/
theorem fmul32_of_finite (free : BitVec 23) {a b : F32} (ha : fIsFinite a = true) (hb : fIsFinite b = true) :
    fmul32 free a b = roundPack (fSign a ^^ fSign b) (fMag a * fMag b) 149 := by
  simp [fmul32, not_nan_inf_of_finite ha, not_nan_inf_of_finite hb]

/-- Settles O18: the last place of a converted sample is at most `2^149`, of which the sample is a multiple. -/
theorem sampleConversionIsExact : Obligations.SampleConversionIsExact := by
  unfold Obligations.SampleConversionIsExact
  intro w x hw
  obtain ⟨hfin, hsign⟩ := u2f_finite hw x
  refine ⟨?_, hfin, hsign, fun h0 => by subst h0; simpa [u2f] using roundPack_zero⟩
  have hx : x.toNat < 2 ^ 24 := x.isLt.trans_le (Nat.pow_le_pow_right (by decide) hw)
  have hdrop : dropBits (x.toNat * 2 ^ 149) 0 ≤ 149 :=
    dropBits_le_iff.mpr ⟨Nat.zero_le _, Nat.mul_lt_mul_of_pos_right hx (by positivity)⟩
  have hmag : fMag (u2f x) * 2 ^ 0 = x.toNat * 2 ^ 149 :=
    (fMag_roundPack hfin).trans (roundShift_of_dvd ((Nat.pow_dvd_pow 2 hdrop).mul_left _))
  rw [Nat.pow_zero, Nat.mul_one] at hmag
  rw [fUnits_eq_signed, hsign, hmag]
  exact Nat.cast_mul _ _

/-- Settles O19: an exact zero apart, the sum is the rounding of its exact value. -/
theorem sumRoundsOnceToNearestEven : Obligations.SumRoundsOnceToNearestEven := by
  unfold Obligations.SumRoundsOnceToNearestEven
  intro free a b ha hb
  rw [fadd32_of_finite free ha hb]
  generalize fUnits a + fUnits b = e
  by_cases he : e = 0
  · simp only [if_pos he]
    obtain ⟨hu, hfin⟩ := signWord_zero (fSign a && fSign b)
    rw [hu, hfin, he, overflow_threshold]
    refine ⟨fun _ w _ => ⟨by simp, fun hne heq => absurd ?_ hne⟩, ?_, nofun, fun h => absurd rfl h, fun _ => ?_⟩
    · simpa using heq.symm
    · simp
    · cases fSign a <;> cases fSign b <;> rfl
  · simp only [if_neg he]
    have hpack := signed_natAbs e
    refine ⟨fun hfin w _ => ?_, ?_, fun hinf => ?_, fun _ => fSign_roundPack .., fun h0 => absurd h0 he⟩
    · have hnear := roundPack_nearest hfin w
      rwa [hpack, pow_zero, mul_one, mul_one] at hnear
    · rw [roundPack_not_finite_iff, overflow_threshold, Int.abs_eq_natAbs]
      norm_cast
    · rw [roundPack_of_not_finite hinf, signWord_infinity]
      simp only [decide_eq_true_eq]

/-- Settles O20: the product is the rounding of its exact value, zeros among them. -/
theorem productRoundsOnceToNearestEven : Obligations.ProductRoundsOnceToNearestEven := by
  unfold Obligations.ProductRoundsOnceToNearestEven
  intro free a b ha hb
  have he : fUnits a * fUnits b = signed (fSign a ^^ fSign b) ((fMag a * fMag b : Nat) : Int) := by
    rw [fUnits_eq_signed, fUnits_eq_signed, signed_mul_signed, Nat.cast_mul]
  rw [fmul32_of_finite free ha hb, he]
  refine ⟨fun hfin w _ => roundPack_nearest hfin w, ?_, fun hinf => ?_, fSign_roundPack ..⟩
  · rw [roundPack_not_finite_iff, overflow_threshold, abs_signed, Nat.abs_cast, Nat.pow_add, ← Nat.mul_assoc]
    norm_cast
  · rw [roundPack_of_not_finite hinf, signWord_infinity]
    cases fSign a <;> cases fSign b <;> rfl

end Sys2Proof.Machine
end

section
/-!
O21. Operands that are not finite (R142, R143), and the quiet NaNs (R140, R150).
-/

namespace Sys2Proof.Machine

/-! ## NaNs and infinities -/

theorem fIsNan_iff {w : F32} : fIsNan w = true ↔ fExp w = 255 ∧ fFrac w ≠ 0 := by simp [fIsNan]

theorem fIsInf_iff {w : F32} : fIsInf w = true ↔ fExp w = 255 ∧ fFrac w = 0 := by simp [fIsInf]

/-- An infinity is neither a NaN nor finite (R140). -/
theorem not_nan_finite_of_inf {w : F32} (h : fIsInf w = true) : fIsNan w = false ∧ fIsFinite w = false := by
  obtain ⟨he, hf⟩ := fIsInf_iff.mp h
  simp [fIsNan, fIsFinite, he, hf]

/-- A word that is neither a NaN nor an infinity is finite (R140). -/
theorem finite_or_inf {w : F32} (h : fIsNan w = false) : fIsFinite w = true ∨ fIsInf w = true := by
  rw [fIsFinite_iff, fIsInf_iff]
  by_cases he : fExp w = 255
  · exact .inr ⟨he, by simpa [fIsNan, he] using h⟩
  · exact .inl he

theorem fUnits_eq_zero_iff {w : F32} : fUnits w = 0 ↔ fMag w = 0 := by
  rw [fUnits]
  split <;> simp

/-- An infinity's fields are not those of a zero (R140). -/
theorem fMag_ne_zero_of_inf {w : F32} (h : fIsInf w = true) : fMag w ≠ 0 := by
  have he := (fIsInf_iff.mp h).1
  simp [fMag, fSig, he]

/-! ## Sums -/

/-- A NaN operand makes the sum a NaN (R143). -/
theorem fadd32_nan (free : BitVec 23) {a b : F32} (h : fIsNan a = true ∨ fIsNan b = true) :
    fadd32 free a b = quietNan free := by
  rw [fadd32, if_pos (by simpa using h)]

/-- An infinity is kept in a sum with a finite word (R143). -/
theorem fadd32_inf_left (free : BitVec 23) {a b : F32} (ha : fIsInf a = true) (hb : fIsFinite b = true) :
    fadd32 free a b = a := by
  simp [fadd32, ha, not_nan_finite_of_inf ha, not_nan_inf_of_finite hb]

theorem fadd32_inf_right (free : BitVec 23) {a b : F32} (ha : fIsFinite a = true) (hb : fIsInf b = true) :
    fadd32 free a b = b := by
  simp [fadd32, hb, not_nan_finite_of_inf hb, not_nan_inf_of_finite ha]

/-- Infinities of one sign add, those of opposite sign make a NaN (R143). -/
theorem fadd32_inf_inf (free : BitVec 23) {a b : F32} (ha : fIsInf a = true) (hb : fIsInf b = true) :
    fadd32 free a b = if fSign a = fSign b then a else quietNan free := by
  by_cases hs : fSign a = fSign b
  · simp [fadd32, ha, hb, not_nan_finite_of_inf ha, not_nan_finite_of_inf hb, hs]
  · simp [fadd32, ha, hb, not_nan_finite_of_inf ha, not_nan_finite_of_inf hb, hs]

/-! ## Products -/

/-- The product's rules do not tell its operands apart (R142). -/
theorem fmul32_comm (free : BitVec 23) (a b : F32) : fmul32 free a b = fmul32 free b a := by
  simp only [fmul32, Bool.or_comm (fIsNan a), Bool.or_comm (fIsInf a), Bool.xor_comm (fSign a), Nat.mul_comm (fMag a),
    Bool.or_comm (fIsFinite a && _)]

/-- A NaN operand makes the product a NaN (R142). -/
theorem fmul32_nan (free : BitVec 23) {a b : F32} (h : fIsNan a = true ∨ fIsNan b = true) :
    fmul32 free a b = quietNan free := by
  rw [fmul32, if_pos (by simpa using h)]

/-- Infinity times zero is a NaN (R142). -/
theorem fmul32_inf_zero (free : BitVec 23) {a b : F32} (ha : fIsInf a = true) (hb : fIsNan b = false)
    (h0 : fUnits b = 0) : fmul32 free a b = quietNan free := by
  have hm := fUnits_eq_zero_iff.mp h0
  have hfin : fIsFinite b = true := (finite_or_inf hb).resolve_right fun hi => fMag_ne_zero_of_inf hi hm
  simp [fmul32, ha, hb, not_nan_finite_of_inf ha, hfin, hm]

/-- Infinity times anything else but a NaN is the infinity of the product's sign (R142). -/
theorem fmul32_inf_nonzero (free : BitVec 23) {a b : F32} (ha : fIsInf a = true) (hb : fIsNan b = false)
    (h0 : fUnits b ≠ 0 ∨ fIsInf b = true) :
    fmul32 free a b = if fSign a = fSign b then 0x7F800000#32 else 0xFF800000#32 := by
  have hm : fMag b ≠ 0 := h0.elim (fun h => mt fUnits_eq_zero_iff.mpr h) fMag_ne_zero_of_inf
  have hinf : fmul32 free a b = signWord (fSign a ^^ fSign b) 0x7F800000 := by
    simp [fmul32, ha, hb, not_nan_finite_of_inf ha, hm]
  rw [hinf, signWord_infinity]
  cases fSign a <;> cases fSign b <;> rfl

/-! ## Quiet NaNs -/

/-- A quiet NaN's fields: sign, all ones with the top fraction bit, payload (R140, R150). -/
theorem quietNan_toNat (free : BitVec 23) :
    (quietNan free).toNat = free.toNat / 2 ^ 22 * 2 ^ 31 + 0x1FF * 2 ^ 22 + free.toNat % 2 ^ 22 := by
  have hf : free.toNat < 2 ^ 23 := free.isLt
  have hpay : free.toNat % 2 ^ 22 < 2 ^ 22 := Nat.mod_lt _ (by decide)
  rw [quietNan, BitVec.toNat_append, BitVec.toNat_append, ← Nat.shiftLeft_add_eq_or_of_lt (by simp; omega),
    ← Nat.shiftLeft_add_eq_or_of_lt (by simp)]
  simp [Nat.shiftLeft_eq, Nat.shiftRight_eq_div_pow]
  omega

theorem fIsNan_quietNan (free : BitVec 23) : fIsNan (quietNan free) = true := by
  have hf : free.toNat < 2 ^ 23 := free.isLt
  rw [fIsNan_iff, fExp, fFrac, quietNan_toNat]
  omega

/-- The draw whose NaN has the sign and the payload of `w`. -/
def freeOf (w : F32) : BitVec 23 := BitVec.ofNat 23 (w.toNat / 2 ^ 31 * 2 ^ 22 + w.toNat % 2 ^ 22)

/-- A NaN with the top fraction bit set is a quiet NaN (R140). -/
theorem quietNan_freeOf {w : F32} (hn : fIsNan w = true) (hq : w.getLsbD 22 = true) : quietNan (freeOf w) = w := by
  have hw : w.toNat < 2 ^ 32 := w.isLt
  have he : w.toNat / 2 ^ 23 % 2 ^ 8 = 255 := (fIsNan_iff.mp hn).1
  have hb : w.toNat / 2 ^ 22 % 2 = 1 := by simpa [BitVec.getLsbD, Nat.testBit_eq_decide_div_mod_eq] using hq
  apply BitVec.eq_of_toNat_eq
  rw [quietNan_toNat, freeOf, BitVec.toNat_ofNat]
  omega

/-- Settles O21, rule by rule. -/
theorem nonfiniteArithmetic : Obligations.NonfiniteArithmetic := by
  unfold Obligations.NonfiniteArithmetic
  refine ⟨fun free a b => ⟨fun h => ⟨fadd32_nan free h, fmul32_nan free h⟩,
    fun ha hb => ⟨fadd32_inf_left free ha hb, fadd32_inf_right free hb ha⟩, fadd32_inf_inf free,
    fun ha hb => ⟨fun h0 => ?_, fun h0 => ?_⟩⟩, fun free => ⟨fIsNan_quietNan free, getLsbD_quietNan_22 free⟩,
    fun w hn hq => ⟨freeOf w, quietNan_freeOf hn hq⟩⟩
  · rw [fmul32_comm free b a]
    exact ⟨fmul32_inf_zero free ha hb h0, fmul32_inf_zero free ha hb h0⟩
  · rw [fmul32_comm free b a]
    exact ⟨fmul32_inf_nonzero free ha hb h0, fmul32_inf_nonzero free ha hb h0⟩

end Sys2Proof.Machine
end

section
/-!
O25, O26, O27. The effects of the scheduler's operations with `CFG = INTEGRATED` (R172 to R174), each with its row and
its agent.
-/

namespace Sys2Proof.Machine

variable {p : Params}

/-! ## exec, with `CFG = INTEGRATED` (R243) -/

/-- TICK acts on the scheduler (R172). -/
theorem exec_tick_of_integrated (hc : p.cfg = .integrated) (h : Hw p) :
    exec .tick ⟨p, h⟩ = .next ⟨p, h.tick⟩ := by
  have hx : exec .tick ⟨p, h⟩ = .next ⟨p, h.asScheduler Hw.tick⟩ := rfl
  rw [hx, asScheduler_of_integrated hc]

/-- ADC_DONE acts on the scheduler with the converted value (R173). -/
theorem exec_adcDone_of_integrated (hc : p.cfg = .integrated) (h : Hw p) (d : BitVec p.dataW) :
    exec (.adcDone d.toNat) ⟨p, h⟩ = .next ⟨p, h.adcDone d⟩ := by
  have hx : exec (.adcDone d.toNat) ⟨p, h⟩ =
      .next ⟨p, h.asScheduler fun h => h.adcDone (sampleIn p d.toNat)⟩ := rfl
  rw [hx, asScheduler_of_integrated hc, sampleIn_toNat]

/-- ADC_DONE_TICK's TICK sees the state its ADC_DONE left (R174). -/
theorem exec_adcDoneTick_of_integrated (hc : p.cfg = .integrated) (h : Hw p) (d : BitVec p.dataW) :
    exec (.adcDoneTick d.toNat) ⟨p, h⟩ = .next ⟨p, (h.adcDone d).tick⟩ := by
  have hx : exec (.adcDoneTick d.toNat) ⟨p, h⟩ =
      .next ⟨p, h.asScheduler fun h => (h.adcDone (sampleIn p d.toNat)).tick⟩ := rfl
  rw [hx, asScheduler_of_integrated hc, sampleIn_toNat]

/-! ## TICK, ADC_DONE, ADC_DONE_TICK -/

/-- Settles O25: TICK in its two cases. -/
theorem tickStartsOrIsDropped : Obligations.TickStartsOrIsDropped := by
  unfold Obligations.TickStartsOrIsDropped
  intro p h hc
  refine ⟨rfl, rfl, fun hidle => ?_, fun hconv => ?_⟩
  · rw [exec_tick_of_integrated hc, tick_idle hidle]
    rfl
  · rw [exec_tick_of_integrated hc, tick_conv hconv]
    rfl

/-- Settles O26: in CONV ADC_DONE is PUT in its two cases, in IDLE it reports. -/
theorem adcDonePutsTheConvertedValue : Obligations.AdcDonePutsTheConvertedValue := by
  unfold Obligations.AdcDonePutsTheConvertedValue
  intro p h d hc
  refine ⟨checked_of_lt _ _ d.isLt, rfl, fun hconv hroom => ?_, fun hconv hfull => ?_, fun hidle => ?_⟩
  · refine ⟨_, fun i => read_write _ _ i d, ?_⟩
    rw [exec_adcDone_of_integrated hc, adcDone_conv d hconv, put_room]
    · rfl
    · exact beq_eq_false_iff_ne.mpr hroom
  · rw [exec_adcDone_of_integrated hc, adcDone_conv d hconv, put_full]
    · rfl
    · exact beq_iff_eq.mpr hfull
  · rw [exec_adcDone_of_integrated hc, adcDone_idle d hidle]

/-- Settles O27: ADC_DONE always leaves IDLE, so the TICK after it always starts an acquisition. -/
theorem adcDoneTickIsBothInOneStep : Obligations.AdcDoneTickIsBothInOneStep := by
  unfold Obligations.AdcDoneTickIsBothInOneStep
  intro p h d hc
  have htick := tick_idle (adcDone_sstate h d)
  refine ⟨checked_of_lt _ _ d.isLt, h.adcDone d, (h.adcDone d).tick, exec_adcDone_of_integrated hc h d,
    exec_tick_of_integrated hc _, exec_adcDoneTick_of_integrated hc h d, ?_, ?_, ?_, ?_, tick_fifo _,
    fun hidle => ?_, ?_⟩
  · rw [htick]
    rfl
  · rw [htick]
    exact adcDone_overrun h d
  · rw [tick_protoErr, adcDone_protoErr]
  · rw [tick_fir, adcDone_fir]
  · rw [tick_fifo, adcDone_idle d hidle]
  · rw [htick]
    rfl

end Sys2Proof.Machine
end

section
/-!
O8, O31, O38, O52, O56. Model faults and refusals (R200 to R207): which operations meet a refusal, what a refused line
leaves, what an operation does to the marks, and that FIR_UPDATE never stops while the filter has its invariant.
-/

namespace Sys2Proof.Machine

variable {p : Params}

/-! ## The refusal an operation meets (R204, R243) -/

/-- The port that `CFG` leaves undriven is the second producer's (R243). -/
theorem refusalOf_secondProducer {x : Nat} {i : Instr}
    (hi : (p.cfg = .integrated ∧ i = .put x) ∨
      (p.cfg = .fifoUnit ∧ (i = .tick ∨ i = .adcDone x ∨ i = .adcDoneTick x))) :
    refusalOf p i = some .secondProducer := by
  obtain ⟨hc, rfl⟩ | ⟨hc, rfl | rfl | rfl⟩ := hi <;> simp [refusalOf, schedRefusal, hc]

/-- A FIR_INIT of a legal length that fits its field meets the refusal of a tap that is not finite (R204, R206). -/
theorem refusalOf_nonfiniteTap {k j : Nat} {taps : List F32} (hw : (Instr.firInit k taps).wf p = true)
    (hL : k ≤ p.lMax) (hj : j < k) (hlen : j < taps.length) (hexp : fExp taps[j] = 255) :
    refusalOf p (.firInit k taps) = some .nonfiniteTap := by
  obtain ⟨hk, -⟩ := wf_firInit_iff.mp hw
  have hb := badLength_klenIn_eq_false hk (by omega) hL
  have hn : anyNonfinite (boundTaps (klenIn p k).toNat taps) = true := by
    rw [klenIn_toNat hk]
    exact anyNonfinite_boundTaps_eq_true.mpr ⟨j, hj, hlen, hexp⟩
  simp [refusalOf, hb, hn]

/-- Settles O8: an operation that meets a refusal does nothing but set the mark. -/
theorem secondProducerIsRefused : Obligations.SecondProducerIsRefused := by
  unfold Obligations.SecondProducerIsRefused
  intro p h x i hi
  exact exec_refusal (refusalOf_secondProducer hi) h

/-! ## A refused line -/

/-- The row PUT of the write port (R83). -/
theorem eq_put_of_decode {x : Nat} {i : Instr} (hd : decode p (.wport 0b1 x) = .ok i) : i = .put x :=
  (checked_eq_ok.mp hd).2.symm

/-- The rows of the scheduler's port but S_NOP (R83). -/
theorem eq_sched_of_decode {v : BitVec 2} {x : Nat} {i : Instr} (hv : v ≠ 0#2)
    (hd : decode p (.sport v x) = .ok i) : i = .tick ∨ i = .adcDone x ∨ i = .adcDoneTick x := by
  have hrows : ∀ u : BitVec 2, u ≠ 0#2 → u = 0b01 ∨ u = 0b10 ∨ u = 0b11 := by decide
  obtain rfl | rfl | rfl := hrows v hv
  · exact .inl (Decoded.ok.inj hd).symm
  · exact .inr (.inl (checked_eq_ok.mp hd).2.symm)
  · exact .inr (.inr (checked_eq_ok.mp hd).2.symm)

/-- The row FIR_INIT of the filter's port (R83). -/
theorem eq_firInit_of_decode {v : BitVec 2} {k c x : Nat} {i : Instr} (hv : v = 0b10 ∨ v = 0b11)
    (hd : decode p (.fport v k c x) = .ok i) : i = .firInit k (unpackTaps p.lMax c) := by
  rw [decode_fport_firInit hv] at hd
  split at hd
  · exact (checked_eq_ok.mp hd).2.symm
  · cases hd

/-- A line of a port other than `SYS` whose operation meets a refusal sets the mark at every level of `SYS`; the agents'
indexes advance while that is `00` (R81, R204). -/
theorem step_refused {h : Hw p} {st : Stimulus} {i : Instr} {r : RefusalName} {rest : List Line}
    (hl : p.legal = true) (hs : h.model.schedule = Line.present st :: rest) (hn : ∀ v, st ≠ .sys v)
    (hd : decode p st = .ok i) (hr : refusalOf p i = some r) :
    step ⟨p, h⟩ = .next ⟨p, { h with model := { h.model with
      schedule := rest
      refused := true
      refusals := h.model.refusals.insert r
      index := if h.model.sysLevel = 0#2 then (agentsOf i).foldl AgentIndex.bump h.model.index
        else h.model.index } }⟩ := by
  by_cases h0 : h.model.sysLevel = 0#2
  · rw [step_port_run hl hs rfl hn hd h0, exec_refusal hr, if_pos h0]
    rfl
  · rw [step_stimulus_held hl hs rfl hd h0, sysAfter_of_ne_sys hn, hr, if_neg h0]
    rfl

/-- Settles O56: the lines named meet their refusal, and a refused line is refused at every level of `SYS`. -/
theorem refusalsDoNotDependOnTheSysLevel : Obligations.RefusalsDoNotDependOnTheSysLevel := by
  unfold Obligations.RefusalsDoNotDependOnTheSysLevel
  intro p h st i rest hl hs hd
  refine ⟨fun hport => ?_, fun v k coef x hst hv hL ⟨j, hj, hexp⟩ => ?_⟩
  · obtain ⟨hc, x, rfl⟩ | ⟨hc, v, x, hv, rfl⟩ := hport
    · exact step_refused hl hs nofun hd (refusalOf_secondProducer (.inl ⟨hc, eq_put_of_decode hd⟩))
    · exact step_refused hl hs nofun hd (refusalOf_secondProducer (.inr ⟨hc, eq_sched_of_decode hv hd⟩))
  · subst hst
    have hi := eq_firInit_of_decode hv hd
    have hlen : j < (unpackTaps p.lMax coef).length := by rw [unpackTaps_length]; omega
    have htap : (unpackTaps p.lMax coef)[j] = BitVec.ofNat 32 (coef / 2 ^ (32 * j)) :=
      (List.getElem_eq_iff hlen).mpr (unpackTaps_getElem? coef (by omega))
    have hr : refusalOf p i = some .nonfiniteTap := by
      rw [hi]
      exact refusalOf_nonfiniteTap (hi ▸ decode_wf hd) hL hj hlen (htap ▸ hexp)
    exact step_refused hl hs nofun hd hr

/-! ## Use of `rdata_q` before any GET -/

/-- The feed of an `UNSPEC` `rdata_q` records the fault at every level of `SYS` (R203). -/
theorem step_feed_unspec {h : Hw p} {rest : List Line} (hl : p.legal = true)
    (hs : h.model.schedule = .basic .feedRdata :: rest) (hd : h.fifo.rdataQ = .unspec) :
    step ⟨p, h⟩ = .next ⟨p, (h.take (.firUpdate 0) rest).recordFault .readUnspec⟩ := by
  simp only [step, fetch_line hl hs, Line.expand, fetchBasic, hd, List.nil_append]

/-- Settles O31: recording a fault changes nothing else, and taking the line only the schedule and the indexes. -/
theorem useOfUnwrittenRdataIsAFault : Obligations.UseOfUnwrittenRdataIsAFault := by
  unfold Obligations.UseOfUnwrittenRdataIsAFault
  intro p h rest hl hs hd
  exact ⟨_, step_feed_unspec hl hs hd, rfl, rfl, rfl, rfl, rfl, rfl, rfl⟩

/-! ## No abrupt termination -/

/-- A filter with its invariant answers every FIR_UPDATE: unbound it records the fault, bound it reads a word in every
slot (R145, R202). -/
theorem Fir.Inv.exists_firUpdate {h : Hw p} (hf : h.fir.Inv) (d : BitVec p.dataW) : ∃ t, h.firUpdate d = .ok t := by
  cases hb : h.fir.bound with
  | false => exact ⟨_, firUpdate_unbound d hb⟩
  | true => exact ⟨_, (hf.reads hb (u2f d)).firUpdate⟩

/-- Every operation answers a next state while the filter has its invariant (R200). -/
theorem Fir.Inv.exists_exec {h : Hw p} (hf : h.fir.Inv) (i : Instr) : ∃ t, exec i ⟨p, h⟩ = .next ⟨p, t⟩ := by
  obtain hn | ⟨d, e, -, hu, -⟩ := exec_cases i h
  · exact hn
  · obtain ⟨t, ht⟩ := hf.exists_firUpdate (sampleIn p d)
    cases hu.symm.trans ht

/-- Settles O38, by what a step can do: it stays, or it runs an operation with the filter as it stands. -/
theorem stepAlwaysAnswersANextState : Obligations.StepAlwaysAnswersANextState := by
  unfold Obligations.StepAlwaysAnswersANextState
  rintro ⟨p, h⟩ hf
  obtain ⟨h', hn, -⟩ | ⟨i, v, ls, -, -, -, -, hx⟩ := step_cases h
  · exact ⟨_, hn⟩
  · obtain ⟨t, ht⟩ := Fir.Inv.exists_exec (h := (h.setSys v).take i ls) hf i
    exact ⟨_, hx.trans ht⟩

/-! ## What an operation does to the marks -/

@[simp] theorem put_refusals (h : Hw p) (d : BitVec p.dataW) : (h.put d).model.refusals = h.model.refusals := by
  obtain ⟨-, he⟩ | ⟨-, he⟩ := put_cases h d <;> rw [he] <;> rfl

@[simp] theorem tick_refusals (h : Hw p) : h.tick.model.refusals = h.model.refusals := by
  cases hs : h.sched.sstate
  · rw [tick_idle hs]; rfl
  · rw [tick_conv hs]; rfl

@[simp] theorem adcDone_refusals (h : Hw p) (d : BitVec p.dataW) :
    (h.adcDone d).model.refusals = h.model.refusals := by
  cases hs : h.sched.sstate
  · rw [adcDone_idle d hs]
  · rw [adcDone_conv d hs, put_refusals]

/-- The operation would read a slot that is `UNSPEC` (R203). -/
def Hw.ReadsUnspec (h : Hw p) : Instr → Prop
  | .get => h.fifo.rempty = false ∧ Memory.read h.fifo.mem h.fifo.rbin.toNat = .unspec
  | .firUpdate x => h.fir.bound = true ∧ h.fir.pairsAfter (u2f (sampleIn p x)) = .unspec
  | .sysNop | .rst | .fifoInit | .wNop | .put _ | .rNop | .fNop | .firInit _ _ | .sNop | .tick | .adcDone _
  | .adcDoneTick _ | .rsync | .wsync => False

/-- `h.Marks i t`: what operation `i` may do to the marks on its way from `h` to `t`. It leaves them, or setting one is
all it does (R202 to R204). -/
inductive Hw.Marks (h : Hw p) (i : Instr) (t : Hw p) : Prop
  | keep (hf : t.model.faults = h.model.faults) (hr : t.model.refusals = h.model.refusals)
  | refuse (r : RefusalName) (ht : t = h.refuse r)
  | unbound (ht : t = h.recordFault .firUnbound)
  | unspec (hu : h.ReadsUnspec i) (ht : t = h.recordFault .readUnspec)

namespace Hw.Marks

variable {h t : Hw p} {i : Instr}

/-- An operation of the scheduler's port that is driven leaves the marks (R243). -/
theorem asScheduler {f : Hw p → Hw p} (hf : (f h).model.faults = h.model.faults)
    (hr : (f h).model.refusals = h.model.refusals) : h.Marks i (h.asScheduler f) := by
  obtain hx | hx := asScheduler_cases h f <;> rw [hx]
  exacts [.keep hf hr, .refuse _ rfl]

/-- Every operation leaves the marks, or setting one is all it does. -/
theorem of_exec (he : exec i ⟨p, h⟩ = .next ⟨p, t⟩) : h.Marks i t := by
  cases i with
  | put d =>
    cases he
    obtain hx | hx := asProducer_cases h fun h => h.put (sampleIn p d) <;> rw [hx]
    exacts [.keep (put_draws_faults ..).2 (put_refusals ..), .refuse _ rfl]
  | get =>
    cases he
    obtain ⟨-, hg⟩ | ⟨hready, hread, hg⟩ | ⟨d, -, -, hg⟩ := get_cases h <;> rw [hg]
    exacts [.keep rfl rfl, .unspec ⟨hready, hread⟩ rfl, .keep rfl rfl]
  | firInit k taps =>
    cases he
    obtain ⟨-, hg⟩ | ⟨-, -, hg⟩ | ⟨-, -, hg⟩ := firInit_cases h (klenIn p k) taps <;> rw [hg]
    exacts [.keep rfl rfl, .refuse _ rfl, .keep rfl rfl]
  | firUpdate d =>
    obtain ⟨-, ht⟩ | ⟨hb, hpairs, ht⟩ | ⟨pairs, -, -, -, -, -, rfl⟩ := firUpdate_cases (exec_firUpdate_next.mp he)
    exacts [.unbound ht, .unspec ⟨hb, hpairs⟩ ht, .keep rfl rfl]
  | tick => cases he; exact .asScheduler (tick_draws_faults h).2 (tick_refusals h)
  | adcDone d => cases he; exact .asScheduler (adcDone_draws_faults h _).2 (adcDone_refusals h _)
  | adcDoneTick d =>
    cases he
    exact .asScheduler ((tick_draws_faults _).2.trans (adcDone_draws_faults h _).2)
      ((tick_refusals _).trans (adcDone_refusals h _))
  | sysNop | rst | fifoInit | wNop | rNop | fNop | sNop | rsync | wsync => cases he; exact .keep rfl rfl

/-- An operation that changes a mark changes no block and no event. -/
theorem frame (hm : h.Marks i t) (hne : t.model.faults ≠ h.model.faults ∨ t.model.refusals ≠ h.model.refusals) :
    t.fifo = h.fifo ∧ t.fir = h.fir ∧ t.sched = h.sched ∧ t.model.events = h.model.events := by
  cases hm with
  | keep hf hr => exact absurd hne (by simp [hf, hr])
  | refuse r ht => subst ht; exact ⟨rfl, rfl, rfl, rfl⟩
  | unbound ht | unspec _ ht => subst ht; exact ⟨rfl, rfl, rfl, rfl⟩

/-- Only a read of an `UNSPEC` slot records `F_READ_UNSPEC`. -/
theorem readUnspec (hm : h.Marks i t) (hn : ¬ h.ReadsUnspec i) :
    t.model.faults.readUnspec = h.model.faults.readUnspec := by
  cases hm with
  | keep hf _ => rw [hf]
  | refuse r ht => rw [ht]; rfl
  | unbound ht => rw [ht]; rfl
  | unspec hu _ => exact absurd hu hn

end Hw.Marks

/-- A filter that reads a word in every slot pairs each tap with one (R145). -/
theorem Fir.Reads.pairsAfter {f : Fir p} {x : F32} {c y : Nat → F32} (hr : f.Reads x c y) :
    f.pairsAfter x = .val ((List.range f.klen.toNat).map fun i => (c i, y i)) :=
  firPairs_eq _ (fun i hi => hr.coef i (List.mem_range.mp hi)) fun i hi => by
    have hi := List.mem_range.mp hi
    rw [tapSlot_eq _ hi, hr.hist i hi]

/-- With both invariants no operation reads an `UNSPEC` slot (R115, R203). -/
theorem not_readsUnspec {h : Hw p} (hi : h.fifo.Inv) (hf : h.fir.Inv) (i : Instr) : ¬ h.ReadsUnspec i := by
  cases i with
  | get =>
    rintro ⟨hready, hread⟩
    obtain ⟨d, hd⟩ := hi.exists_read hready
    cases hread.symm.trans hd
  | firUpdate x =>
    rintro ⟨hb, hpairs⟩
    cases hpairs.symm.trans (hf.reads hb _).pairsAfter
  | _ => exact id

/-- Settles O52, by what an operation does to the marks. -/
theorem faultsAndRefusalsChangeNoBlock : Obligations.FaultsAndRefusalsChangeNoBlock := by
  unfold Obligations.FaultsAndRefusalsChangeNoBlock
  intro p h t i he
  have hm := Hw.Marks.of_exec he
  exact ⟨hm.frame, fun hi hf => hm.readUnspec (not_readsUnspec hi hf i)⟩

end Sys2Proof.Machine
end

section
/-!
O13, O29, O55. Reset and hazards: what RST leaves (R230), that nothing happens while nothing is presented (R232), that
illegal parameters are refused (R204), and that an asserted `SYS` holds the FIFO in reset (R241).
-/

namespace Sys2Proof.Machine

variable {p : Params}

/-! ## While `SYS` is asserted (R241) -/

/-- The FIFO is as FIFO_INIT leaves it whenever `SYS` is asserted (R241). -/
def Hw.HeldInReset (h : Hw p) : Prop := h.model.sysLevel ≠ 0#2 → h.fifo = h.fifo.init

@[simp] theorem init_init (f : Fifo p) : f.init.init = f.init := rfl

/-- The operation of an asserted vector initialises the FIFO: RST does everything FIFO_INIT does (R106, R230). -/
theorem exec_sys_fifo {v : BitVec 2} {i : Instr} {h t : Hw p} (hv : v ≠ 0#2) (hd : decode p (.sys v) = .ok i)
    (he : exec i ⟨p, h⟩ = .next ⟨p, t⟩) : t.fifo = h.fifo.init := by
  rw [decode_sys, if_neg hv] at hd
  split at hd <;> cases hd <;> cases he <;> rfl

/-- A step that stays changes no FIFO, and ends asserted only if it began so; an operation that runs ends asserted only
if its own vector was presented, and that one initialises the FIFO (R81, R241). -/
theorem step_keeps_heldInReset {h t : Hw p} (he : step ⟨p, h⟩ = .next ⟨p, t⟩) (hr : h.HeldInReset) :
    t.HeldInReset := by
  obtain ⟨h', hn, hh⟩ | ⟨i, v, ls, -, -, -, hd, hx⟩ := step_cases h
  · cases he.symm.trans hn
    obtain rfl | ⟨ls, r, rfl⟩ | ⟨ls, v, r, h0, rfl⟩ | ⟨ls, rfl⟩ := hh
    · exact hr
    · exact hr
    · intro _
      rw [refuseIf_fifo]
      exact hr h0
    · exact hr
  · intro ht
    rw [hx] at he
    obtain ⟨hlevel, -, -⟩ := exec_model he
    have hv : v ≠ 0#2 := fun h0 => ht (hlevel.trans h0)
    rw [exec_sys_fifo hv (hd hv) he, take_fifo, setSys_fifo, init_init]

/-- Settles O55: at reset nothing is asserted, and a step that ends asserted was held or has just reset the FIFO. -/
theorem assertedSysKeepsTheFifoReset : Obligations.AssertedSysKeepsTheFifoReset := by
  unfold Obligations.AssertedSysKeepsTheFifoReset
  exact ⟨fun h0 => absurd rfl h0, fun p h t he hr => step_keeps_heldInReset he hr⟩

/-! ## RST (R230) -/

/-- An initialised FIFO has exact views: every pointer is 0 (R106, R118). -/
theorem init_quiescent (f : Fifo p) : f.init.Quiescent := ⟨rfl, rfl⟩

/-- RST leaves an empty read view, so GET underflows (R108, R230). -/
theorem get_rst (h : Hw p) : h.rst.get.fifo.gstQ = .underflow := by
  rw [get_empty (init_rempty h.fifo)]
  rfl

/-- RST unbinds the filter, so FIR_UPDATE records the fault (R145, R230). -/
theorem exec_firUpdate_rst (h : Hw p) (x : Nat) :
    exec (.firUpdate x) ⟨p, h.rst⟩ = .next ⟨p, h.rst.recordFault .firUnbound⟩ :=
  exec_firUpdate_next.mpr (firUpdate_unbound _ rfl)

/-- Settles O13: RST's writes, the flags of equal pointers, and the worked example of R230. -/
theorem rstResetsTheThreeBlocks : Obligations.RstResetsTheThreeBlocks := by
  unfold Obligations.RstResetsTheThreeBlocks
  intro p h hw
  exact ⟨rfl, rfl, rfl, h.rst, rfl, rfl, init_wfull hw h.fifo, init_rempty h.fifo, rfl, rfl, rfl, rfl,
    init_quiescent h.fifo, ⟨h.rst.get, rfl, get_rst h⟩, exec_firUpdate_rst h⟩

/-! ## Nothing presented, and illegal parameters (R204, R232) -/

/-- With an empty schedule no agent presents anything and nothing happens (R232). -/
theorem step_of_schedule_nil {h : Hw p} (hs : h.model.schedule = []) : step ⟨p, h⟩ = .next ⟨p, h⟩ := by
  simp [step, fetch, hs]

/-- At parameters outside R6 a line is taken and refused, whatever it is (R204). -/
theorem step_of_not_legal {h : Hw p} {l : Line} {rest : List Line} (hs : h.model.schedule = l :: rest)
    (hl : p.legal = false) : step ⟨p, h⟩ = .next ⟨p, (h.setSchedule rest).refuse .config⟩ := by
  simp [step, fetch, hs, hl]

/-- Settles O29: the two ways in which `fetch` finds no operation before it looks at a line. -/
theorem stepWithoutAnOperation : Obligations.StepWithoutAnOperation := by
  unfold Obligations.StepWithoutAnOperation
  exact fun p h => ⟨step_of_schedule_nil, fun l rest => step_of_not_legal⟩

end Sys2Proof.Machine
end
